-- ==== Sys2Proof/Word.lean ====
section
/-! DEFINITION. The NCS's word types (spec/00_scope.md R9, R10) and their plainest arithmetic. -/

namespace Sys2Proof

/-- Every register is 32 bits (R9). -/
abbrev Word := BitVec 32

/-- A byte of a RAM, and the value of a control cycle (R12, R207). -/
abbrev Byte := BitVec 8

/-- The data lines DQ[15:0], and the chip-select and ready/busy lines (R71). -/
abbrev Half := BitVec 16

/-- A Boolean as a bit vector of any width: 1 or 0. -/
def ofBit (w : Nat) (b : Bool) : BitVec w := (BitVec.ofBool b).setWidth w

end Sys2Proof
end

