-- ==== Sys2Proof/Syntax.lean ====
section
/-! DEFINITION. The instructions of the NCS: one constructor for each row of spec/opcode_table.json. -/

namespace Sys2Proof

/-- The eleven timing words T0 to T10 of a step entry, each a number of nanoseconds, in the order of
spec/30_encoding.md R115. -/
structure Timing where
  /-- T0 PRE_DELAY. -/
  pre : Word
  /-- T1 LE_PRE. -/
  lePre : Word
  /-- T2 LE_POST. -/
  lePost : Word
  /-- T3 RDY_THIS. -/
  rdy : Word
  /-- T4 RDY_OTHER. -/
  rdyOther : Word
  /-- T5 READY_POST. -/
  rdyPost : Word
  /-- T6 CYC_EN_POST. -/
  cycEn : Word
  /-- T7 CYC_DIS_POST. -/
  cycDis : Word
  /-- T8 LD_PRE. -/
  ldPre : Word
  /-- T9 LD_POST. -/
  ldPost : Word
  /-- T10 POST_DELAY. -/
  post : Word
deriving DecidableEq, Repr

/-- All eleven fields 0: "skip this wait" (R116). -/
def Timing.zero : Timing := ⟨0, 0, 0, 0, 0, 0, 0, 0, 0, 0, 0⟩

/-- The NCS's instructions: the step kinds (R113, R122), the decoder operations (R120) and the CTRL
commands (spec/10_state.md R26). -/
inductive Instr
  /-- CMD, KIND 0: one command cycle (R201). -/
  | cmd (byte : Byte) (t : Timing)
  /-- ADDR, KIND 1: column cycles, then row cycles (R202). -/
  | addr (col row : Word) (t : Timing)
  /-- ADDRC, KIND 2: column cycles (R204). -/
  | addrc (col : Word) (t : Timing)
  /-- ADDRR, KIND 3: row cycles (R205). -/
  | addrr (row : Word) (t : Timing)
  /-- ADDR1, KIND 4: one address cycle (R206). -/
  | addr1 (byte : Byte) (t : Timing)
  /-- RAWW, KIND 5: data out of transfer record `xfer` (R231). -/
  | raww (xfer : BitVec 3) (t : Timing)
  /-- RAWR, KIND 6: data into transfer record `xfer` (R232). -/
  | rawr (xfer : BitVec 3) (t : Timing)
  /-- A defined step of KIND 7 (R118). -/
  | illegalKind7
  /-- HOLE: a step with DEFINED = 0 (R214). -/
  | hole
  /-- DEC_CTRL with OP 0, reserved (R120). -/
  | decRsvd0
  /-- DDRCHK, OP 1 (R261). -/
  | ddrchk
  /-- DDRFOLD, OP 2 (R262). -/
  | ddrfold (filler : Byte)
  /-- PATLEN, OP 3 (R263). -/
  | patlen (minPeriod : Byte)
  /-- IDEXT, OP 4; `dest` is DEC_CTRL.DEST (R264). -/
  | idext (dest : Bool)
  /-- ONFIDEC, OP 5 (R290). -/
  | onfidec
  /-- VIDDEC, OP 6 (R300). -/
  | viddec
  /-- DEC_CTRL with OP 7, reserved (R120). -/
  | decRsvd7
  /-- CTRL.START (R170). -/
  | start
  /-- CTRL.HOOK_ACK (R185). -/
  | hookAck
  /-- CTRL.DONE_CLR (R26). -/
  | doneClr
deriving DecidableEq, Repr

end Sys2Proof
end

