-- ==== Sys2Proof/Decode.lean ====
section
/-! DEFINITION. The decoder and the encoder of the NCS's three instruction formats
(spec/30_encoding.md R110 to R122, spec/10_state.md R26, R55), and the host's question about a word of
spec/opcode_table.json. Every function is total; what names no instruction is refused by name. -/

namespace Sys2Proof

/-- Where a word is read as an instruction. The formats share numbers, so the place decides: a step entry
of descriptor RAM (R111), the DEC_CTRL register (R55), or the CTRL register (R26). -/
inductive Site
  | stepEntry | decCtrl | ctrl
deriving DecidableEq, Repr

/-- Why bytes name no instruction. -/
inductive DecodeError
  /-- A step entry is exactly 64 bytes, 16 words (R119). -/
  | notSixteenWords
  /-- DEC_CTRL and CTRL are written as one 32-bit word (R88). -/
  | notOneWord
  /-- A CTRL word with none of START, HOOK_ACK and DONE_CLR set: "Writing 0 to a bit does nothing" (R26). -/
  | noCommand
  /-- A CTRL word with several command bits is several instructions; `decodeCtrl` lists them (R26). -/
  | severalCommands
deriving DecidableEq, Repr

/-! ### Fields -/

/-- W0[2:0], KIND (R112). -/
def kindOf (w0 : Word) : BitVec 3 := w0.extractLsb' 0 3
/-- W0[3], DEFINED (R112). -/
def definedOf (w0 : Word) : Bool := w0.getLsbD 3
/-- W1[7:0], the byte of CMD and ADDR1 (R114). -/
def payloadByte (w1 : Word) : Byte := w1.extractLsb' 0 8
/-- W1[2:0], the transfer record of a raw step (R114). -/
def payloadXfer (w1 : Word) : BitVec 3 := w1.extractLsb' 0 3
/-- DEC_CTRL bits 2:0, OP (R55). -/
def opOf (w : Word) : BitVec 3 := w.extractLsb' 0 3
/-- DEC_CTRL bit 3, DEST (R55). -/
def destOf (w : Word) : Bool := w.getLsbD 3
/-- DEC_CTRL bits 15:8, FILLER (R55). -/
def fillerOf (w : Word) : Byte := w.extractLsb' 8 8
/-- DEC_CTRL bits 23:16, MIN_PERIOD (R55). -/
def minPeriodOf (w : Word) : Byte := w.extractLsb' 16 8

/-! ### The three formats -/

/-- `decode_step` of R122. -/
def decodeStep (w0 w1 w2 : Word) (t : Timing) : Instr :=
  if definedOf w0 = false then .hole
  else
    match (kindOf w0).toNat with
    | 0 => .cmd (payloadByte w1) t
    | 1 => .addr w1 w2 t
    | 2 => .addrc w1 t
    | 3 => .addrr w1 t
    | 4 => .addr1 (payloadByte w1) t
    | 5 => .raww (payloadXfer w1) t
    | 6 => .rawr (payloadXfer w1) t
    | _ => .illegalKind7

/-- A DEC_CTRL word, by its OP (R120, R121). -/
def decodeDec (w : Word) : Instr :=
  match (opOf w).toNat with
  | 0 => .decRsvd0
  | 1 => .ddrchk
  | 2 => .ddrfold (fillerOf w)
  | 3 => .patlen (minPeriodOf w)
  | 4 => .idext (destOf w)
  | 5 => .onfidec
  | 6 => .viddec
  | _ => .decRsvd7

/-- A CTRL word: the commands it gives, in the order they are applied, "DONE_CLR is applied first, then
HOOK_ACK, then START" (R26). -/
def decodeCtrl (w : Word) : List Instr :=
  (if w.getLsbD 2 then [.doneClr] else []) ++
  ((if w.getLsbD 1 then [.hookAck] else []) ++ (if w.getLsbD 0 then [.start] else []))

/-! ### Bytes -/

/-- The 32-bit word of four bytes, the lowest address least significant (spec/20_memory.md R81). -/
def wordOfBytes (b0 b1 b2 b3 : Byte) : Word := b3 ++ b2 ++ b1 ++ b0

/-- The byte at offset `j` of a word, `j` = 0 to 3 (R81). -/
def byteOfWord (w : Word) (j : Nat) : Byte := w.extractLsb' (8 * j) 8

/-- The four bytes of a word, in the order of their addresses (R81). -/
def bytesOfWord (w : Word) : List Byte := [byteOfWord w 0, byteOfWord w 1, byteOfWord w 2, byteOfWord w 3]

/-- Whole words of a run of bytes; a tail of fewer than four bytes is no word. -/
def wordsOfBytes : List Byte → List Word
  | b0 :: b1 :: b2 :: b3 :: rest => wordOfBytes b0 b1 b2 b3 :: wordsOfBytes rest
  | _ => []

/-- The sixteen words of a step entry (R111). -/
def decodeEntryWords : List Word → Except DecodeError Instr
  | [w0, w1, w2, _, t0, t1, t2, t3, t4, t5, t6, t7, t8, t9, t10, _] =>
    .ok (decodeStep w0 w1 w2 ⟨t0, t1, t2, t3, t4, t5, t6, t7, t8, t9, t10⟩)
  | _ => .error .notSixteenWords

/-- The decoder: the instruction that the words at a place hold. -/
def decodeWords (site : Site) (ws : List Word) : Except DecodeError Instr :=
  match site with
  | .stepEntry => decodeEntryWords ws
  | .decCtrl =>
    match ws with
    | [w] => .ok (decodeDec w)
    | _ => .error .notOneWord
  | .ctrl =>
    match ws with
    | [w] =>
      match decodeCtrl w with
      | [i] => .ok i
      | [] => .error .noCommand
      | _ => .error .severalCommands
    | _ => .error .notOneWord

/-- The decoder on bytes, in the order of their addresses. -/
def decode (site : Site) (bs : List Byte) : Except DecodeError Instr := decodeWords site (wordsOfBytes bs)

/-! ### The encoder -/

/-- The sixteen words of a step entry; W3 and W15 "are written 0" (R124). -/
def entryWords (w0 w1 w2 : Word) (t : Timing) : List Word :=
  [w0, w1, w2, 0, t.pre, t.lePre, t.lePost, t.rdy, t.rdyOther, t.rdyPost, t.cycEn, t.cycDis, t.ldPre, t.ldPost,
    t.post, 0]

/-- The place and the words of an instruction: step entries as R124 writes them, DEC_CTRL words as R125
does, and one CTRL bit (R26). -/
def encode : Instr → Site × List Word
  | .cmd b t => (.stepEntry, entryWords 0x8 (b.setWidth 32) 0 t)
  | .addr c r t => (.stepEntry, entryWords 0x9 c r t)
  | .addrc c t => (.stepEntry, entryWords 0xA c 0 t)
  | .addrr r t => (.stepEntry, entryWords 0xB r 0 t)
  | .addr1 b t => (.stepEntry, entryWords 0xC (b.setWidth 32) 0 t)
  | .raww k t => (.stepEntry, entryWords 0xD (k.setWidth 32) 0 t)
  | .rawr k t => (.stepEntry, entryWords 0xE (k.setWidth 32) 0 t)
  | .illegalKind7 => (.stepEntry, entryWords 0xF 0 0 Timing.zero)
  | .hole => (.stepEntry, entryWords 0 0 0 Timing.zero)
  | .decRsvd0 => (.decCtrl, [0])
  | .ddrchk => (.decCtrl, [1])
  | .ddrfold f => (.decCtrl, [f.setWidth 32 <<< 8 ||| 2])
  | .patlen m => (.decCtrl, [m.setWidth 32 <<< 16 ||| 3])
  | .idext d => (.decCtrl, [ofBit 32 d <<< 3 ||| 4])
  | .onfidec => (.decCtrl, [5])
  | .viddec => (.decCtrl, [6])
  | .decRsvd7 => (.decCtrl, [7])
  | .start => (.ctrl, [1])
  | .hookAck => (.ctrl, [2])
  | .doneClr => (.ctrl, [4])

/-- The bytes of an instruction, in the order of their addresses. -/
def encodeBytes (i : Instr) : List Byte := (encode i).2.flatMap bytesOfWord

/-! ### The table's words -/

/-- `n` bytes of a number, the least significant first: how the hardware stores the words of an
instruction whose bits opcode_table.json numbers (R81). -/
def bytesOfNat : Nat → Nat → List Byte
  | 0, _ => []
  | n + 1, w => BitVec.ofNat 8 w :: bytesOfNat n (w / 256)

/-- The place a bare word of the table is read at (DESIGN CHOICE, notes/assumptions/2.md): the table's
numbers do not say the place, and the formats overlap. A word with bit 3 set is W0 of a defined step;
any other is a DEC_CTRL word. -/
def tableSite (w : Nat) : Site := if w.testBit 3 then .stepEntry else .decCtrl

/-- How many bytes an instruction has at a place. -/
def siteBytes : Site → Nat
  | .stepEntry => 64
  | .decCtrl => 4
  | .ctrl => 4

/-- The low `nbits` bits of `w` laid out as the hardware stores them, every later bit 0. -/
def tableBytes (nbits w : Nat) : List Byte := bytesOfNat (siteBytes (tableSite (w % 2 ^ nbits))) (w % 2 ^ nbits)

/-- The instruction the decoder reads from a word of the table. -/
def decodeTableWord (nbits w : Nat) : Option Instr :=
  match decode (tableSite (w % 2 ^ nbits)) (tableBytes nbits w) with
  | .ok i => some i
  | .error _ => none

end Sys2Proof
end

