-- ==== Sys2Proof/Config.lean ====
section
/-! DEFINITION. What one build of the NCS fixes (spec/00_scope.md R7, spec/92_eei_decisions.md D4), and
the free values: constants with no body, which stand for what the spec leaves open. No proof can see the
value of one, so a claim holds whatever it is. -/

namespace Sys2Proof.Config

/-! The build parameters, at the values R7 gives them (notes/assumptions/3.md). -/

/-- MAX_STEPS, the step capacity of a chain (R7). -/
abbrev maxSteps : Nat := 10
/-- NUM_DESC, the number of descriptor slots (R7). -/
abbrev numDesc : Nat := 8
/-- NUM_XFER, the number of transfer records (R7). -/
abbrev numXfer : Nat := 4
/-- NUM_LUN_MAX, the number of chip-select and ready/busy pairs (R7). -/
abbrev numLunMax : Nat := 4
/-- BUF_BYTES, the size of the buffer RAM (R7). -/
abbrev bufBytes : Nat := 4096

/-- NCS_ID: "N", "C", "S" and revision 1 (R24). -/
def ncsId : Word := 0x4E435301#32

/-! The window's layout (R22, R69, R70). -/

/-- The host window is 128 KiB (R80). -/
abbrev windowBytes : Nat := 0x20000
/-- Descriptor slot 0 (R69). -/
abbrev descBase : Nat := 0x1000
/-- A descriptor slot is 0x400 bytes (R69). -/
abbrev descStride : Nat := 0x400
/-- The mapped part of a slot: the header block and MAX_STEPS step entries of 64 bytes (R69). -/
abbrev descMapped : Nat := 64 * (maxSteps + 1)
/-- Buffer RAM (R70). -/
abbrev bufBase : Nat := 0x10000

/-! The OPEN parameters (R7; notes/assumptions/4.md). -/

/-- NCS_BASE is any 128 KiB-aligned address: the index of its 128 KiB block. -/
opaque ncsBaseIndex : Nat
/-- The host address of window offset `off` (R22, R94). -/
def hostAddress (off : Nat) : Nat := windowBytes * ncsBaseIndex + off
/-- CLK_PERIOD_NS - 1: the period is greater than 0 (R7). No rule computes with the period. -/
opaque clkPeriodPred : Nat
/-- TIME_NS_PER_TICK - 1: the tick is greater than 0 (R7). A machine carries it as an argument, in
`Clk.tickPred`; this is the value `State.reset` gives it. -/
opaque tickPred : Nat
/-- MIN_ID_LEN, 0 to 255, the host's bring-up threshold (R7, R269). -/
opaque minIdLen : BitVec 8
/-- MIN_PARAM_LEN, 0 to 65536, the host's bring-up threshold (R7, R269). -/
opaque minParamLen : Fin 65537
/-- What the platform's interrupt controller takes of a line: its level, or an edge of it (R332). -/
inductive IrqSense where
  | level
  | edge
  deriving DecidableEq, Repr, Inhabited
/-- How a platform takes the NCS's interrupt output (R332). -/
structure IrqRoute where
  /-- The interrupt line number. -/
  line : Nat
  /-- Edge or level at the interrupt controller. -/
  sense : IrqSense
  /-- The priority there. -/
  priority : Nat
  deriving DecidableEq, Repr, Inhabited
/-- How IRQ reaches the host processor (R332; spec/93_implementation_defined.md item 26). The NCS drives its level on
the line (`State.irqDrives`); the sense and the priority are the controller's settings, and no rule of the NCS computes
with them. -/
opaque irqRoute : IrqRoute

/-! The free values (spec/93_implementation_defined.md items 17 to 20; notes/assumptions/5.md). Each is
applied to the counter `Env.draws`, so that every draw is a value of its own. -/

/-- The levels of the ready/busy inputs at a sample (R345: a level may change at any clock). -/
opaque rbFree : Nat → Half
/-- The value the device drives on DQ in a read cycle (R105: "the device's answer"). -/
opaque dqFree : Nat → Half
/-- The clocks, beyond the one it takes at least, between two primitives (R380: "not fixed"). -/
opaque latencyFree : Nat → Nat
/-- A reserved word of a step entry (W3, W15) that the host never wrote, by its window offset
(R111: "reserved, ignored"; notes/assumptions/8.md). -/
opaque ramFree : Nat → Word

end Sys2Proof.Config
end

