-- ==== Sys2Proof/Machine/State.lean ====
section
/-! DEFINITION. The state of the NCS as plain data: every piece of state of spec/10_state.md (INVENTORY.md
lists them with their rules), the model's own fields, the reasons a step can stop, and the reset state of
spec/70_reset_and_hazards.md R360. -/

namespace Sys2Proof.Machine

/-! ### Small sets -/

/-- The sequencer's state machine (R21). BUSY is "not IDLE", HOOK_PENDING is "HOOK_WAIT". -/
inductive Fsm
  | idle | running | hookWait
deriving DecidableEq, Repr

/-- Where the step at STATUS.STEP goes on: at its beginning, or at "the statement after the hook point"
of a hook the host has to acknowledge or has acknowledged (R339). -/
inductive Phase
  | begin | afterPre | afterPost
deriving DecidableEq, Repr

/-- The response codes, in the order of their numbers 0 to 6 (R28). -/
inductive Resp
  | ok | timeout | writeError | eccMismatch | notSupported | cmdInvalid | chainTooLong
deriving DecidableEq, Repr

/-- The latch modes (R71). -/
inductive Latch
  | neutral | cmd | addr
deriving DecidableEq, Repr

/-- The direction of the data bus (R13). -/
inductive Dir
  | write | read
deriving DecidableEq, Repr

/-- The width of a bus cycle, 8 or 16 bits (R148). -/
inductive Width
  | w8 | w16
deriving DecidableEq, Repr

/-- The kind of a hook (R182). -/
inductive HookKind
  | pre | post
deriving DecidableEq, Repr

/-- The events of the bus trace (spec/40_timing_sync.md R150). -/
inductive Event
  | cs (lun : Nat) (e : Bool)
  | wp (e : Bool)
  | strobesIdle
  | latch (m : Latch)
  | dir (d : Dir)
  | wcyc (w : Width) (v : Half)
  | rcyc (w : Width) (v : Half)
  | delay (t : Word)
  | wait (lun : Nat) (t : Word) (ok : Bool)
  | hook (kind : HookKind) (step : BitVec 8) (raw : Bool) (chunk : Word)
  | finish (resp : Resp) (total : Word)
deriving DecidableEq, Repr

/-! ### Registers -/

/-- The stored fields of STATUS; BUSY and HOOK_PENDING are the FSM's (R21, R27). -/
structure Status where
  done : Bool
  hookPost : Bool
  hookRaw : Bool
  resp : Resp
  /-- STEP, the index into the effective chain (R31). -/
  step : BitVec 8
deriving DecidableEq, Repr

/-- IRQ_EN (R29). -/
structure IrqEn where
  doneIe : Bool
  hookIe : Bool
deriving DecidableEq, Repr

/-- RUN_CFG (R30). -/
structure RunCfg where
  template : BitVec 4
  override : BitVec 4
  overrideEn : Bool
  lun : BitVec 4
deriving DecidableEq, Repr

/-- CUR_W0 to CUR_W2 (R34). -/
structure CurWords where
  w0 : Word
  w1 : Word
  w2 : Word
deriving DecidableEq, Repr

/-- PIN_CTRL, PIN_STATUS and the DQ outputs (R35, R36, R71). -/
structure Pins where
  cs : Half
  wp : Bool
  latch : Latch
  dir : Dir
  weAct : Bool
  reAct : Bool
  dq : Half
deriving DecidableEq, Repr

/-- The device record (spec/10_state.md section 4, R40 to R51). -/
structure Device where
  dataW16 : Bool
  addrW16 : Bool
  /-- DEV_STATE.STATE; INIT_DONE is "STATE = 4" (R41). -/
  state : BitVec 3
  pageBytes : Word
  spareBytes : Half
  pagesPerBlock : Word
  blocksPerLun : Word
  rowCycles : BitVec 4
  colCycles : BitVec 4
  lunCount : BitVec 8
  bitsPerCell : BitVec 8
  programsPerPage : BitVec 8
  badBlocks : Half
  idLen : BitVec 8
  sigLen : BitVec 8
  idBytes0 : Word
  idBytes1 : Word
  sigBytes0 : Word
  sigBytes1 : Word
deriving DecidableEq, Repr

/-- ONFI_REV_FEAT, ONFI_TIMING and ONFI_CHECK (R52 to R54). -/
structure OnfiRegs where
  revision : Half
  features : Half
  timingModes : Half
  crcStored : Half
  sigOk : Bool
  crcOk : Bool
  crcCalc : Half
deriving DecidableEq, Repr

/-- DEC_SRC, DEC_LEN, DEC_STATUS and DEC_RESULT (R56 to R58). -/
structure DecRegs where
  src : BitVec 16
  len : BitVec 17
  err : Bool
  lastOp : BitVec 3
  result : Word
deriving DecidableEq, Repr

/-- VID0 to VID3 (R59). -/
structure VidRegs where
  chips : BitVec 8
  cellLevels : BitVec 8
  simPages : BitVec 8
  interleave : Bool
  cacheProg : Bool
  pageBytes : Word
  blockBytes : Word
  busWidth : BitVec 8
  planes : BitVec 8
  blocksPerPlane : BitVec 16
deriving DecidableEq, Repr

/-- A step entry of 16 words (R111). -/
structure StepEntry where
  w0 : Word
  w1 : Word
  w2 : Word
  w3 : Word
  t : Timing
  w15 : Word
deriving DecidableEq, Repr

/-- ZERO_ENTRY, "16 zero words, a hole" (R172). -/
def StepEntry.zero : StepEntry := ⟨0, 0, 0, 0, Timing.zero, 0⟩

/-- EFF, the effective chain snapshot, with EFF_PRE and EFF_POST (R60). -/
structure EffChain where
  steps : List StepEntry
  pre : Bool
  post : Bool
deriving DecidableEq, Repr

/-- A transfer record (R61 to R68). -/
structure XferRec where
  intended : Word
  hint : Word
  bufBase : BitVec 16
  bufCap : BitVec 17
  offset : Word
  chunkSeq : Word
  lastChunk : Word
deriving DecidableEq, Repr

/-- Every field 0 (R61). -/
def XferRec.zero : XferRec := ⟨0, 0, 0, 0, 0, 0, 0⟩

/-! ### Memory, time and the outside -/

/-- Descriptor RAM and buffer RAM, a byte at each window offset that has been written since reset
(R69, R70, R82), in the one form of `Memory.wf`. An offset that is not listed has no value (R363). -/
abbrev Memory := List Host.Cell

/-- What the outside of the NCS still has to answer: the device's answers on DQ, the levels of the
ready/busy inputs, and the NCS's own latencies. An empty list answers with the free value of Config at
`draws`; the last level and the last latency of a list stay (notes/assumptions/5.md). -/
structure Env where
  dq : List Half
  rb : List Half
  lat : List Nat
  draws : Nat
deriving DecidableEq, Repr

/-- The time base, the deadline of the current wait and the ready/busy synchronizer: what moves with the
clock (R140, R142, R72). -/
structure Clk where
  time : BitVec 64
  deadline : BitVec 64
  /-- The first synchronizer stage of each LUN. -/
  rbFirst : Half
  /-- RB_SYNC, the second stage. -/
  rbSync : Half
  /-- TIME_NS_PER_TICK - 1; nothing changes it (R7, notes/assumptions/4.md). -/
  tickPred : Nat
  env : Env
deriving DecidableEq, Repr

/-- A host access to the window: the width in bytes, the window offset, and, for a write, the value
(R88). -/
inductive HostAccess
  | read (bytes off : Nat)
  | write (bytes off : Nat) (v : Word)
deriving DecidableEq, Repr

/-- What arrives at the machine from outside (R361, R96). -/
inductive HostInput
  /-- A host access. -/
  | access (a : HostAccess)
  /-- RESET is asserted, and stays so: once the action that begins now has recorded `after` events, so in the
  middle of it, or before it begins where `after` is 0. -/
  | reset (after : Nat)
  /-- RESET is de-asserted. -/
  | release
deriving DecidableEq, Repr

/-! ### The state -/

/-- The state of the NCS. `resetIn` is an input, and the last three fields, `clk.tickPred` and
`clk.env` are the model's own. -/
structure State where
  status : Status
  fsm : Fsm
  phase : Phase
  irqEn : IrqEn
  runCfg : RunCfg
  /-- BYTES, the running total (R32). -/
  bytes : Word
  /-- EFF_LEN (R33). -/
  effLen : BitVec 8
  cur : CurWords
  pins : Pins
  clk : Clk
  /-- TIME_HI_SHADOW (R37). -/
  timeHiShadow : Word
  dev : Device
  onfi : OnfiRegs
  dec : DecRegs
  vid : VidRegs
  eff : EffChain
  xfer : Vector XferRec Config.numXfer
  /-- HOOK_XFER (R73). -/
  hookXfer : BitVec 3
  mem : Memory
  /-- The level of the RESET input at the last clock edge (R361). -/
  resetIn : Bool
  /-- What is still to come from outside, each with the number of steps before it arrives (R96). -/
  port : List (Nat × HostInput)
  /-- The data of the last host read. -/
  rdata : Word
  /-- The bus trace, the newest event first (R150). -/
  trace : List Event
deriving DecidableEq, Repr

/-! ### Why a step stops -/

/-- The faults. Each is safe: the model stops where the hardware goes on. -/
inductive Fault
  /-- A read of descriptor RAM or buffer RAM not written since reset, at this window offset: raised by a
  host read, by START and by a decoder operation or raw step that reads it (R363: "A model that reads
  descriptor RAM or buffer RAM that has not been written since reset faults"). Safe. -/
  | unwrittenRam (off : Nat)
  /-- A raw step's element outside buffer RAM; validation excludes it in every run (R171, R244). Raised
  by RAWW and RAWR. Safe. -/
  | elementOutsideBuffer
  /-- A host access outside the 128 KiB window (R80). Raised by the host port. Safe. -/
  | outsideWindow (off : Nat)
deriving DecidableEq, Repr

/-- The refusals. Each is safe: the spec says that a model rejects the input or the access. -/
inductive Refusal
  /-- An instruction with no meaning yet. Raised by exec. Safe. -/
  | notModelled (mnemonic : String)
  /-- A host access that is not a naturally aligned 32-bit one (R88: "a model refuses it"). Raised by the
  host port. Safe. -/
  | unalignedHostAccess
  /-- A host access to buffer RAM while BUSY = 1 and HOOK_PENDING = 0 (R76: "A model refuses such an
  access"). Raised by the host port. Safe. -/
  | bufferAccessDuringRun
  /-- A raw step whose size resolves from PAGE with DATA_W16 = 1 (R247: "a model refuses a run that
  resolves PAGE with DATA_W16 = 1"). Raised by RAWW and RAWR. Safe. -/
  | pageSizeOn16BitBus
deriving DecidableEq, Repr

/-! ### Reset -/

/-- PIN_CTRL and PIN_STATUS after reset: no chip select, write protect asserted, the bus idle and not
driven (R35, R36, R360). -/
def Pins.reset : Pins :=
  { cs := 0, wp := true, latch := .neutral, dir := .read, weAct := false, reAct := false, dq := 0 }

/-- The device record after reset: 0 but for LUN_COUNT = 1 (R47, R360). -/
def Device.reset : Device :=
  { dataW16 := false, addrW16 := false, state := 0, pageBytes := 0, spareBytes := 0, pagesPerBlock := 0,
    blocksPerLun := 0, rowCycles := 0, colCycles := 0, lunCount := 1, bitsPerCell := 0, programsPerPage := 0,
    badBlocks := 0, idLen := 0, sigLen := 0, idBytes0 := 0, idBytes1 := 0, sigBytes0 := 0, sigBytes1 := 0 }

/-- The vendor decode results after reset (R59). -/
def VidRegs.reset : VidRegs :=
  { chips := 0, cellLevels := 0, simPages := 0, interleave := false, cacheProg := false, pageBytes := 0,
    blockBytes := 0, busWidth := 0, planes := 0, blocksPerPlane := 0 }

/-- The time base and the synchronizer after reset (R37, R72, R360). -/
def Clk.reset : Clk :=
  { time := 0, deadline := 0, rbFirst := 0, rbSync := 0, tickPred := Config.tickPred,
    env := { dq := [], rb := [], lat := [], draws := 0 } }

/-- EFF after reset; the spec leaves it unspecified (R60; notes/assumptions/9.md). -/
def EffChain.reset : EffChain :=
  { steps := List.replicate Config.maxSteps StepEntry.zero, pre := false, post := false }

/-- The NCS right after reset (R360). -/
def State.reset : State :=
  { status := { done := false, hookPost := false, hookRaw := false, resp := .ok, step := 0 }
    fsm := .idle
    phase := .begin
    irqEn := { doneIe := false, hookIe := false }
    runCfg := { template := 0, override := 0, overrideEn := false, lun := 0 }
    bytes := 0
    effLen := 0
    cur := { w0 := 0, w1 := 0, w2 := 0 }
    pins := Pins.reset
    clk := Clk.reset
    timeHiShadow := 0
    dev := Device.reset
    onfi := { revision := 0, features := 0, timingModes := 0, crcStored := 0, sigOk := false, crcOk := false,
              crcCalc := 0 }
    dec := { src := 0, len := 0, err := false, lastOp := 0, result := 0 }
    vid := VidRegs.reset
    eff := EffChain.reset
    xfer := Vector.replicate Config.numXfer XferRec.zero
    hookXfer := 0
    mem := []
    resetIn := false
    port := []
    rdata := 0
    trace := [] }

end Sys2Proof.Machine
end

