-- ==== Sys2Proof/Machine/Flags.lean ====
section
/-! DEFINITION. The NCS's flags (spec/10_state.md R77) and the interrupt output (spec/60_exceptions.md
R330), as functions of the state. No flag is written as a side effect of a bus cycle. -/

namespace Sys2Proof.Machine

/-- STATUS.BUSY: 1 in RUNNING and HOOK_WAIT (R21). -/
def State.busy (s : State) : Bool := decide (s.fsm ≠ .idle)

/-- STATUS.HOOK_PENDING: 1 exactly in HOOK_WAIT (R21). -/
def State.hookPending (s : State) : Bool := decide (s.fsm = .hookWait)

/-- DEV_STATE.INIT_DONE: 1 exactly when STATE = 4, Ready (R41). -/
def Device.initDone (d : Device) : Bool := decide (d.state = 4)

/-- IRQ = (DONE and DONE_IE) or (HOOK_PENDING and HOOK_IE) (R330). -/
def State.irq (s : State) : Bool := (s.status.done && s.irqEn.doneIe) || (s.hookPending && s.irqEn.hookIe)

/-- What the NCS drives on an interrupt line of the platform: the level of its one output on the line the platform
gives it (R330, R332), and nothing on any other. -/
def State.irqDrives (s : State) (line : Nat) : Option Bool :=
  if line = Config.irqRoute.line then some s.irq else none

/-- The number of a response code (R28). -/
def Resp.code : Resp → BitVec 3
  | .ok => 0
  | .timeout => 1
  | .writeError => 2
  | .eccMismatch => 3
  | .notSupported => 4
  | .cmdInvalid => 5
  | .chainTooLong => 6

/-- PIN_STATUS.LATCH (R36). -/
def Latch.code : Latch → BitVec 2
  | .neutral => 0
  | .cmd => 1
  | .addr => 2

/-- The command latch line CLE (R71). -/
def Pins.cle (p : Pins) : Bool := decide (p.latch = .cmd)

/-- The address latch line ALE (R71). -/
def Pins.ale (p : Pins) : Bool := decide (p.latch = .addr)

/-- The NCS drives DQ exactly when the direction is WRITE (R152). -/
def Pins.dqDriven (p : Pins) : Bool := decide (p.dir = .write)

/-- LUNS = min(LUN_COUNT, NUM_LUN_MAX) (R79). -/
def Device.luns (d : Device) : Nat := min d.lunCount.toNat Config.numLunMax

end Sys2Proof.Machine
end

