-- ==== Sys2Proof/Machine/Operands.lean ====
section
/-! DEFINITION. Every operand form of the NCS: the cycles a control step sends (spec/42_control_steps.md
R201 to R207), the transfer record and the size of a raw step (spec/43_raw_steps.md R233), the element
layout (spec/20_memory.md R84), and the step entry an instruction is decoded from. -/

namespace Sys2Proof.Machine

/-! ### Cycles and widths -/

/-- The width of control cycles, wc (R148). -/
def Device.controlWidth (d : Device) : Width := if d.addrW16 then .w16 else .w8

/-- The width of raw cycles, wd (R148). -/
def Device.dataWidth (d : Device) : Width := if d.dataW16 then .w16 else .w8

/-- E, the bytes of an element: 1, or 2 with DATA_W16 = 1 (R84). -/
def Width.bytes : Width → Nat
  | .w8 => 1
  | .w16 => 2

/-- The lines a cycle of a width uses: with 8 bits, DQ[15:8] is 0 (R149, R151). -/
def Width.clip (w : Width) (v : Half) : Half :=
  match w with
  | .w8 => v &&& 0x00FF
  | .w16 => v

/-- `abyte(x, j)`: the byte of the j-th cycle of an address, the least significant first, 0 past the
fourth (R203). -/
def abyte (x : Word) (j : Nat) : Byte := if j < 4 then (x >>> (8 * j)).setWidth 8 else 0

/-- The first `n` address bytes of `x` (R202 to R205). -/
def addressBytes (x : Word) (n : Nat) : List Byte := (List.range n).map (abyte x)

/-- The column cycles of an address step (R202, R204). -/
def columnCycles (d : Device) (col : Word) : List Byte := addressBytes col d.colCycles.toNat

/-- The row cycles of an address step (R202, R205). -/
def rowCycles (d : Device) (row : Word) : List Byte := addressBytes row d.rowCycles.toNat

/-- A control cycle carries 8 bits; a 16-bit one has bits 15:8 zero (R207). -/
def controlValues (bs : List Byte) : List Half := bs.map (·.setWidth 16)

/-! ### Steps -/

/-- The instruction a step entry holds (R122). -/
def StepEntry.instr (e : StepEntry) : Instr := decodeStep e.w0 e.w1 e.w2 e.t

/-- The sixteen words of a step entry, in order (R111). -/
def StepEntry.words (e : StepEntry) : List Word :=
  [e.w0, e.w1, e.w2, e.w3, e.t.pre, e.t.lePre, e.t.lePost, e.t.rdy, e.t.rdyOther, e.t.rdyPost, e.t.cycEn,
    e.t.cycDis, e.t.ldPre, e.t.ldPost, e.t.post, e.w15]

/-- The 64 bytes of a step entry, in the order of their addresses (R81, R111). -/
def StepEntry.bytes (e : StepEntry) : List Byte := e.words.flatMap bytesOfWord

/-- The words CUR_W0 to CUR_W2 show of a step entry (R34). -/
def StepEntry.cur (e : StepEntry) : CurWords := ⟨e.w0, e.w1, e.w2⟩

/-- EFF[i] (R60). EFF holds MAX_STEPS entries, so an index below that names one. -/
def EffChain.entry (e : EffChain) (i : Nat) : StepEntry := e.steps.getD i StepEntry.zero

/-! ### Transfer records -/

/-- The transfer record a raw step names, where it exists (R114). -/
def recordIndex (k : BitVec 3) : Option (Fin Config.numXfer) :=
  if h : k.toNat < Config.numXfer then some ⟨k.toNat, h⟩ else none

/-- Change transfer record `k`. -/
def State.setXfer (s : State) (k : Fin Config.numXfer) (f : XferRec → XferRec) : State :=
  { s with xfer := s.xfer.set k (f s.xfer[k]) }

/-- The transfer record a step names: CUR_W1[2:0] of a raw step (R114, R183). -/
def recordNamed : Instr → Option (BitVec 3)
  | .raww k _ => some k
  | .rawr k _ => some k
  | _ => none

/-- UNSET, "may be unset" (R62). -/
def sizeUnset : Word := 0xFFFFFFFF

/-- PAGE, "equal to one full page" (R62). -/
def sizePage : Word := 0xFFFFFFFE

/-- The size a raw step asks for before the page rule: INTENDED_SIZE, or the hint where that is UNSET and
the hint is not 0, or 0 where it is still UNSET (R233). -/
def XferRec.askedSize (x : XferRec) : Word :=
  let sz := if x.intended = sizeUnset ∧ x.hint ≠ 0 then x.hint else x.intended
  if sz = sizeUnset then 0 else sz

/-- `resolve_size` (R233), without its write-back. -/
def resolveSize (d : Device) (x : XferRec) : Word :=
  if x.askedSize = sizePage then d.pageBytes + d.spareBytes.setWidth 32 else x.askedSize

/-- The size resolves from the PAGE sentinel on a 16-bit data bus (R247). -/
def pageOn16Bit (d : Device) (x : XferRec) : Bool := d.dataW16 && decide (x.askedSize = sizePage)

/-- The length of the next chunk, `min(BUF_CAP, INTENDED_SIZE - OFFSET)` (R238). -/
def XferRec.chunk (x : XferRec) : Nat := min x.bufCap.toNat (x.intended.toNat - x.offset.toNat)

/-- The loop condition of `stream` fails: no buffer, or the whole size moved (R237). -/
def XferRec.exhausted (x : XferRec) : Bool :=
  decide (x.bufCap = 0) || decide (x.intended.toNat ≤ x.offset.toNat)

/-- The window offset of element `j` of a buffer (R82, R84). -/
def elemOffset (base : BitVec 16) (w : Width) (j : Nat) : Nat := Config.bufBase + base.toNat + w.bytes * j

/-- `n` elements of the buffer lie inside buffer RAM (R171 check 5c without the alignment). -/
def elemsInside (base : BitVec 16) (w : Width) (n : Nat) : Bool :=
  decide (base.toNat + w.bytes * n ≤ Config.bufBytes)

/-- The bytes of an element, the low byte first (R84, R85). -/
def elemBytes (w : Width) (v : Half) : List Byte :=
  match w with
  | .w8 => [v.setWidth 8]
  | .w16 => [v.setWidth 8, (v >>> 8).setWidth 8]

/-- The elements of a run of bytes (R84, R85); the bytes of a chunk are a whole number of elements. -/
def elemsOfBytes (w : Width) : List Byte → List Half
  | [] => []
  | [b] => [b.setWidth 16]
  | b :: c :: rest =>
    match w with
    | .w8 => b.setWidth 16 :: elemsOfBytes .w8 (c :: rest)
    | .w16 => (c ++ b) :: elemsOfBytes .w16 rest

end Sys2Proof.Machine
end

