-- ==== Sys2Proof/Machine/Ops.lean ====
section
/-! DEFINITION. The named operations every meaning is built from: memory (spec/20_memory.md), time, delays
and the ready wait (spec/40_timing_sync.md R140 to R147), the pin setters and the bus cycles (R148 to
R152), the step loop's bookkeeping (spec/41_chain_run.md R176), and the NCS's two entries to the host, the
end of a run and the hook, with the return from the hook (spec/60_exceptions.md R337 to R339). -/

namespace Sys2Proof.Machine

/-! ### Memory -/

/-- The byte at a window offset, where one has been written since reset (R363). -/
def Memory.read : Memory → Nat → Option Byte
  | [], _ => none
  | (a, b) :: rest, x => if x = a then some b else Memory.read rest x

/-- Store a byte, keeping the offsets strictly rising. -/
def Memory.write : Memory → Nat → Byte → Memory
  | [], x, v => [(x, v)]
  | (a, b) :: rest, x, v =>
    if x < a then (x, v) :: (a, b) :: rest
    else if x = a then (x, v) :: rest
    else (a, b) :: Memory.write rest x v

/-- The one canonical form: offsets strictly rising. An unlisted offset has no value, so no entry can
equal what it reads as. -/
def Memory.wf : Memory → Bool
  | (a, _) :: (b, w) :: rest => decide (a < b) && Memory.wf ((b, w) :: rest)
  | _ => true

/-- A byte of RAM, or the fault of R363. -/
def Memory.byte (m : Memory) (a : Nat) : Except Fault Byte :=
  match m.read a with
  | some b => .ok b
  | none => .error (.unwrittenRam a)

/-- `n` bytes from offset `a` (R12). -/
def Memory.bytes (m : Memory) (a : Nat) : Nat → Except Fault (List Byte)
  | 0 => .ok []
  | n + 1 => do
    let b ← m.byte a
    let bs ← Memory.bytes m (a + 1) n
    .ok (b :: bs)

/-- Store a run of bytes from offset `a` (R12). -/
def Memory.store (m : Memory) (a : Nat) : List Byte → Memory
  | [] => m
  | b :: bs => Memory.store (m.write a b) (a + 1) bs

/-- The 32-bit word at offset `a`, little-endian (R81). -/
def Memory.word (m : Memory) (a : Nat) : Except Fault Word := do
  let b0 ← m.byte a
  let b1 ← m.byte (a + 1)
  let b2 ← m.byte (a + 2)
  let b3 ← m.byte (a + 3)
  .ok (wordOfBytes b0 b1 b2 b3)

/-- A reserved word of a step entry: what the host wrote, or a free value where it wrote nothing (R111;
notes/assumptions/8.md). -/
def Memory.reservedWord (m : Memory) (a : Nat) : Word :=
  match m.word a with
  | .ok w => w
  | .error _ => Config.ramFree a

/-- The window offset of word `w` of descriptor slot `d` (R92). -/
def descOffset (d w : Nat) : Nat := Config.descBase + Config.descStride * d + 4 * w

/-- `step(d, i)`, the sixteen words of step entry `i` of slot `d` (R172). -/
def Memory.stepEntry (m : Memory) (d i : Nat) : Except Fault StepEntry := do
  let at_ := fun j => descOffset d (16 * (i + 1) + j)
  let w0 ← m.word (at_ 0)
  let w1 ← m.word (at_ 1)
  let w2 ← m.word (at_ 2)
  let t0 ← m.word (at_ 4)
  let t1 ← m.word (at_ 5)
  let t2 ← m.word (at_ 6)
  let t3 ← m.word (at_ 7)
  let t4 ← m.word (at_ 8)
  let t5 ← m.word (at_ 9)
  let t6 ← m.word (at_ 10)
  let t7 ← m.word (at_ 11)
  let t8 ← m.word (at_ 12)
  let t9 ← m.word (at_ 13)
  let t10 ← m.word (at_ 14)
  .ok { w0, w1, w2, w3 := m.reservedWord (at_ 3), t := ⟨t0, t1, t2, t3, t4, t5, t6, t7, t8, t9, t10⟩,
        w15 := m.reservedWord (at_ 15) }

/-! ### The outside -/

/-- The lines of the LUNs that exist (R72, R36). -/
def lunMask : Half := BitVec.ofNat 16 (2 ^ Config.numLunMax - 1)

/-- The levels of the ready/busy inputs at the next sample (R345). -/
def Env.drawRb (e : Env) : Half × Env :=
  match e.rb with
  | [] => (Config.rbFree e.draws, { e with draws := e.draws + 1 })
  | [v] => (v, e)
  | v :: w :: rest => (v, { e with rb := w :: rest })

/-- The device's next answer (R105). -/
def Env.drawDq (e : Env) : Half × Env :=
  match e.dq with
  | [] => (Config.dqFree e.draws, { e with draws := e.draws + 1 })
  | v :: rest => (v, { e with dq := rest })

/-- The next latency of the NCS's own (R380). -/
def Env.drawLat (e : Env) : Nat × Env :=
  match e.lat with
  | [] => (Config.latencyFree e.draws, { e with draws := e.draws + 1 })
  | [n] => (n, e)
  | n :: m :: rest => (n, { e with lat := m :: rest })

/-! ### Time -/

/-- TIME_NS_PER_TICK (R7, R140). -/
def Clk.tick (c : Clk) : Nat := c.tickPred + 1

/-- One clock edge: TIME counts (R140), and each ready/busy input moves one stage on (R72). -/
def Clk.edge (c : Clk) : Clk :=
  let r := c.env.drawRb
  { c with time := c.time + BitVec.ofNat 64 c.tick, rbSync := c.rbFirst, rbFirst := r.1 &&& lunMask, env := r.2 }

/-- `n + 1` clock edges at once: the synchronizer ends with the levels of the last two samples, and the
samples before them leave nothing (R72). -/
def Clk.elapse (n : Nat) (c : Clk) : Clk :=
  let r1 := c.env.drawRb
  let r2 := r1.2.drawRb
  { c with
    time := c.time + BitVec.ofNat 64 ((n + 1) * c.tick)
    rbSync := if n = 0 then c.rbFirst else r1.1 &&& lunMask
    rbFirst := r2.1 &&& lunMask
    env := r2.2 }

/-- The clocks between two primitives: at least one, how many is free (R380). -/
def Clk.pass (c : Clk) : Clk :=
  let r := c.env.drawLat
  Clk.elapse r.1 { c with env := r.2 }

/-- `deadline_from(t)` (R142). -/
def deadlineFrom (time : BitVec 64) (t : Word) : BitVec 64 := time + t.setWidth 64

/-- `remaining(d)`: the signed difference, clamped to zero (R143). -/
def remaining (d time : BitVec 64) : Nat := (d - time).toInt.toNat

/-- `Hold(t)`: nothing for t = 0; else the least number of clocks after which `remaining` is 0, and the
NCS's own latency on top of them: "5 clocks or more" (R141, R380). -/
def Clk.hold (t : Word) (c : Clk) : Clk :=
  if t = 0 then c
  else
    let r := c.env.drawLat
    Clk.elapse ((t.toNat - 1) / c.tick + r.1) { c with deadline := deadlineFrom c.time t, env := r.2 }

/-- The loop of `WaitOne`: sample, then check the deadline, then wait one clock (R145). Each clock is at
least 1 ns, so a fuel of t clocks is never used up before the deadline. -/
def Clk.waitLoop (l : Nat) : Nat → Clk → Bool × Clk
  | 0, c => (c.rbSync.getLsbD l, c)
  | fuel + 1, c =>
    if c.rbSync.getLsbD l then (true, c)
    else if remaining c.deadline c.time = 0 then (false, c)
    else Clk.waitLoop l fuel c.edge

/-- The loop of `WaitOne(l, t)` on the deadline `t` sets (R145). -/
def Clk.poll (l : Nat) (t : Word) (c : Clk) : Bool × Clk :=
  Clk.waitLoop l t.toNat { c with deadline := deadlineFrom c.time t }

/-- `WaitOne(l, t)` without its event: true for OK, false for TIMEOUT (R145); and the clocks between it and the
next primitive (R380). -/
def Clk.waitOne (l : Nat) (t : Word) (c : Clk) : Bool × Clk := ((c.poll l t).1, (c.poll l t).2.pass)

/-- Time passes and nothing else happens. -/
def pass (s : State) : State := { s with clk := s.clk.pass }

/-- `Hold(t)`, which records no event (R141). -/
def hold (t : Word) (s : State) : State := { s with clk := s.clk.hold t }

/-- `Delay(t)` (R141): no event and no clock for t = 0. -/
def delay (t : Word) (s : State) : State :=
  { s with trace := if t = 0 then s.trace else .delay t :: s.trace, clk := s.clk.hold t }

/-- `WaitOne(l, t)` (R145). -/
def waitOne (l : Nat) (t : Word) (s : State) : Bool × State :=
  ((s.clk.waitOne l t).1,
    { s with clk := (s.clk.waitOne l t).2, trace := .wait l t (s.clk.waitOne l t).1 :: s.trace })

/-- The waits of the other LUNs, in index order, each with a fresh budget; the first TIMEOUT ends them
(R146, R335). -/
def waitEach (t : Word) : List Nat → State → Bool × State
  | [], s => (true, s)
  | l :: ls, s => if (waitOne l t s).1 then waitEach t ls (waitOne l t s).2 else (false, (waitOne l t s).2)

/-- The LUNs other than the target, in index order (R146). -/
def otherLuns (d : Device) (lun : Nat) : List Nat := (List.range d.luns).filter (fun n => decide (n ≠ lun))

/-- The part of `WaitReady` for the target LUN: a timeout of 0 checks nothing (R146, R154). -/
def waitTarget (lun : Nat) (t : Word) (s : State) : Bool × State := if t = 0 then (true, s) else waitOne lun t s

/-- The part of `WaitReady` for the other LUNs (R146). -/
def waitOthers (lun : Nat) (t : Word) (s : State) : Bool × State :=
  if t = 0 then (true, s) else waitEach t (otherLuns s.dev lun) s

/-- `WaitReady(lun, t_this, t_other)`: true for OK, false for TIMEOUT (R146). -/
def waitReady (lun : Nat) (tThis tOther : Word) (s : State) : Bool × State :=
  if (waitTarget lun tThis s).1 then waitOthers lun tOther (waitTarget lun tThis s).2
  else (false, (waitTarget lun tThis s).2)

/-! ### Pins and bus cycles -/

/-- Bit `l` of a word of lines, set to a level. -/
def setLine (v : Half) (l : Nat) (e : Bool) : Half :=
  if e then v ||| (1#16 <<< l) else v &&& ~~~(1#16 <<< l)

/-- `SetCS(l, e)` (R13, R152). -/
def setCS (l : Nat) (e : Bool) (s : State) : State :=
  { s with pins := { s.pins with cs := setLine s.pins.cs l e }, trace := .cs l e :: s.trace, clk := s.clk.pass }

/-- `SetWP(e)` (R13, R152). -/
def setWP (e : Bool) (s : State) : State :=
  { s with pins := { s.pins with wp := e }, trace := .wp e :: s.trace, clk := s.clk.pass }

/-- `StrobesIdle()` (R13, R152). -/
def setStrobesIdle (s : State) : State :=
  { s with pins := { s.pins with weAct := false, reAct := false }, trace := .strobesIdle :: s.trace
           clk := s.clk.pass }

/-- `SetLatch(m)` (R13, R152). -/
def setLatch (m : Latch) (s : State) : State :=
  { s with pins := { s.pins with latch := m }, trace := .latch m :: s.trace, clk := s.clk.pass }

/-- `SetDir(d)` (R13, R152). -/
def setDir (d : Dir) (s : State) : State :=
  { s with pins := { s.pins with dir := d }, trace := .dir d :: s.trace, clk := s.clk.pass }

/-- The write strobe (R149). -/
def setWE (e : Bool) (s : State) : State := { s with pins := { s.pins with weAct := e } }

/-- The read strobe (R151). -/
def setRE (e : Bool) (s : State) : State := { s with pins := { s.pins with reAct := e } }

/-- Record an event of the bus trace (R150). -/
def record (e : Event) (s : State) : State := { s with trace := e :: s.trace }

/-- BYTES <- (BYTES + 1) mod 2^32, for one cycle (R32, R148). -/
def countCycle (s : State) : State := { s with bytes := s.bytes + 1 }

/-- `BusWrite(w, v)` (R149): drive DQ, WE active for T6 and at least one clock (R381), idle for T7. -/
def busWrite (w : Width) (t : Timing) (v : Half) (s : State) : State :=
  let driven := setWE true { s with pins := { s.pins with dq := w.clip v } }
  let idle := setWE false (pass (hold t.cycEn driven))
  record (.wcyc w (w.clip v)) (hold t.cycDis idle)

/-- The cycles of a step that writes: each adds 1 to BYTES (R200, R237). -/
def sendCycles (w : Width) (t : Timing) : List Half → State → State
  | [], s => s
  | v :: vs, s => sendCycles w t vs (countCycle (busWrite w t v s))

/-- RE active for T6 and at least one clock (R151, R381). -/
def strobeRead (t : Timing) (s : State) : State := pass (hold t.cycEn (setRE true s))

/-- `BusRead(w)` (R151): the value sampled, and the state after the cycle. -/
def busRead (w : Width) (t : Timing) (s : State) : Half × State :=
  let active := strobeRead t s
  let answer := active.clk.env.drawDq
  let idle := setRE false { active with clk := { active.clk with env := answer.2 } }
  (w.clip answer.1, record (.rcyc w (w.clip answer.1)) (hold t.cycDis idle))

/-- `n` read cycles: the values in the order of the cycles; each adds 1 to BYTES (R237). -/
def receiveCycles (w : Width) (t : Timing) : Nat → State → List Half × State
  | 0, s => ([], s)
  | n + 1, s =>
    let r := busRead w t s
    let rest := receiveCycles w t n (countCycle r.2)
    (r.1 :: rest.1, rest.2)

/-! ### The step loop -/

/-- Begin step `i` (R31, R34, R176): STEP is its index, and CUR_W0 to CUR_W2 show its words. Past the
chain's end there is no step to show. -/
def beginStep (i : Nat) (s : State) : State :=
  { s with
    status := { s.status with step := BitVec.ofNat 8 i }
    phase := .begin
    cur := if i < s.effLen.toNat then (s.eff.entry i).cur else s.cur }

/-- The step at STEP is over: the loop goes on to the next index (R178). -/
def nextStep (s : State) : State := beginStep (s.status.step.toNat + 1) s

/-- The step at STEP ended normally: its POST_DELAY, then the next index (R176). -/
def endStep (t : Timing) (s : State) : State := nextStep (delay t.post s)

/-! ### The end of a run: the NCS's trap entry -/

/-- `finish(resp, total)` (R14, R97, R337): RESP says why, BYTES how far, the sequencer is IDLE and DONE
is set, as one update. -/
def finish (resp : Resp) (total : Word) (s : State) : State :=
  { s with
    status := { s.status with resp := resp, done := true }
    bytes := total
    fsm := .idle
    phase := .begin
    trace := .finish resp total :: s.trace
    clk := s.clk.pass }

/-- A run rejected with zero progress: BYTES 0 and STEP 0 (R31, R320). -/
def rejectRun (resp : Resp) (s : State) : State :=
  finish resp 0 { s with status := { s.status with step := 0 } }

/-- `timeout_path(s)` (R209): the latch NEUTRAL, the disable delays, and finish(Timeout, BYTES). -/
def timeoutPath (t : Timing) (s : State) : State :=
  finish .timeout s.bytes (delay t.ldPost (delay t.ldPre (setLatch .neutral s)))

/-! ### The hook: the other entry to the host, and its return -/

/-- The hook enable of a kind (R182). -/
def EffChain.hookEnabled (e : EffChain) : HookKind → Bool
  | .pre => e.pre
  | .post => e.post

/-- Where a step goes on after a hook (R339). -/
def HookKind.resumePhase : HookKind → Phase
  | .pre => .afterPre
  | .post => .afterPost

/-- The entry of an enabled `Hook(kind, raw, chunk)` (R182, R339): the sequencer waits in HOOK_WAIT. -/
def enterHook (kind : HookKind) (raw : Bool) (chunk : Word) (s : State) : State :=
  { s with
    status := { s.status with hookPost := decide (kind = .post), hookRaw := raw }
    fsm := .hookWait
    phase := kind.resumePhase
    trace := .hook kind s.status.step raw chunk :: s.trace
    clk := s.clk.pass }

/-- The hook return (R185): HOOK_PENDING 0, the sequencer RUNNING at the statement after the hook point,
which `phase` names; nothing else changes. -/
def returnFromHook (s : State) : State := { s with fsm := .running }

end Sys2Proof.Machine
end

