-- ==== Sys2Proof/Machine/Control.lean ====
section
/-! DEFINITION. The control steps CMD, ADDR, ADDRC, ADDRR and ADDR1, the hole, and the illegal kind
(spec/42_control_steps.md, spec/30_encoding.md R118). A step runs from `phase`: from its beginning, or from
the statement after the hook it was stopped at (spec/60_exceptions.md R339). -/

namespace Sys2Proof.Machine

/-- The end of a control step, after the post-hook: LD_PRE, the latch NEUTRAL, LD_POST, and the step
loop's POST_DELAY (R200, R176). -/
def controlTail (t : Timing) (s : State) : State :=
  endStep t (delay t.ldPost (setLatch .neutral (delay t.ldPre s)))

/-- The cycles of a control step, after the pre-hook, and its post-hook (R200). -/
def controlCycles (vs : List Half) (t : Timing) (s : State) : State :=
  if s.eff.post then enterHook .post false 0 (sendCycles s.dev.controlWidth t vs (setDir .write s))
  else controlTail t (sendCycles s.dev.controlWidth t vs (setDir .write s))

/-- A control step after its ready wait: READY_POST and the pre-hook (R200). -/
def controlReady (vs : List Half) (t : Timing) (s : State) : State :=
  if s.eff.pre then enterHook .pre false 0 (delay t.rdyPost s) else controlCycles vs t (delay t.rdyPost s)

/-- A control step up to its ready wait: PRE_DELAY, LE_PRE, the latch, LE_POST (R176, R200). -/
def controlLatched (m : Latch) (t : Timing) (s : State) : State :=
  delay t.lePost (setLatch m (delay t.lePre (delay t.pre s)))

/-- The ready wait of a step, `WaitReady(LUN, T3, T4)` (R200, R230). -/
def stepWait (t : Timing) (s : State) : Bool × State := waitReady s.runCfg.lun.toNat t.rdy t.rdyOther s

/-- `control_step` (R200) with the step loop's delays around it (R176): latch mode `m`, cycle values `vs`. -/
def controlStep (m : Latch) (vs : List Half) (t : Timing) (s : State) : State :=
  match s.phase with
  | .begin =>
    if (stepWait t (controlLatched m t s)).1 then controlReady vs t (stepWait t (controlLatched m t s)).2
    else timeoutPath t (stepWait t (controlLatched m t s)).2
  | .afterPre => controlCycles vs t s
  | .afterPost => controlTail t s

/-- CMD: one cycle, the byte, in latch mode CMD (R201). -/
def execCmd (byte : Byte) (t : Timing) (s : State) : Host.Outcome State Fault Refusal :=
  .next (controlStep .cmd (controlValues [byte]) t s)

/-- ADDR: the column cycles, then the row cycles (R202). -/
def execAddr (col row : Word) (t : Timing) (s : State) : Host.Outcome State Fault Refusal :=
  .next (controlStep .addr (controlValues (columnCycles s.dev col ++ rowCycles s.dev row)) t s)

/-- ADDRC: the column cycles (R204). -/
def execAddrc (col : Word) (t : Timing) (s : State) : Host.Outcome State Fault Refusal :=
  .next (controlStep .addr (controlValues (columnCycles s.dev col)) t s)

/-- ADDRR: the row cycles (R205). -/
def execAddrr (row : Word) (t : Timing) (s : State) : Host.Outcome State Fault Refusal :=
  .next (controlStep .addr (controlValues (rowCycles s.dev row)) t s)

/-- ADDR1: one cycle, the byte, in latch mode ADDR, whatever GEO_CYCLES holds (R206). -/
def execAddr1 (byte : Byte) (t : Timing) (s : State) : Host.Outcome State Fault Refusal :=
  .next (controlStep .addr (controlValues [byte]) t s)

/-- HOLE: "no delay, no hook, no bus event"; the loop goes on (R177, R214). -/
def execHole (s : State) : Host.Outcome State Fault Refusal := .next (nextStep s)

/-- A defined step of KIND 7: the run finishes (0, CmdInvalid) (R118). Validation finds it at START (R171);
this is its meaning where a step of that kind is met. -/
def execIllegalKind7 (s : State) : Host.Outcome State Fault Refusal := .next (rejectRun .cmdInvalid s)

end Sys2Proof.Machine
end

