-- ==== Sys2Proof/Machine/IdDecoder.lean ====
section
/-! DEFINITION. The decoder unit's common rules and its byte-sequence operations DDRCHK, DDRFOLD, PATLEN and
IDEXT (spec/44_id_decoder.md). An operation completes inside the DEC_CTRL write and takes an unfixed time
(R266, R380). -/

namespace Sys2Proof.Machine

/-! ### The operations on bytes -/

/-- Every pair of a run of bytes is a byte and its equal; an odd last byte is not compared (R261). -/
def pairsEqual : List Byte → Bool
  | a :: b :: rest => decide (a = b) && pairsEqual rest
  | _ => true

/-- `ddr(B, N)` (R261). -/
def isDdr (bs : List Byte) : Bool := !bs.isEmpty && pairsEqual bs

/-- Every even-indexed byte (R262). -/
def evenBytes : List Byte → List Byte
  | [] => []
  | [a] => [a]
  | a :: _ :: rest => a :: evenBytes rest

/-- The fold with a filler (R262). -/
def foldDdr (filler : Byte) (bs : List Byte) : List Byte :=
  evenBytes bs ++ List.replicate (bs.length - (evenBytes bs).length) filler

/-- Tiling the first `p` bytes across the rest matches (R263). -/
def tiles (bs : List Byte) (p : Nat) : Bool :=
  (List.range bs.length).all (fun j => decide (j < p) || decide (bs[j]? = bs[j % p]?))

/-- The loop of `patlen` from candidate `p`; N candidates are enough (R263). -/
def patlenFrom (bs : List Byte) : Nat → Nat → Nat
  | 0, _ => bs.length
  | fuel + 1, p =>
    if bs.length ≤ p then bs.length
    else if tiles bs p then p
    else patlenFrom bs fuel (p + 1)

/-- `patlen(B, N, m)` (R263). -/
def patlen (bs : List Byte) (m : Nat) : Nat := patlenFrom bs bs.length (max m 1)

/-- What IDEXT measures: the operand, folded with filler 0 and cut to N1 = ⌈N/2⌉ where it is DDR (R264). -/
def idCandidate (bs : List Byte) : List Byte := if isDdr bs then evenBytes bs else bs

/-- L, the length IDEXT finds; the minimum period is 4 (R264, R265). -/
def idLength (bs : List Byte) : Nat := patlen (idCandidate bs) 4

/-- What IDEXT leaves in the operand: the first L bytes, and 0x00 up to N (R264). -/
def idBytes (bs : List Byte) : List Byte :=
  (idCandidate bs).take (idLength bs) ++ List.replicate (bs.length - idLength bs) 0

/-- Bytes `i` to `i + 3` as a register word, 0 past the end (R50, R264). -/
def wordAt (bs : List Byte) (i : Nat) : Word :=
  wordOfBytes (bs.getD i 0) (bs.getD (i + 1) 0) (bs.getD (i + 2) 0) (bs.getD (i + 3) 0)

/-! ### The unit -/

/-- The window offset of the operand (R82, R267). -/
def State.operandAt (s : State) : Nat := Config.bufBase + s.dec.src.toNat

/-- The refusals common to every operation (R260): a run exists, or the operand passes the end of buffer
RAM. -/
def State.decRefused (s : State) : Bool :=
  s.busy || decide (Config.bufBytes < s.dec.src.toNat + s.dec.len.toNat)

/-- A refused operation: ERR 1, DEC_RESULT 0, LAST_OP, and nothing else (R260). -/
def refuseOp (op : BitVec 3) (s : State) : State :=
  pass { s with dec := { s.dec with lastOp := op, err := true, result := 0 } }

/-- What every performed operation writes: ERR 0, LAST_OP and DEC_RESULT (R260). -/
def completeOp (op : BitVec 3) (result : Word) (s : State) : State :=
  pass { s with dec := { s.dec with lastOp := op, err := false, result := result } }

/-- Go on with `n` bytes of buffer RAM from offset `at_`, or fault where one was never written (R363). -/
def withBytes (s : State) (at_ n : Nat) (k : List Byte → State) : Host.Outcome State Fault Refusal :=
  match s.mem.bytes at_ n with
  | .ok bs => .next (k bs)
  | .error f => .fault f

/-- Go on with the whole operand B[0] to B[N-1]: "It reads the operand bytes as they stand" (R260). -/
def withOperand (s : State) (k : List Byte → State) : Host.Outcome State Fault Refusal :=
  withBytes s s.operandAt s.dec.len.toNat k

/-- The operand replaced by as many other bytes. -/
def storeOperand (bs : List Byte) (s : State) : State := { s with mem := s.mem.store s.operandAt bs }

/-- Where IDEXT's length and first eight bytes go (R264). -/
def storeId (dest : Bool) (len : Nat) (bs : List Byte) (s : State) : State :=
  { s with dev :=
      if dest then
        { s.dev with sigLen := BitVec.ofNat 8 (min len 255), sigBytes0 := wordAt bs 0, sigBytes1 := wordAt bs 4 }
      else
        { s.dev with idLen := BitVec.ofNat 8 (min len 255), idBytes0 := wordAt bs 0, idBytes1 := wordAt bs 4 } }

/-- DEC_CTRL with OP 0: refused (R260). -/
def execDecRsvd0 (s : State) : Host.Outcome State Fault Refusal := .next (refuseOp 0 s)

/-- DEC_CTRL with OP 7: refused (R260). -/
def execDecRsvd7 (s : State) : Host.Outcome State Fault Refusal := .next (refuseOp 7 s)

/-- DDRCHK (R261). -/
def execDdrchk (s : State) : Host.Outcome State Fault Refusal :=
  if s.decRefused then .next (refuseOp 1 s)
  else withOperand s (fun bs => completeOp 1 (ofBit 32 (isDdr bs)) s)

/-- DDRFOLD (R262). -/
def execDdrfold (filler : Byte) (s : State) : Host.Outcome State Fault Refusal :=
  if s.decRefused then .next (refuseOp 2 s)
  else withOperand s (fun bs =>
    completeOp 2 (BitVec.ofNat 32 (evenBytes bs).length) (storeOperand (foldDdr filler bs) s))

/-- PATLEN (R263). -/
def execPatlen (minPeriod : Byte) (s : State) : Host.Outcome State Fault Refusal :=
  if s.decRefused then .next (refuseOp 3 s)
  else withOperand s (fun bs => completeOp 3 (BitVec.ofNat 32 (patlen bs minPeriod.toNat)) s)

/-- IDEXT (R264): refused also while INIT_DONE = 1 (R260). -/
def execIdext (dest : Bool) (s : State) : Host.Outcome State Fault Refusal :=
  if s.decRefused || s.dev.initDone then .next (refuseOp 4 s)
  else withOperand s (fun bs =>
    completeOp 4 (BitVec.ofNat 32 (idLength bs)) (storeId dest (idLength bs) (idBytes bs) (storeOperand (idBytes bs) s)))

end Sys2Proof.Machine
end

