-- ==== Sys2Proof/Machine/Onfi.lean ====
section
/-! DEFINITION. The decoder unit's table-driven operations ONFIDEC and VIDDEC (spec/45_onfi_vendor.md). The
offsets, the CRC and the vendor tables are the ones R290, R293 and R300 state; the spec marks them as general
knowledge (spec/93_implementation_defined.md G3 to G7; notes/assumptions/16.md). -/

namespace Sys2Proof.Machine

/-! ### ONFIDEC -/

/-- Byte `o` of a parameter page. -/
def pageByte (page : List Byte) (o : Nat) : Byte := page.getD o 0

/-- `le(o, 2)` (R86, R290). -/
def pageHalf (page : List Byte) (o : Nat) : Half := pageByte page (o + 1) ++ pageByte page o

/-- `le(o, 4)` (R86, R290). -/
def pageWord (page : List Byte) (o : Nat) : Word :=
  wordOfBytes (pageByte page o) (pageByte page (o + 1)) (pageByte page (o + 2)) (pageByte page (o + 3))

/-- One bit of the CRC register (R293). -/
def crcBit (c : Half) : Half := if c.getLsbD 15 then (c <<< 1) ^^^ 0x8005 else c <<< 1

/-- `n` bits of the CRC register (R293). -/
def crcBits : Nat → Half → Half
  | 0, c => c
  | n + 1, c => crcBits n (crcBit c)

/-- One byte of the CRC (R293). -/
def crcByte (c : Half) (b : Byte) : Half := crcBits 8 (c ^^^ (b.setWidth 16 <<< 8))

/-- `crc16(bytes)` (R293). -/
def crc16 (bs : List Byte) : Half := bs.foldl crcByte 0x4F4E

/-- The page begins with "ONFI" (R290). -/
def pageSigOk (page : List Byte) : Bool := page.take 4 == [0x4F, 0x4E, 0x46, 0x49]

/-- CRC_CALC, over bytes 0 to 253 (R290, R293). -/
def pageCrc (page : List Byte) : Half := crc16 (page.take 254)

/-- The CRC of the page matches the one stored in it (R290). -/
def pageCrcOk (page : List Byte) : Bool := decide (pageCrc page = pageHalf page 254)

/-- The seven GEO registers from the page (R290 to R292). -/
def pageDevice (page : List Byte) (d : Device) : Device :=
  { d with
    pageBytes := pageWord page 80
    spareBytes := pageHalf page 84
    pagesPerBlock := pageWord page 92
    blocksPerLun := pageWord page 96
    lunCount := pageByte page 100
    rowCycles := (pageByte page 101).extractLsb' 0 4
    colCycles := (pageByte page 101).extractLsb' 4 4
    bitsPerCell := pageByte page 102
    badBlocks := pageHalf page 103
    programsPerPage := pageByte page 110 }

/-- ONFI_REV_FEAT, ONFI_TIMING and ONFI_CHECK from the page (R290). -/
def pageOnfi (page : List Byte) : OnfiRegs :=
  { revision := pageHalf page 4
    features := pageHalf page 6
    timingModes := pageHalf page 129
    crcStored := pageHalf page 254
    sigOk := pageSigOk page
    crcOk := pageCrcOk page
    crcCalc := pageCrc page }

/-- ONFIDEC's result: SIG_OK in bit 0, CRC_OK in bit 1 (R290). -/
def pageResult (page : List Byte) : Word := ofBit 32 (pageSigOk page) ||| (ofBit 32 (pageCrcOk page) <<< 1)

/-- ONFIDEC (R290): refused also while INIT_DONE = 1 or with N < 256 (R260); bytes past 255 are ignored. -/
def execOnfidec (s : State) : Host.Outcome State Fault Refusal :=
  if s.decRefused || s.dev.initDone || decide (s.dec.len.toNat < 256) then .next (refuseOp 5 s)
  else withBytes s s.operandAt 256 (fun page =>
    completeOp 5 (pageResult page) { s with dev := pageDevice page s.dev, onfi := pageOnfi page })

/-! ### VIDDEC -/

/-- Bits `lo + n - 1 : lo` of an ID byte, as a number. -/
def idField (b : Byte) (lo n : Nat) : Nat := (b.extractLsb' lo n).toNat

/-- block_bytes, 65536 << B[3][5:4] (R300). -/
def vidBlockBytes (b3 : Byte) : Nat := 65536 <<< idField b3 4 2

/-- plane_bytes, 8388608 << B[4][6:4] (R300). -/
def vidPlaneBytes (b4 : Byte) : Nat := 8388608 <<< idField b4 4 3

/-- VID0 to VID3 from bytes 2, 3 and 4 of an ID (R300, R302). -/
def vidRegs (b2 b3 b4 : Byte) : VidRegs :=
  { chips := BitVec.ofNat 8 (1 <<< idField b2 0 2)
    cellLevels := BitVec.ofNat 8 (2 <<< idField b2 2 2)
    simPages := BitVec.ofNat 8 (1 <<< idField b2 4 2)
    interleave := b2.getLsbD 6
    cacheProg := b2.getLsbD 7
    pageBytes := BitVec.ofNat 32 (1024 <<< idField b3 0 2)
    blockBytes := BitVec.ofNat 32 (vidBlockBytes b3)
    busWidth := if b3.getLsbD 6 then 16 else 8
    planes := BitVec.ofNat 8 (1 <<< idField b4 2 2)
    blocksPerPlane := BitVec.ofNat 16 (vidPlaneBytes b4 / vidBlockBytes b3) }

/-- VIDDEC (R300): refused also with N < 5 (R260); it reads only B[2], B[3] and B[4], and writes no GEO
register (R301). -/
def execViddec (s : State) : Host.Outcome State Fault Refusal :=
  if s.decRefused || decide (s.dec.len.toNat < 5) then .next (refuseOp 6 s)
  else withBytes s (s.operandAt + 2) 3 (fun bs =>
    completeOp 6 1 { s with vid := vidRegs (bs.getD 0 0) (bs.getD 1 0) (bs.getD 2 0) })

end Sys2Proof.Machine
end

