-- ==== Sys2Proof/Machine/Raw.lean ====
section
/-! DEFINITION. The raw steps RAWW and RAWR and the streaming loop (spec/43_raw_steps.md). -/

namespace Sys2Proof.Machine

/-- Where a raw step stops: why, and the state it has brought about by then, which a RESET still to come would have
cut short (R361). -/
structure Halt where
  /-- The fault or the refusal. -/
  why : Fault ⊕ Refusal
  /-- The step's own state just before it. -/
  reached : State
  deriving DecidableEq, Repr

/-- The bytes of `n` elements of a buffer (R84), or the fault of reading what was never written (R363). -/
def readElems (m : Memory) (base : BitVec 16) (w : Width) (n : Nat) : Except Fault (List Half) :=
  match m.bytes (elemOffset base w 0) (w.bytes * n) with
  | .ok bs => .ok (elemsOfBytes w bs)
  | .error f => .error f

/-- Store elements from element 0 of a buffer (R84, R232). -/
def storeElems (m : Memory) (base : BitVec 16) (w : Width) (vs : List Half) : Memory :=
  m.store (elemOffset base w 0) (vs.flatMap (elemBytes w))

/-- `XFER[k].OFFSET <- XFER[k].OFFSET + chunk` (R237). -/
def advanceOffset (k : Fin Config.numXfer) (chunk : Nat) (s : State) : State :=
  s.setXfer k (fun x => { x with offset := x.offset + BitVec.ofNat 32 chunk })

/-- `XFER[k].CHUNK_SEQ <- XFER[k].CHUNK_SEQ + 1` (R237). -/
def bumpSeq (k : Fin Config.numXfer) (s : State) : State :=
  s.setXfer k (fun x => { x with chunkSeq := x.chunkSeq + 1 })

/-- The chunk of a RAWR step (R232, R237): the cycles fill the elements from 0, LAST_CHUNK is the chunk's
length, and OFFSET advances. -/
def readChunk (k : Fin Config.numXfer) (t : Timing) (s : State) : State :=
  let chunk := s.xfer[k].chunk
  let got := receiveCycles s.dev.dataWidth t chunk (setDir .read s)
  let stored := { got.2 with mem := storeElems got.2.mem s.xfer[k].bufBase s.dev.dataWidth got.1 }
  advanceOffset k chunk (stored.setXfer k (fun x => { x with lastChunk := BitVec.ofNat 32 chunk }))

/-- The elements of a buffer from element `j`, as far as all their bytes were written, and `n` at most. -/
def writtenElems (m : Memory) (base : BitVec 16) (w : Width) (j : Nat) : Nat → List Half
  | 0 => []
  | n + 1 =>
    match m.bytes (elemOffset base w j) w.bytes with
    | .ok bs => elemsOfBytes w bs ++ writtenElems m base w (j + 1) n
    | .error _ => []

/-- The chunk of a RAWW step (R231, R237): the elements from 0 go out, and OFFSET advances. Element j is read for
cycle j (R244), so an unwritten byte stops the step once the elements before it have gone out. -/
def writeChunk (k : Fin Config.numXfer) (t : Timing) (s : State) : Except Halt State :=
  match readElems s.mem s.xfer[k].bufBase s.dev.dataWidth s.xfer[k].chunk with
  | .ok vs => .ok (advanceOffset k s.xfer[k].chunk (sendCycles s.dev.dataWidth t vs (setDir .write s)))
  | .error f =>
    let sent := writtenElems s.mem s.xfer[k].bufBase s.dev.dataWidth 0 s.xfer[k].chunk
    .error ⟨.inl f, sendCycles s.dev.dataWidth t sent (setDir .write s)⟩

/-- One chunk in the step's direction. Validation keeps every element inside buffer RAM (R171, R244). -/
def moveChunk (d : Dir) (k : Fin Config.numXfer) (t : Timing) (s : State) : Except Halt State :=
  if elemsInside s.xfer[k].bufBase s.dev.dataWidth s.xfer[k].chunk then
    match d with
    | .write => writeChunk k t s
    | .read => .ok (readChunk k t s)
  else .error ⟨.inl .elementOutsideBuffer, s⟩

/-- The loop body after its pre-hook point (R237): the size is read again and the loop may end (R239);
else the chunk, the post-hook point, CHUNK_SEQ + 1 and the next iteration `again`. -/
def chunkBody (again : State → Except Halt State) (d : Dir) (k : Fin Config.numXfer) (t : Timing) (s : State) :
    Except Halt State :=
  if s.xfer[k].intended.toNat ≤ s.xfer[k].offset.toNat then .ok (endStep t s)
  else
    match moveChunk d k t s with
    | .error h => .error h
    | .ok moved =>
      if moved.eff.post then .ok (enterHook .post true moved.xfer[k].chunkSeq moved) else again (bumpSeq k moved)

/-- `stream(k, s)` (R237) with the step's end after it. Each iteration moves at least one element, so a
fuel of INTENDED_SIZE + 1 iterations is never used up. -/
def stream (d : Dir) (k : Fin Config.numXfer) (t : Timing) : Nat → State → Except Halt State
  | 0, s => .ok (endStep t s)
  | fuel + 1, s =>
    if s.xfer[k].exhausted then .ok (endStep t s)
    else if s.eff.pre then .ok (enterHook .pre true s.xfer[k].chunkSeq s)
    else chunkBody (fun s' => stream d k t fuel s') d k t s

/-- The loop from its condition on. -/
def streamFrom (d : Dir) (k : Fin Config.numXfer) (t : Timing) (s : State) : Except Halt State :=
  stream d k t (s.xfer[k].intended.toNat + 1) s

/-- The size of a raw step, resolved and written back (R233). -/
def rawSized (k : Fin Config.numXfer) (s : State) : State :=
  s.setXfer k (fun x => { x with intended := resolveSize s.dev x })

/-- The cursors set to 0 (R235). -/
def rawCursors (k : Fin Config.numXfer) (s : State) : State :=
  s.setXfer k (fun x => { x with offset := 0, chunkSeq := 0 })

/-- A raw step's PRE_DELAY and its transfer record named in HOOK_XFER (R176, R230). -/
def rawEntered (k : Fin Config.numXfer) (t : Timing) (s : State) : State :=
  { delay t.pre s with hookXfer := BitVec.ofNat 3 k.val }

/-- A raw step of non-zero size up to its ready wait: cursors, LE_PRE, the latch NEUTRAL, LE_POST (R230). -/
def rawLatched (k : Fin Config.numXfer) (t : Timing) (s : State) : State :=
  delay t.lePost (setLatch .neutral (delay t.lePre (rawCursors k s)))

/-- A raw step's result as an outcome of the step. -/
def outcomeOf : Except Halt State → Host.Outcome State Fault Refusal
  | .ok s => .next s
  | .error ⟨.inl f, _⟩ => .fault f
  | .error ⟨.inr r, _⟩ => .refused r

/-- `raw_step` (R230) with the step loop's delays around it (R176), for a record that exists. A size of 0
makes the step a no-op (R234); where PAGE resolves on a 16-bit bus, after PRE_DELAY, a model refuses (R247). -/
def rawRun (d : Dir) (k : Fin Config.numXfer) (t : Timing) (s : State) : Except Halt State :=
  match s.phase with
  | .begin =>
    if pageOn16Bit s.dev s.xfer[k] then .error ⟨.inr .pageSizeOn16BitBus, rawEntered k t s⟩
    else
      let sized := rawSized k (rawEntered k t s)
      if sized.xfer[k].intended = 0 then .ok (endStep t sized)
      else
        let waited := stepWait t (rawLatched k t sized)
        if waited.1 then streamFrom d k t (delay t.rdyPost waited.2)
        else .ok (timeoutPath t waited.2)
  | .afterPre => chunkBody (streamFrom d k t) d k t s
  | .afterPost => streamFrom d k t (bumpSeq k s)

/-- The outcome of a raw step (R230). -/
def rawStep (d : Dir) (k : Fin Config.numXfer) (t : Timing) (s : State) : Host.Outcome State Fault Refusal :=
  outcomeOf (rawRun d k t s)

/-- The state a raw step has brought about where it stops; none for one that does not stop. -/
def rawHaltedAt (d : Dir) (k : Fin Config.numXfer) (t : Timing) (s : State) : Option State :=
  match rawRun d k t s with
  | .ok _ => none
  | .error h => some h.reached

/-- RAWW: the record's buffer goes out to the device (R231). A record that does not exist makes the run
finish CmdInvalid (R118); validation finds it at START (R171). -/
def execRaww (xfer : BitVec 3) (t : Timing) (s : State) : Host.Outcome State Fault Refusal :=
  match recordIndex xfer with
  | some k => rawStep .write k t s
  | none => .next (rejectRun .cmdInvalid s)

/-- RAWR: the device's answers come into the record's buffer (R232). A record that does not exist makes the
run finish CmdInvalid (R118); validation finds it at START (R171). -/
def execRawr (xfer : BitVec 3) (t : Timing) (s : State) : Host.Outcome State Fault Refusal :=
  match recordIndex xfer with
  | some k => rawStep .read k t s
  | none => .next (rejectRun .cmdInvalid s)

end Sys2Proof.Machine
end

