-- ==== Sys2Proof/Machine/Run.lean ====
section
/-! DEFINITION. The CTRL commands: START with validation, the merge and the set-up
(spec/41_chain_run.md R170 to R175), HOOK_ACK (R185) and DONE_CLR (spec/10_state.md R26); and the end of
the step loop (R176, R179). -/

namespace Sys2Proof.Machine

/-! ### Descriptor headers (R110) -/

/-- Header word 0 of slot `d` (R110). -/
def Memory.header (m : Memory) (d : Nat) : Except Fault Word := m.word (descOffset d 0)
/-- LENGTH, bits 7:0 (R110). -/
def headerLength (h : Word) : Nat := (h.extractLsb' 0 8).toNat
/-- PRE_HOOK, bit 8 (R110). -/
def headerPre (h : Word) : Bool := h.getLsbD 8
/-- POST_HOOK, bit 9 (R110). -/
def headerPost (h : Word) : Bool := h.getLsbD 9
/-- VALID, bit 31 (R110). -/
def headerValid (h : Word) : Bool := h.getLsbD 31

/-! ### The merge (R172) -/

/-- The two descriptors of a run: the template's and the override's slot and header. Without an override
the override's header counts as 0: no step and no hook. -/
structure RunPlan where
  template : Nat
  th : Word
  overrideEn : Bool
  override : Nat
  oh : Word
deriving DecidableEq, Repr

/-- eff_len (R172). -/
def RunPlan.length (p : RunPlan) : Nat :=
  if p.overrideEn then max (headerLength p.th) (headerLength p.oh) else headerLength p.th

/-- EFF_PRE (R172). -/
def RunPlan.preHook (p : RunPlan) : Bool := headerPre p.th || (p.overrideEn && headerPre p.oh)

/-- EFF_POST (R172). -/
def RunPlan.postHook (p : RunPlan) : Bool := headerPost p.th || (p.overrideEn && headerPost p.oh)

/-- A descriptor's step at an index: ZERO_ENTRY at or past its LENGTH (R172). -/
def stepOrZero (m : Memory) (slot len i : Nat) : Except Fault StepEntry :=
  if i < len then m.stepEntry slot i else .ok StepEntry.zero

/-- Which of the two entries the merge takes at index `i` (R172). -/
def RunPlan.choose (p : RunPlan) (i : Nat) (te oe : StepEntry) : StepEntry :=
  if p.overrideEn && (definedOf oe.w0 || decide (headerLength p.th ≤ i)) then oe else te

/-- EFF[i] (R172). -/
def mergeEntry (m : Memory) (p : RunPlan) (i : Nat) : Except Fault StepEntry := do
  let te ← stepOrZero m p.template (headerLength p.th) i
  let oe ← if p.overrideEn then stepOrZero m p.override (headerLength p.oh) i else .ok StepEntry.zero
  .ok (p.choose i te oe)

/-- EFF[i] to EFF[i + n - 1] (R172). -/
def mergeFrom (m : Memory) (p : RunPlan) (i : Nat) : Nat → Except Fault (List StepEntry)
  | 0 => .ok []
  | n + 1 => do
    let e ← mergeEntry m p i
    let es ← mergeFrom m p (i + 1) n
    .ok (e :: es)

/-! ### Validation (R171) -/

/-- Check 5c: the record's buffer lies inside buffer RAM, and is even on a 16-bit bus (R171). -/
def bufferFits (d : Device) (x : XferRec) : Bool :=
  elemsInside x.bufBase d.dataWidth x.bufCap.toNat && !(d.dataW16 && x.bufBase.getLsbD 0)

/-- A raw step's record exists and its buffer fits (checks 5b and 5c of R171). -/
def recordFits (d : Device) (xs : Vector XferRec Config.numXfer) (k : BitVec 3) : Bool :=
  match recordIndex k with
  | some i => bufferFits d xs[i]
  | none => false

/-- Check 5 of R171 for one step of the effective chain; a hole is never validated (R117). -/
def stepAcceptable (d : Device) (xs : Vector XferRec Config.numXfer) (e : StepEntry) : Bool :=
  match e.instr with
  | .illegalKind7 => false
  | .raww k _ => recordFits d xs k
  | .rawr k _ => recordFits d xs k
  | _ => true

/-- Checks 1 and 2 of R171: the headers of the template and of the override, or `none` for CmdInvalid. -/
def findPlan (m : Memory) (c : RunCfg) : Except Fault (Option RunPlan) :=
  if Config.numDesc ≤ c.template.toNat then .ok none
  else do
    let th ← m.header c.template.toNat
    if headerValid th = false then .ok none
    else if c.overrideEn = false then .ok (some ⟨c.template.toNat, th, false, c.override.toNat, 0⟩)
    else if Config.numDesc ≤ c.override.toNat then .ok none
    else do
      let oh ← m.header c.override.toNat
      if headerValid oh = false then .ok none
      else .ok (some ⟨c.template.toNat, th, true, c.override.toNat, oh⟩)

/-- EFF filled with the merged chain; entries past it keep what they held (R60, R171). -/
def fillEff (p : RunPlan) (chain : List StepEntry) (e : EffChain) : EffChain :=
  { steps := chain ++ e.steps.drop chain.length, pre := p.preHook, post := p.postHook }

/-- Check 5 of R171 on a state whose EFF is filled. -/
def validateChain (p : RunPlan) (chain : List StepEntry) (s : State) : Option Resp × State :=
  (if chain.all (stepAcceptable s.dev s.xfer) then none else some .cmdInvalid,
    { s with eff := fillEff p chain s.eff })

/-- Checks 3 to 5 of R171, with EFF_LEN written and EFF filled on the way. -/
def mergeAndCheck (p : RunPlan) (s : State) : Except Fault (Option Resp × State) :=
  let sized := { s with effLen := BitVec.ofNat 8 p.length }
  if Config.maxSteps < p.length then .ok (some .chainTooLong, sized)
  else if s.dev.luns ≤ s.runCfg.lun.toNat then .ok (some .cmdInvalid, sized)
  else do
    let chain ← mergeFrom s.mem p 0 p.length
    .ok (validateChain p chain sized)

/-- `validate_and_merge()` (R171, R172): the response of the first check that fails, or none. -/
def validateAndMerge (s : State) : Except Fault (Option Resp × State) := do
  let plan ← findPlan s.mem s.runCfg
  match plan with
  | none => .ok (some .cmdInvalid, s)
  | some p => mergeAndCheck p s

/-! ### START, HOOK_ACK, DONE_CLR -/

/-- The flags and counters an accepted START sets before it validates (R170). -/
def beginRun (s : State) : State :=
  { s with
    status := { s.status with done := false, resp := .ok, step := 0 }
    bytes := 0
    effLen := 0
    fsm := .running
    phase := .begin }

/-- `setup()` (R175): chip select of the target LUN, write protect off, the strobes idle. -/
def setupPins (s : State) : State := setStrobesIdle (setWP false (setCS s.runCfg.lun.toNat true s))

/-- The set-up, and the step loop at its first index (R175, R176). -/
def enterLoop (s : State) : State := beginStep 0 (setupPins (pass s))

/-- START (R170): ignored while BUSY; else the run begins, is validated, and either finishes with zero
progress or enters the step loop. -/
def execStart (s : State) : Host.Outcome State Fault Refusal :=
  if s.busy then .next s
  else
    match validateAndMerge (beginRun s) with
    | .error f => .fault f
    | .ok (some r, s') => .next (rejectRun r s')
    | .ok (none, s') => .next (enterLoop s')

/-- HOOK_ACK (R185): resumes a pending hook; otherwise ignored and not remembered. -/
def execHookAck (s : State) : Host.Outcome State Fault Refusal :=
  if s.hookPending then .next (returnFromHook s) else .next s

/-- DONE_CLR (R26): clears DONE while BUSY = 0; otherwise ignored. -/
def execDoneClr (s : State) : Host.Outcome State Fault Refusal :=
  if s.busy then .next s else .next { s with status := { s.status with done := false } }

/-- The end of the step loop (R176, R179): chip select of the target LUN off, finish(Ok, BYTES). -/
def endRun (s : State) : State := finish .ok s.bytes (setCS s.runCfg.lun.toNat false s)

end Sys2Proof.Machine
end

