-- ==== Sys2Proof/Machine/Dispatch.lean ====
section
/-! DEFINITION. The meaning of every instruction: one arm per row of spec/opcode_table.json. -/

namespace Sys2Proof.Machine

def exec (i : Instr) (s : State) : Host.Outcome State Fault Refusal :=
  match i with
  | .cmd byte t => Sys2Proof.Machine.execCmd byte t s
  | .addr col row t => Sys2Proof.Machine.execAddr col row t s
  | .addrc col t => Sys2Proof.Machine.execAddrc col t s
  | .addrr row t => Sys2Proof.Machine.execAddrr row t s
  | .addr1 byte t => Sys2Proof.Machine.execAddr1 byte t s
  | .raww xfer t => Sys2Proof.Machine.execRaww xfer t s
  | .rawr xfer t => Sys2Proof.Machine.execRawr xfer t s
  | .illegalKind7 => Sys2Proof.Machine.execIllegalKind7 s
  | .hole => Sys2Proof.Machine.execHole s
  | .decRsvd0 => Sys2Proof.Machine.execDecRsvd0 s
  | .ddrchk => Sys2Proof.Machine.execDdrchk s
  | .ddrfold filler => Sys2Proof.Machine.execDdrfold filler s
  | .patlen minPeriod => Sys2Proof.Machine.execPatlen minPeriod s
  | .idext dest => Sys2Proof.Machine.execIdext dest s
  | .onfidec => Sys2Proof.Machine.execOnfidec s
  | .viddec => Sys2Proof.Machine.execViddec s
  | .decRsvd7 => Sys2Proof.Machine.execDecRsvd7 s
  | .start => Sys2Proof.Machine.execStart s
  | .hookAck => Sys2Proof.Machine.execHookAck s
  | .doneClr => Sys2Proof.Machine.execDoneClr s

end Sys2Proof.Machine
end

