-- ==== Sys2Proof/Machine/HostPort.lean ====
section
/-! DEFINITION. The host's window: the register map and the access codes (spec/10_state.md R22 to R59, R74,
R75, R78), descriptor RAM and buffer RAM as the host sees them (R69, R70, R76, spec/20_memory.md), and what a
read and a write of the window do. -/

namespace Sys2Proof.Machine

/-! ### The register map (R22) -/

/-- The fields of a transfer record (R61). -/
inductive XferField
  | intended | hint | bufBase | bufCap | offset | chunkSeq | lastChunk
deriving DecidableEq, Repr

/-- The registers of the map (R22). -/
inductive Reg
  | ncsId | ncsParam | ctrl | status | irqEn | runCfg | bytes | effLen | curW0 | curW1 | curW2
  | pinCtrl | pinStatus | timeLo | timeHi
  | devCfg | devState | geoPageBytes | geoSpareBytes | geoPagesPerBlock | geoBlocksPerLun | geoCycles | geoMisc
  | geoBadBlocks | idInfo | idBytes0 | idBytes1 | sigBytes0 | sigBytes1
  | onfiRevFeat | onfiTiming | onfiCheck
  | decCtrl | decSrc | decLen | decStatus | decResult | vid0 | vid1 | vid2 | vid3
  | xfer (k : Fin Config.numXfer) (f : XferField)
deriving DecidableEq, Repr

/-- The access codes (R23). -/
inductive AccessCode
  | ro | wo | rw | rwi | rwl
deriving DecidableEq, Repr

/-- The registers below the transfer records, by window offset (R22). -/
def regMap : List (Nat × Reg) :=
  [(0x000, .ncsId), (0x004, .ncsParam), (0x008, .ctrl), (0x00C, .status), (0x010, .irqEn), (0x014, .runCfg),
   (0x018, .bytes), (0x01C, .effLen), (0x020, .curW0), (0x024, .curW1), (0x028, .curW2), (0x030, .pinCtrl),
   (0x034, .pinStatus), (0x038, .timeLo), (0x03C, .timeHi)] ++
  [(0x040, .devCfg), (0x044, .devState), (0x048, .geoPageBytes), (0x04C, .geoSpareBytes),
   (0x050, .geoPagesPerBlock), (0x054, .geoBlocksPerLun), (0x058, .geoCycles), (0x05C, .geoMisc),
   (0x060, .geoBadBlocks), (0x064, .idInfo), (0x068, .idBytes0), (0x06C, .idBytes1), (0x070, .sigBytes0),
   (0x074, .sigBytes1)] ++
  [(0x078, .onfiRevFeat), (0x07C, .onfiTiming), (0x080, .onfiCheck), (0x090, .decCtrl), (0x094, .decSrc),
   (0x098, .decLen), (0x09C, .decStatus), (0x0A0, .decResult), (0x0A4, .vid0), (0x0A8, .vid1), (0x0AC, .vid2),
   (0x0B0, .vid3)]

/-- The access code of a register (R22, R61). -/
def Reg.code : Reg → AccessCode
  | .ncsId | .ncsParam | .status | .bytes | .effLen | .curW0 | .curW1 | .curW2 | .pinStatus | .timeLo | .timeHi
  | .onfiRevFeat | .onfiTiming | .onfiCheck | .decStatus | .decResult | .vid0 | .vid1 | .vid2 | .vid3 => .ro
  | .ctrl | .decCtrl => .wo
  | .irqEn | .decSrc | .decLen => .rw
  | .runCfg | .pinCtrl | .devState | .xfer _ _ => .rwi
  | .devCfg | .geoPageBytes | .geoSpareBytes | .geoPagesPerBlock | .geoBlocksPerLun | .geoCycles | .geoMisc
  | .geoBadBlocks | .idInfo | .idBytes0 | .idBytes1 | .sigBytes0 | .sigBytes1 => .rwl

/-- The field of a transfer record at a word of the record; word 7 is reserved (R61). -/
def xferField : Nat → Option XferField
  | 0 => some .intended
  | 1 => some .hint
  | 2 => some .bufBase
  | 3 => some .bufCap
  | 4 => some .offset
  | 5 => some .chunkSeq
  | 6 => some .lastChunk
  | _ => none

/-- The transfer-record register at word `w` of the bank; records past NUM_XFER are unmapped (R61). -/
def xferReg (w : Nat) : Option Reg :=
  if h : w / 8 < Config.numXfer then (xferField (w % 8)).map (fun f => .xfer ⟨w / 8, h⟩ f) else none

/-- The register at a window offset, where there is one (R22). -/
def regAt (off : Nat) : Option Reg :=
  if off < 0x100 then regMap.lookup off else xferReg ((off - 0x100) / 4)

/-- What an aligned window offset names (R22, R69, R70, R83). -/
inductive Place
  | reg (r : Reg) | descRam | bufRam | unmapped
deriving DecidableEq, Repr

/-- Is the offset in the mapped part of a descriptor slot (R69)? -/
def inDescRam (off : Nat) : Bool :=
  decide (Config.descBase ≤ off) && decide (off < Config.descBase + Config.descStride * Config.numDesc) &&
    decide ((off - Config.descBase) % Config.descStride < Config.descMapped)

/-- Is the offset in buffer RAM (R70)? -/
def inBufRam (off : Nat) : Bool :=
  decide (Config.bufBase ≤ off) && decide (off < Config.bufBase + Config.bufBytes)

/-- The place at an aligned window offset. -/
def placeAt (off : Nat) : Place :=
  if off < Config.descBase then
    match regAt off with
    | some r => .reg r
    | none => .unmapped
  else if inDescRam off then .descRam
  else if inBufRam off then .bufRam
  else .unmapped

/-! ### Reads (R23 to R59) -/

/-- A field of a register at bit `lo`. -/
def fieldAt {n : Nat} (lo : Nat) (v : BitVec n) : Word := v.setWidth 32 <<< lo

/-- One bit of a register at bit `lo`. -/
def bitAt (lo : Nat) (b : Bool) : Word := ofBit 32 b <<< lo

/-- NCS_PARAM (R25). -/
def paramWord : Word :=
  BitVec.ofNat 32 (Config.maxSteps + 2 ^ 8 * Config.numDesc + 2 ^ 16 * Config.numXfer + 2 ^ 24 * Config.numLunMax)

/-- STATUS (R27). -/
def statusWord (s : State) : Word :=
  bitAt 0 s.busy ||| bitAt 1 s.status.done ||| bitAt 2 s.hookPending ||| bitAt 3 s.status.hookPost |||
    bitAt 4 s.status.hookRaw ||| fieldAt 8 s.status.resp.code ||| fieldAt 16 s.status.step

/-- RUN_CFG (R30). -/
def runCfgWord (c : RunCfg) : Word :=
  fieldAt 0 c.template ||| fieldAt 8 c.override ||| bitAt 15 c.overrideEn ||| fieldAt 16 c.lun

/-- PIN_STATUS (R36). -/
def pinStatusWord (s : State) : Word :=
  fieldAt 0 s.clk.rbSync ||| fieldAt 16 s.pins.latch.code ||| bitAt 18 (decide (s.pins.dir = .write)) |||
    bitAt 19 s.pins.weAct ||| bitAt 20 s.pins.reAct

/-- A transfer-record register (R62 to R68). -/
def XferRec.get (x : XferRec) : XferField → Word
  | .intended => x.intended
  | .hint => x.hint
  | .bufBase => fieldAt 0 x.bufBase
  | .bufCap => fieldAt 0 x.bufCap
  | .offset => x.offset
  | .chunkSeq => x.chunkSeq
  | .lastChunk => x.lastChunk

/-- The device-record registers (R40 to R51). -/
def Device.get (d : Device) : Reg → Word
  | .devCfg => bitAt 0 d.dataW16 ||| bitAt 1 d.addrW16
  | .devState => fieldAt 0 d.state ||| bitAt 8 d.initDone
  | .geoPageBytes => d.pageBytes
  | .geoSpareBytes => fieldAt 0 d.spareBytes
  | .geoPagesPerBlock => d.pagesPerBlock
  | .geoBlocksPerLun => d.blocksPerLun
  | .geoCycles => fieldAt 0 d.rowCycles ||| fieldAt 4 d.colCycles
  | .geoMisc => fieldAt 0 d.lunCount ||| fieldAt 8 d.bitsPerCell ||| fieldAt 16 d.programsPerPage
  | .geoBadBlocks => fieldAt 0 d.badBlocks
  | .idInfo => fieldAt 0 d.idLen ||| fieldAt 8 d.sigLen
  | .idBytes0 => d.idBytes0
  | .idBytes1 => d.idBytes1
  | .sigBytes0 => d.sigBytes0
  | .sigBytes1 => d.sigBytes1
  | _ => 0

/-- The value of a register; CTRL and DEC_CTRL read 0 (R23). -/
def readReg (s : State) : Reg → Word
  | .ncsId => Config.ncsId
  | .ncsParam => paramWord
  | .ctrl => 0
  | .status => statusWord s
  | .irqEn => bitAt 0 s.irqEn.doneIe ||| bitAt 1 s.irqEn.hookIe
  | .runCfg => runCfgWord s.runCfg
  | .bytes => s.bytes
  | .effLen => fieldAt 0 s.effLen
  | .curW0 => s.cur.w0
  | .curW1 => s.cur.w1
  | .curW2 => s.cur.w2
  | .pinCtrl => fieldAt 0 s.pins.cs ||| bitAt 16 s.pins.wp
  | .pinStatus => pinStatusWord s
  | .timeLo => s.clk.time.setWidth 32
  | .timeHi => s.timeHiShadow
  | .onfiRevFeat => fieldAt 0 s.onfi.revision ||| fieldAt 16 s.onfi.features
  | .onfiTiming => fieldAt 0 s.onfi.timingModes ||| fieldAt 16 s.onfi.crcStored
  | .onfiCheck => bitAt 0 s.onfi.sigOk ||| bitAt 1 s.onfi.crcOk ||| fieldAt 16 s.onfi.crcCalc
  | .decCtrl => 0
  | .decSrc => fieldAt 0 s.dec.src
  | .decLen => fieldAt 0 s.dec.len
  | .decStatus => bitAt 0 s.dec.err ||| fieldAt 4 s.dec.lastOp
  | .decResult => s.dec.result
  | .vid0 =>
    fieldAt 0 s.vid.chips ||| fieldAt 8 s.vid.cellLevels ||| fieldAt 16 s.vid.simPages |||
      bitAt 24 s.vid.interleave ||| bitAt 25 s.vid.cacheProg
  | .vid1 => s.vid.pageBytes
  | .vid2 => s.vid.blockBytes
  | .vid3 => fieldAt 0 s.vid.busWidth ||| fieldAt 8 s.vid.planes ||| fieldAt 16 s.vid.blocksPerPlane
  | .xfer k f => s.xfer[k].get f
  | r => s.dev.get r

/-- The one side effect a read has: TIME_LO copies TIME[63:32] into TIME_HI_SHADOW (R37, R91). -/
def afterReadReg (s : State) : Reg → State
  | .timeLo => { s with timeHiShadow := s.clk.time.extractLsb' 32 32 }
  | _ => s

/-! ### Writes (R23, R74, R75, R78) -/

/-- May the host write a register of this access code now (R23)? -/
def AccessCode.permits (c : AccessCode) (s : State) : Bool :=
  match c with
  | .ro => false
  | .wo => true
  | .rw => true
  | .rwi => !s.busy
  | .rwl => !s.busy && !s.dev.initDone

/-- The write a raw hook allows: INTENDED_SIZE of the current raw step's record (R75). -/
def hookWritable (s : State) : Reg → Bool
  | .xfer k .intended => s.hookPending && s.status.hookRaw && decide (s.hookXfer.toNat = k.val)
  | _ => false

/-- May the host write this register now (R23, R75)? -/
def writable (s : State) (r : Reg) : Bool := r.code.permits s || hookWritable s r

/-- A transfer-record register written (R62 to R68). -/
def XferRec.put (x : XferRec) (f : XferField) (v : Word) : XferRec :=
  match f with
  | .intended => { x with intended := v }
  | .hint => { x with hint := v }
  | .bufBase => { x with bufBase := v.extractLsb' 0 16 }
  | .bufCap => { x with bufCap := v.extractLsb' 0 17 }
  | .offset => { x with offset := v }
  | .chunkSeq => { x with chunkSeq := v }
  | .lastChunk => { x with lastChunk := v }

/-- DEV_STATE.STATE written: "A write of 5, 6 or 7 leaves STATE unchanged" (R41). -/
def Device.putState (d : Device) (v : BitVec 3) : Device := if v.toNat ≤ 4 then { d with state := v } else d

/-- A device-record register written; reserved bits are ignored (R23, R40 to R51). -/
def Device.put (d : Device) (r : Reg) (v : Word) : Device :=
  match r with
  | .devCfg => { d with dataW16 := v.getLsbD 0, addrW16 := v.getLsbD 1 }
  | .devState => d.putState (v.extractLsb' 0 3)
  | .geoPageBytes => { d with pageBytes := v }
  | .geoSpareBytes => { d with spareBytes := v.extractLsb' 0 16 }
  | .geoPagesPerBlock => { d with pagesPerBlock := v }
  | .geoBlocksPerLun => { d with blocksPerLun := v }
  | .geoCycles => { d with rowCycles := v.extractLsb' 0 4, colCycles := v.extractLsb' 4 4 }
  | .geoMisc =>
    { d with lunCount := v.extractLsb' 0 8, bitsPerCell := v.extractLsb' 8 8, programsPerPage := v.extractLsb' 16 8 }
  | .geoBadBlocks => { d with badBlocks := v.extractLsb' 0 16 }
  | .idInfo => { d with idLen := v.extractLsb' 0 8, sigLen := v.extractLsb' 8 8 }
  | .idBytes0 => { d with idBytes0 := v }
  | .idBytes1 => { d with idBytes1 := v }
  | .sigBytes0 => { d with sigBytes0 := v }
  | .sigBytes1 => { d with sigBytes1 := v }
  | _ => d

/-- RUN_CFG written; a slot number past NUM_DESC is stored as written (R30). -/
def runCfgOf (v : Word) : RunCfg :=
  { template := v.extractLsb' 0 4, override := v.extractLsb' 8 4, overrideEn := v.getLsbD 15,
    lun := v.extractLsb' 16 4 }

/-- One chip select of a PIN_CTRL write: `SetCS` where the bit changes (R35). -/
def driveCS (v : Word) (l : Nat) (s : State) : State :=
  if s.pins.cs.getLsbD l = v.getLsbD l then s else setCS l (v.getLsbD l) s

/-- The write protect of a PIN_CTRL write: `SetWP` where the bit changes (R35). -/
def driveWP (v : Word) (s : State) : State := if s.pins.wp = v.getLsbD 16 then s else setWP (v.getLsbD 16) s

/-- The chip selects `ls` of a PIN_CTRL write, in order (R35). -/
def driveEach (v : Word) : List Nat → State → State
  | [], s => s
  | l :: ls, s => driveEach v ls (driveCS v l s)

/-- A PIN_CTRL write: the changed chip selects in increasing order, then write protect; bits at or above
NUM_LUN_MAX are ignored (R35). -/
def drivePins (v : Word) (s : State) : State := driveWP v (driveEach v (List.range Config.numLunMax) s)

/-- A register that only stores what is written to it (R91). -/
def putReg (r : Reg) (v : Word) (s : State) : State :=
  match r with
  | .irqEn => { s with irqEn := { doneIe := v.getLsbD 0, hookIe := v.getLsbD 1 } }
  | .runCfg => { s with runCfg := runCfgOf v }
  | .pinCtrl => drivePins v s
  | .decSrc => { s with dec := { s.dec with src := v.extractLsb' 0 16 } }
  | .decLen => { s with dec := { s.dec with len := v.extractLsb' 0 17 } }
  | .xfer k f => s.setXfer k (fun x => x.put f v)
  | r => { s with dev := s.dev.put r v }

/-- The instructions of a CTRL write, one after the other (R26). -/
def execAll : List Instr → State → Host.Outcome State Fault Refusal
  | [], s => .next s
  | i :: is, s =>
    match exec i s with
    | .next s' => execAll is s'
    | .fault f => .fault f
    | .refused r => .refused r

/-- A write of a register: CTRL and DEC_CTRL start actions, every other one stores where it may (R91). -/
def writeReg (r : Reg) (v : Word) (s : State) : Host.Outcome State Fault Refusal :=
  match r with
  | .ctrl => execAll (decodeCtrl v) s
  | .decCtrl => exec (decodeDec v) s
  | r => .next (if writable s r then putReg r v s else s)

/-! ### The window -/

/-- A host access to buffer RAM while the sequencer is RUNNING (R76). -/
def bufferBusy (s : State) : Bool := decide (s.fsm = .running)

/-- A RAM word read (R69, R70, R363). -/
def readRam (off : Nat) (s : State) : Host.Outcome State Fault Refusal :=
  match s.mem.word off with
  | .ok v => .next { s with rdata := v }
  | .error f => .fault f

/-- A RAM word written (R69, R70, R81). -/
def writeRam (off : Nat) (v : Word) (s : State) : State := { s with mem := s.mem.store off (bytesOfWord v) }

/-- A host read of an aligned window offset (R22, R23, R76). -/
def hostRead (off : Nat) (s : State) : Host.Outcome State Fault Refusal :=
  match placeAt off with
  | .reg r => .next { afterReadReg s r with rdata := readReg s r }
  | .descRam => readRam off s
  | .bufRam => if bufferBusy s then .refused .bufferAccessDuringRun else readRam off s
  | .unmapped => .next { s with rdata := 0 }

/-- A host write of an aligned window offset (R22, R23, R76). -/
def hostWrite (off : Nat) (v : Word) (s : State) : Host.Outcome State Fault Refusal :=
  match placeAt off with
  | .reg r => writeReg r v s
  | .descRam => .next (writeRam off v s)
  | .bufRam => if bufferBusy s then .refused .bufferAccessDuringRun else .next (writeRam off v s)
  | .unmapped => .next s

/-- Is the access a naturally aligned 32-bit one (R88)? -/
def alignedWord (bytes off : Nat) : Bool := decide (bytes = 4) && decide (off % 4 = 0)

/-- The shape check of R88 and the window's bound (R80), before an access is performed. -/
def guardAccess (bytes off : Nat) (o : Host.Outcome State Fault Refusal) : Host.Outcome State Fault Refusal :=
  if alignedWord bytes off = false then .refused .unalignedHostAccess
  else if Config.windowBytes ≤ off then .fault (.outsideWindow off)
  else o

/-- A host access (R88, R96). -/
def hostAccess (a : HostAccess) (s : State) : Host.Outcome State Fault Refusal :=
  match a with
  | .read bytes off => guardAccess bytes off (hostRead off s)
  | .write bytes off v => guardAccess bytes off (hostWrite off v s)

end Sys2Proof.Machine
end

