-- ==== Sys2Proof/Machine/Agents.lean ====
section
/-! DEFINITION. What the agents of spec/00_scope.md R3 do in one step: the port takes what arrives from
outside, or the sequencer performs the step of the chain at STATUS.STEP, or a clock passes. -/

namespace Sys2Proof.Machine

/-! ### The sequencer -/

/-- The step entry the sequencer fetches: EFF[STATUS.STEP] (R31, R60). -/
def State.fetched (s : State) : StepEntry := s.eff.entry s.status.step.toNat

/-- The sequencer in RUNNING: the step at STEP, or the end of the loop (R176). -/
def sequencerStep (s : State) : Host.Outcome State Fault Refusal :=
  if s.status.step.toNat < s.effLen.toNat then exec s.fetched.instr s else .next (endRun s)

/-- One clock edge in which nothing else happens: IDLE, or a hook that is not yet acknowledged (R21, R186). -/
def tickOnce (s : State) : State := { s with clk := s.clk.edge }

/-- The machine when nothing arrives (R3). -/
def agentStep (s : State) : Host.Outcome State Fault Refusal :=
  match s.fsm with
  | .running => sequencerStep s
  | .idle => .next (tickOnce s)
  | .hookWait => .next (tickOnce s)

/-! ### RESET -/

/-- A clock edge at which RESET is asserted (R361): every item of R360 takes its reset value, and no event is
recorded. What is outside the NCS goes on: the device's answers, what the host still sends, the observer's trace;
and the build's tick stays. -/
def resetEdge (s : State) : State :=
  { State.reset with
    clk := { Clk.reset with tickPred := s.clk.tickPred, env := s.clk.env }
    resetIn := true
    port := s.port
    trace := s.trace }

/-- RESET stays asserted (R361): "host accesses are ignored". At the edge at which it is de-asserted the NCS goes
on from its reset state. -/
def heldStep (s : State) : State :=
  match s.port with
  | [] => resetEdge s
  | (0, .release) :: rest => { tickOnce (resetEdge { s with port := rest }) with resetIn := false }
  | (0, _) :: rest => resetEdge { s with port := rest }
  | (n + 1, i) :: rest => resetEdge { s with port := (n, i) :: rest }

/-- Is the event a read cycle, which takes one of the device's answers (R151)? -/
def Event.isRead : Event → Bool
  | .rcyc _ _ => true
  | _ => false

/-- What an action that brings `s` to `u` has done when only `n` of its events have been recorded: of all that, a
reset leaves the events, and the answers the device has given. -/
def cutAfter (n : Nat) (s u : State) : State :=
  let kept := u.trace.drop (u.trace.length - (s.trace.length + n))
  { u with
    trace := kept
    clk := { u.clk with env := { u.clk.env with
      dq := s.clk.env.dq.drop ((kept.take (kept.length - s.trace.length)).countP Event.isRead) } } }

/-! ### The port -/

/-- A host access is taken, one clock edge later than the last thing (R96). -/
def takeAccess (a : HostAccess) (s : State) : Host.Outcome State Fault Refusal := hostAccess a (tickOnce s)

/-- The action a RESET that is asserted now would interrupt: a host access that arrives at the same step, else the
agents'. -/
def nextAction (s : State) : Host.Outcome State Fault Refusal :=
  match s.port with
  | (0, .access a) :: rest => takeAccess a { s with port := rest }
  | _ => agentStep s

/-- The state an instruction has brought about where it stops. Only a raw step records an event before it stops: the
other instructions of a chain never stop, and START and the decoder operations read before they act. -/
def haltedAt (i : Instr) (s : State) : Option State :=
  match i with
  | .raww xfer t => (recordIndex xfer).bind (fun k => rawHaltedAt .write k t s)
  | .rawr xfer t => (recordIndex xfer).bind (fun k => rawHaltedAt .read k t s)
  | .cmd _ _ | .addr _ _ _ | .addrc _ _ | .addrr _ _ | .addr1 _ _ | .illegalKind7 | .hole => none
  | .decRsvd0 | .ddrchk | .ddrfold _ | .patlen _ | .idext _ | .onfidec | .viddec | .decRsvd7 => none
  | .start | .hookAck | .doneClr => none

/-- The state the next action has brought about where it stops, and `s` itself where it stops at once or not at all.
A host access stops at once. -/
def stoppedAt (s : State) : State :=
  match s.port with
  | (0, .access _) :: _ => s
  | _ => if s.fsm = .running then (haltedAt s.fetched.instr s).getD s else s

/-- RESET is asserted (R361): "A reset during a run abandons it without `finish`", in the middle of a wait, a delay
or a burst as well. An action that would stop is abandoned before its stop, where it has recorded the events that
RESET waits for by then. -/
def takeReset (after : Nat) (s : State) : Host.Outcome State Fault Refusal :=
  match after with
  | 0 => .next (resetEdge s)
  | n + 1 =>
    match nextAction s with
    | .next u => .next (resetEdge (cutAfter (n + 1) s u))
    | stop =>
      if s.trace.length + (n + 1) ≤ (stoppedAt s).trace.length then
        .next (resetEdge (cutAfter (n + 1) s (stoppedAt s)))
      else stop

/-- One step of the machine: "the host write first, then the sequencer's action" (R336). -/
def machineStep (s : State) : Host.Outcome State Fault Refusal :=
  if s.resetIn then .next (heldStep s)
  else
    match s.port with
    | [] => agentStep s
    | (0, .access a) :: rest => takeAccess a { s with port := rest }
    | (0, .reset after) :: rest => takeReset after { s with port := rest }
    | (0, .release) :: rest => agentStep { s with port := rest }
    | (n + 1, i) :: rest => agentStep { s with port := (n, i) :: rest }

/-! ### An instruction where the machine takes its next one -/

/-- Sixteen words as a step entry (R111). -/
def entryOfWords : List Word → StepEntry
  | [w0, w1, w2, w3, t0, t1, t2, t3, t4, t5, t6, t7, t8, t9, t10, w15] =>
    { w0, w1, w2, w3, t := ⟨t0, t1, t2, t3, t4, t5, t6, t7, t8, t9, t10⟩, w15 }
  | _ => StepEntry.zero

/-- What is still to arrive, one step later. -/
def deferPort : List (Nat × HostInput) → List (Nat × HostInput)
  | [] => []
  | (n, i) :: rest => (n + 1, i) :: rest

/-- The sequencer RUNNING at the beginning of a chain of the one step `e`, RESET not asserted (R60, R176). -/
def State.atEntry (s : State) (e : StepEntry) : State :=
  beginStep 0
    { s with
      fsm := .running
      resetIn := false
      effLen := 1
      eff := { s.eff with steps := e :: s.eff.steps.drop 1 }
      port := deferPort s.port }

/-- A host write of a register arriving now, before everything else, RESET not asserted. -/
def State.atWrite (s : State) (off : Nat) (v : Word) : State :=
  { s with resetIn := false, port := (0, .access (.write 4 off v)) :: s.port }

end Sys2Proof.Machine
end

