-- ==== Sys2Proof/Machine/Step.lean ====
section
/-! DEFINITION. One step of the NCS, and the state in which the next step runs a given instruction. -/

namespace Sys2Proof.Machine

/-- One step (`machineStep`). -/
def step (s : State) : Host.Outcome State Fault Refusal := machineStep s

/-- The state whose very next step runs the instruction whose bits are the low `nbits` of `w`, every later
bit 0: a step entry as the one step of a running chain, a DEC_CTRL word as a host write that arrives now
(`tableSite`; notes/assumptions/1.md and 2.md). -/
def State.withFetchWord (s : State) (nbits w : Nat) : State :=
  match tableSite (w % 2 ^ nbits) with
  | .stepEntry => s.atEntry (entryOfWords (wordsOfBytes (tableBytes nbits w)))
  | .decCtrl => s.atWrite 0x090 (BitVec.ofNat 32 (w % 2 ^ nbits))
  | .ctrl => s.atWrite 0x008 (BitVec.ofNat 32 (w % 2 ^ nbits))

end Sys2Proof.Machine
end

