-- ==== Sys2Proof/Safety.lean ====
section
/-! DEFINITION. What counts as a safe run, in the terms claims use: the conditions on a state that the spec
keeps in every run, the host's duties (spec/70_reset_and_hazards.md R372), and the bring-up checks the host
makes on the NCS's results (spec/44_id_decoder.md R269, spec/60_exceptions.md R356). -/

namespace Sys2Proof.Machine

/-! ### Invariants -/

/-- The chip selects above NUM_LUN_MAX read 0 (R35). -/
def chipSelectsExist (s : State) : Prop := s.pins.cs &&& ~~~lunMask = 0

/-- The ready/busy stages above NUM_LUN_MAX read 0 (R36). -/
def readyLinesExist (s : State) : Prop := s.clk.rbFirst &&& ~~~lunMask = 0 ∧ s.clk.rbSync &&& ~~~lunMask = 0

/-- DEV_STATE.STATE is one of the five states (R41). -/
def deviceStateNamed (s : State) : Prop := s.dev.state.toNat ≤ 4

/-- DONE is never 1 together with BUSY, so never with HOOK_PENDING either (R333). -/
def doneOnlyWhenIdle (s : State) : Prop := s.busy = true → s.status.done = false

/-- RESP is one of the four codes the NCS writes, and 0 while a run is in progress (R27, R28, R325). -/
def respProduced (s : State) : Prop :=
  (s.status.resp = .ok ∨ s.status.resp = .timeout ∨ s.status.resp = .cmdInvalid ∨ s.status.resp = .chainTooLong) ∧
    (s.busy = true → s.status.resp = .ok)

/-- The strobes are idle between two steps (R77, R149, R151). -/
def strobesAtRest (s : State) : Prop := s.pins.weAct = false ∧ s.pins.reAct = false

/-- EFF holds MAX_STEPS entries (R60). -/
def effFull (s : State) : Prop := s.eff.steps.length = Config.maxSteps

/-- A record's buffer does not fit buffer RAM, with two bytes an element on a 16-bit data bus and one on an 8-bit one,
or starts at an odd byte of a 16-bit bus (R171 check 5c, R323 cause 6). -/
def bufferMisplaced (d : Device) (x : XferRec) : Prop :=
  Config.bufBytes < x.bufBase.toNat + (if d.dataW16 then 2 else 1) * x.bufCap.toNat ∨
    (d.dataW16 = true ∧ x.bufBase.toNat % 2 = 1)

/-- A step entry that validation rejects, by the bits of W0 and W1: DEFINED, with KIND 7, or with KIND 5 or 6 (RAWW,
RAWR) and an XFER that names no record or one whose buffer is misplaced (R112, R113, R114, R118, R171 check 5, R323
causes 4 to 6). -/
def stepIllegal (d : Device) (xs : Vector XferRec Config.numXfer) (e : StepEntry) : Prop :=
  e.w0.getLsbD 3 = true ∧
    ((e.w0.extractLsb' 0 3).toNat = 7 ∨
      (((e.w0.extractLsb' 0 3).toNat = 5 ∨ (e.w0.extractLsb' 0 3).toNat = 6) ∧
        (Config.numXfer ≤ (e.w1.extractLsb' 0 3).toNat ∨
          ∃ k : Fin Config.numXfer, k.val = (e.w1.extractLsb' 0 3).toNat ∧ bufferMisplaced d xs[k])))

/-- Every step of the chain of a run is one validation accepts (R171, R244). -/
def chainValidated (s : State) : Prop :=
  s.busy = true → ∀ i, i < s.effLen.toNat → stepAcceptable s.dev s.xfer (s.eff.entry i) = true

/-- While a run exists, EFF_LEN is within MAX_STEPS and STEP within EFF_LEN, the target LUN exists, and at a
hook STEP names a step (R31, R171, R182). -/
def stepInChain (s : State) : Prop :=
  s.busy = true →
    s.effLen.toNat ≤ Config.maxSteps ∧ s.status.step.toNat ≤ s.effLen.toNat ∧ s.runCfg.lun.toNat < s.dev.luns

/-- While a step is pending, CUR_W0 to CUR_W2 show its words (R34). -/
def curShowsStep (s : State) : Prop :=
  s.busy = true → s.status.step.toNat < s.effLen.toNat → s.cur = s.fetched.cur

/-- A hook is pending, or has just been acknowledged, only at a step of the chain (R182, R339). -/
def hookAtStep (s : State) : Prop :=
  (s.fsm = .hookWait → s.phase ≠ .begin) ∧
    (s.phase ≠ .begin → s.busy = true ∧ s.status.step.toNat < s.effLen.toNat)

/-- At a hook point of a raw step HOOK_XFER names the step's record, and at a pending hook HOOK_RAW says
whether the step is a raw step (R182, R183, R248). -/
def hookNamesRecord (s : State) : Prop :=
  (s.phase ≠ .begin → ∀ k, recordNamed s.fetched.instr = some k → s.hookXfer = k) ∧
    (s.fsm = .hookWait → s.status.hookRaw = (recordNamed s.fetched.instr).isSome)

/-- The RAMs are in their canonical form (`Memory.wf`). -/
def memoryCanonical (s : State) : Prop := s.mem.wf = true

/-- What every step of the NCS keeps. -/
structure State.Inv (s : State) : Prop where
  cs : chipSelectsExist s
  rb : readyLinesExist s
  dev : deviceStateNamed s
  done : doneOnlyWhenIdle s
  resp : respProduced s
  strobes : strobesAtRest s
  eff : effFull s
  chain : chainValidated s
  step : stepInChain s
  cur : curShowsStep s
  hook : hookAtStep s
  record : hookNamesRecord s
  mem : memoryCanonical s

/-! ### Time passing -/

/-- The ready/busy stages hold no line of a LUN that does not exist (R36). -/
def Clk.LinesExist (c : Clk) : Prop := c.rbFirst &&& ~~~lunMask = 0 ∧ c.rbSync &&& ~~~lunMask = 0

/-- Every ready/busy input stands at the level `v` gives it, and has for two clocks or more (R72). -/
def Clk.Steady (v : Half) (c : Clk) : Prop := c.env.rb = [v] ∧ c.rbFirst = v &&& lunMask ∧ c.rbSync = v &&& lunMask

/-- What the passing of time can do to the clock `c`: it becomes `d`, whole ticks later (R140), with the build's
tick as it was, and lines that stood still still standing. -/
structure Clk.Later (c d : Clk) : Prop where
  tick : d.tickPred = c.tickPred
  time : ∃ n : Nat, d.time = c.time + BitVec.ofNat 64 (n * c.tick)
  lines : c.LinesExist → d.LinesExist
  steady : ∀ v, c.Steady v → d.Steady v

/-- Time passes and the device is asked for nothing. -/
structure Clk.Quiet (c d : Clk) : Prop extends Clk.Later c d where
  dq : d.env.dq = c.env.dq

/-! ### Frames -/

/-- Every byte of the RAMs reads as before. -/
def memoryKept (s u : State) : Prop := ∀ a, u.mem.read a = s.mem.read a

/-- Every byte of the RAMs outside the `n` bytes from offset `at_` reads as before. -/
def memoryKeptOutside (at_ n : Nat) (s u : State) : Prop :=
  ∀ a, a < at_ ∨ at_ + n ≤ a → u.mem.read a = s.mem.read a

/-- The `n` bytes from offset `at_` have all been written since reset (R363). -/
def written (m : Memory) (at_ n : Nat) : Prop := ∀ i, i < n → (m.read (at_ + i)).isSome = true

/-- RESET is not asserted and is not what arrives at this step. -/
def noReset (s : State) : Prop := s.resetIn = false ∧ ∀ after rest, s.port ≠ (0, .reset after) :: rest

/-! ### The bus events of the spec's procedures, in the order of time -/

/-- `Delay(t)` (R141). -/
def delayEvents (t : Word) : List Event := if t = 0 then [] else [.delay t]

/-- The waits a step asks for, in order: the target LUN, then the others (R146). -/
def waitPlan (d : Device) (lun : Nat) (tThis tOther : Word) : List (Nat × Word) :=
  (if tThis = 0 then [] else [(lun, tThis)]) ++
    (if tOther = 0 then [] else (otherLuns d lun).map (fun n => (n, tOther)))

/-- The events of waits that end OK (R145). -/
def okWaits (plan : List (Nat × Word)) : List Event := plan.map (fun p => .wait p.1 p.2 true)

/-- The waits of a step that end OK (R200, R230). -/
def readyEvents (s : State) (t : Timing) : List Event := okWaits (waitPlan s.dev s.runCfg.lun.toNat t.rdy t.rdyOther)

/-- A control step up to its ready wait (R176, R200). -/
def headEvents (m : Latch) (t : Timing) : List Event :=
  delayEvents t.pre ++ delayEvents t.lePre ++ [.latch m] ++ delayEvents t.lePost

/-- The cycles of a control step (R200). -/
def cycleEvents (w : Width) (vs : List Half) : List Event := .dir .write :: vs.map (fun v => .wcyc w (w.clip v))

/-- A control step from its latch disable on (R200, R176). -/
def tailEvents (t : Timing) : List Event :=
  delayEvents t.ldPre ++ [.latch .neutral] ++ delayEvents t.ldPost ++ delayEvents t.post

/-- Does the event count one bus cycle (R148)? -/
def Event.isCycle : Event → Bool
  | .wcyc _ _ => true
  | .rcyc _ _ => true
  | _ => false

/-! ### Steps -/

/-- The latch mode, the cycle values and the timing of a control step (R200 to R207). -/
def controlForm (d : Device) : Instr → Option (Latch × List Half × Timing)
  | .cmd b t => some (.cmd, [b.setWidth 16], t)
  | .addr col row t => some (.addr, (columnCycles d col ++ rowCycles d row).map (·.setWidth 16), t)
  | .addrc col t => some (.addr, (columnCycles d col).map (·.setWidth 16), t)
  | .addrr row t => some (.addr, (rowCycles d row).map (·.setWidth 16), t)
  | .addr1 b t => some (.addr, [b.setWidth 16], t)
  | _ => none

/-- The direction, the record and the timing of a raw step that names a record there is (R230). -/
def rawForm : Instr → Option (Dir × Fin Config.numXfer × Timing)
  | .raww k t => (recordIndex k).map (fun j => (.write, j, t))
  | .rawr k t => (recordIndex k).map (fun j => (.read, j, t))
  | _ => none

/-- CUR_W0 to CUR_W2 once the loop stands at index `i` (R34, R176). -/
def wordsShown (s : State) (i : Nat) : CurWords := if i < s.effLen.toNat then (s.eff.entry i).cur else s.cur

/-- The pins after the cycles `vs` of a step that writes (R149). -/
def Pins.afterWrites (p : Pins) (w : Width) (vs : List Half) : Pins :=
  { p with dq := (vs.getLast?.map w.clip).getD p.dq, weAct := if vs = [] then p.weAct else false }

/-- The control step's wait answers OK, on the state the step has brought about by then (R200). -/
def controlReadyWait (m : Latch) (t : Timing) (s : State) : Prop := (stepWait t (controlLatched m t s)).1 = true

/-- A raw step's state when its ready wait begins (R230). -/
def rawAtWait (k : Fin Config.numXfer) (t : Timing) (s : State) : State :=
  rawLatched k t (rawSized k (rawEntered k t s))

/-- The raw step's wait answers OK, on the state the step has brought about by then (R230). -/
def rawReadyWait (k : Fin Config.numXfer) (t : Timing) (s : State) : Prop := (stepWait t (rawAtWait k t s)).1 = true

/-- The lengths of the chunks of a raw step of size `size` with a buffer of capacity `cap` (R238). -/
def chunkLengths (cap size : Nat) : List Nat :=
  List.replicate ((size - 1) / cap) cap ++ [size - cap * ((size - 1) / cap)]

/-- A list cut into runs of the given lengths. -/
def cutInto {α : Type} : List Nat → List α → List (List α)
  | [], _ => []
  | n :: ns, xs => xs.take n :: cutInto ns (xs.drop n)

/-- The bytes of RAM a raw step's buffer may touch (R244). -/
def XferRec.bufferAt (x : XferRec) : Nat := Config.bufBase + x.bufBase.toNat

/-! ### The decoder unit's notions -/

/-- The OP of a decoder operation (R120). -/
def decoderOp : Instr → Option (BitVec 3)
  | .decRsvd0 => some 0
  | .ddrchk => some 1
  | .ddrfold _ => some 2
  | .patlen _ => some 3
  | .idext _ => some 4
  | .onfidec => some 5
  | .viddec => some 6
  | .decRsvd7 => some 7
  | _ => none

/-- `refused(OP, DEST)` of R260. -/
def refusedOp (op : BitVec 3) (s : State) : Prop :=
  op = 0 ∨ op = 7 ∨ s.busy = true ∨ Config.bufBytes < s.dec.src.toNat + s.dec.len.toNat ∨
    (op = 4 ∧ s.dev.initDone = true) ∨ (op = 5 ∧ (s.dev.initDone = true ∨ s.dec.len.toNat < 256)) ∨
    (op = 6 ∧ s.dec.len.toNat < 5)

/-- `ddr(B, N)` (R261). -/
def IsDdr (bs : List Byte) : Prop := 1 ≤ bs.length ∧ ∀ k, 2 * k + 1 < bs.length → bs[2 * k]? = bs[2 * k + 1]?

/-- Tiling the first `q` bytes across the rest matches (R263). -/
def TilesBy (bs : List Byte) (q : Nat) : Prop := ∀ j, q ≤ j → j < bs.length → bs[j]? = bs[j % q]?

/-- `p = patlen(B, N, m)`: the smallest candidate from max(m, 1) on that tiles, or N where none below N does
(R263). -/
def IsPatternLength (bs : List Byte) (m p : Nat) : Prop :=
  (bs.length ≤ max m 1 → p = bs.length) ∧
  (max m 1 < bs.length →
    max m 1 ≤ p ∧ p ≤ bs.length ∧ TilesBy bs p ∧ ∀ q, max m 1 ≤ q → q < p → ¬ TilesBy bs q)

/-- The bytes `cand` are `bs` folded: the even-indexed ones (R262). -/
def IsFoldOf (cand bs : List Byte) : Prop :=
  cand.length = (bs.length + 1) / 2 ∧ ∀ j, j < cand.length → cand[j]? = bs[2 * j]?

/-- `byte_j` of R264: byte `j` of the ID of length `len`, 0x00 past it. -/
def idByteAt (cand : List Byte) (len j : Nat) : Byte := if j < len then cand.getD j 0 else 0

/-- ID_BYTES0 or SIG_BYTES0 for `i` = 0, the second register for `i` = 4 (R50, R264). -/
def idWordAt (cand : List Byte) (len i : Nat) : Word :=
  wordOfBytes (idByteAt cand len i) (idByteAt cand len (i + 1)) (idByteAt cand len (i + 2)) (idByteAt cand len (i + 3))

/-! ### Registers -/

/-- The bits of a register that keep what the host writes; the others are reserved or fixed (R23, R29 to R68).
DEV_STATE is not among them: it refuses some values (R41). -/
def Reg.stored : Reg → Option Word
  | .irqEn => some 0x3
  | .runCfg => some 0x000F8F0F
  | .pinCtrl => some 0x0001000F
  | .devCfg => some 0x3
  | .geoPageBytes | .geoPagesPerBlock | .geoBlocksPerLun => some 0xFFFFFFFF
  | .geoSpareBytes | .geoBadBlocks | .idInfo | .decSrc => some 0xFFFF
  | .geoCycles => some 0xFF
  | .geoMisc => some 0xFFFFFF
  | .idBytes0 | .idBytes1 | .sigBytes0 | .sigBytes1 => some 0xFFFFFFFF
  | .decLen => some 0x1FFFF
  | .xfer _ .bufBase => some 0xFFFF
  | .xfer _ .bufCap => some 0x1FFFF
  | .xfer _ _ => some 0xFFFFFFFF
  | _ => none

/-- The offset of a field of a transfer record in its record (R61). -/
def XferField.place : XferField → Nat
  | .intended => 0x00
  | .hint => 0x04
  | .bufBase => 0x08
  | .bufCap => 0x0C
  | .offset => 0x10
  | .chunkSeq => 0x14
  | .lastChunk => 0x18

/-- The window offset of a register, as the tables of R22 and R61 list it. -/
def Reg.offset : Reg → Nat
  | .ncsId => 0x000
  | .ncsParam => 0x004
  | .ctrl => 0x008
  | .status => 0x00C
  | .irqEn => 0x010
  | .runCfg => 0x014
  | .bytes => 0x018
  | .effLen => 0x01C
  | .curW0 => 0x020
  | .curW1 => 0x024
  | .curW2 => 0x028
  | .pinCtrl => 0x030
  | .pinStatus => 0x034
  | .timeLo => 0x038
  | .timeHi => 0x03C
  | .devCfg => 0x040
  | .devState => 0x044
  | .geoPageBytes => 0x048
  | .geoSpareBytes => 0x04C
  | .geoPagesPerBlock => 0x050
  | .geoBlocksPerLun => 0x054
  | .geoCycles => 0x058
  | .geoMisc => 0x05C
  | .geoBadBlocks => 0x060
  | .idInfo => 0x064
  | .idBytes0 => 0x068
  | .idBytes1 => 0x06C
  | .sigBytes0 => 0x070
  | .sigBytes1 => 0x074
  | .onfiRevFeat => 0x078
  | .onfiTiming => 0x07C
  | .onfiCheck => 0x080
  | .decCtrl => 0x090
  | .decSrc => 0x094
  | .decLen => 0x098
  | .decStatus => 0x09C
  | .decResult => 0x0A0
  | .vid0 => 0x0A4
  | .vid1 => 0x0A8
  | .vid2 => 0x0AC
  | .vid3 => 0x0B0
  | .xfer k f => 0x100 + 0x20 * k.val + f.place

/-- The offset lies in the header block or a step entry of a descriptor slot (R69). -/
def inSlots (off : Nat) : Prop :=
  ∃ d, d < Config.numDesc ∧ 0x1000 + 0x400 * d ≤ off ∧ off < 0x1000 + 0x400 * d + 64 * (Config.maxSteps + 1)

/-- The offset lies in buffer RAM (R70). -/
def inBuffer (off : Nat) : Prop := 0x10000 ≤ off ∧ off < 0x10000 + Config.bufBytes

/-- The host may write the register now (R23, R74, R75): an RW register at any time, an RWI one while no run exists,
an RWL one while also INIT_DONE = 0, and INTENDED_SIZE of the current raw step's record at a raw hook. -/
def mayWrite (s : State) (r : Reg) : Prop :=
  r.code = .rw ∨ (r.code = .rwi ∧ s.busy = false) ∨ (r.code = .rwl ∧ s.busy = false ∧ s.dev.initDone = false) ∨
    ∃ k : Fin Config.numXfer, r = .xfer k .intended ∧ s.hookPending = true ∧ s.status.hookRaw = true ∧
      s.hookXfer.toNat = k.val

/-! ### The host's side -/

/-- What RESET brings about (R361): the sequencer in IDLE, IRQ low, every register at its reset value, and no byte of
RAM with a value. -/
def inReset (s : State) : Prop :=
  s.fsm = .idle ∧ s.irq = false ∧ (∀ r, readReg s r = readReg State.reset r) ∧ ∀ a, s.mem.read a = none

/-- A run waits for the host, and nothing is on its way: "a hook never acknowledged stops the run for ever"
(R186, R372). -/
def hangs (s : State) : Prop := s.fsm = .hookWait ∧ s.port = []

/-- The host may use the results of a run: DONE is set (R98). -/
def resultReady (s : State) : Prop := s.status.done = true

/-- A data operation may be started: DEV_STATE is Ready (R355, R372: a host duty, not checked by the NCS). -/
def readyForData (s : State) : Prop := s.dev.initDone = true

/-- The host's check of an identification: the length is below MIN_ID_LEN (R269, R356). -/
def idTooShort (s : State) : Prop := s.dec.result.toNat < Config.minIdLen.toNat

/-- The host's check of a parameter-page run: the elements moved are below MIN_PARAM_LEN (R269, R356). -/
def parameterPageTooShort (s : State) (k : Fin Config.numXfer) : Prop :=
  s.xfer[k].offset.toNat < Config.minParamLen.val

end Sys2Proof.Machine
end

