-- ==== Sys2Proof/Certificates/Slice0/Obligations.lean ====
section
/-! DEFINITION. The statements for the provers. Each names the rules of spec/ it formalises; its vocabulary is
that of the machine and of Sys2Proof/Safety.lean. -/

open Sys2Proof Sys2Proof.Machine

/-! ### Encodings -/

/-- R111, R122, R124, R125, R26: what the encoder writes for an instruction, with every operand at every value,
the decoder reads as that instruction. -/
def Obligations.DecodeEncode : Prop := ∀ i : Instr, decode (encode i).1 (encodeBytes i) = .ok i

/-- R81, R92, R111: a step entry stored in a descriptor slot is the entry the merge reads there, all sixteen
words. -/
def Obligations.StepEntryReadsBack : Prop :=
  ∀ (m : Memory) (d i : Nat) (e : StepEntry),
    (m.store (descOffset d (16 * (i + 1))) e.bytes).stepEntry d i = .ok e

/-- R122, R120, R26: words of the spec's encoding, and the instructions they stand for. -/
def Obligations.SpecWordsDecode : Prop :=
  ∀ t : Timing,
    decodeStep 0x00000008 0x000001FF 0 t = .cmd 0xFF t ∧ decodeStep 0x00000009 0x804 0x141 t = .addr 0x804 0x141 t ∧
    decodeStep 0x0000000B 0x5 0x9 t = .addrr 0x5 t ∧ decodeStep 0x0000000E 0x2 0 t = .rawr 2 t ∧
    decodeStep 0x00000007 0 0 t = .hole ∧ decodeStep 0x0000000F 0 0 t = .illegalKind7 ∧
    decodeDec 0x00040003 = .patlen 4 ∧ decodeDec 0x0000FF02 = .ddrfold 0xFF ∧ decodeDec 0x0000000C = .idext true ∧
    decodeCtrl 0x00000007 = [.doneClr, .hookAck, .start]

/-! ### Memory -/

/-- R81: a word stored at an offset reads back, and its byte j is bits 8j+7 : 8j. -/
def Obligations.WordLittleEndian : Prop :=
  ∀ (m : Memory) (a : Nat) (w : Word),
    (m.store a (bytesOfWord w)).word a = .ok w ∧
    ∀ j, j < 4 → (m.store a (bytesOfWord w)).read (a + j) = some (w.extractLsb' (8 * j) 8)

/-- R91, R69, R70, R81: a host write of a RAM word stores exactly that word, and a host read gives it back. -/
def Obligations.HostRamWriteRead : Prop :=
  ∀ (off : Nat) (v : Word) (s : State),
    off % 4 = 0 → inSlots off ∨ (inBuffer off ∧ s.fsm ≠ .running) →
    ∃ u, hostAccess (.write 4 off v) s = .next u ∧ u = { s with mem := u.mem } ∧ memoryKeptOutside off 4 s u ∧
      hostAccess (.read 4 off) u = .next { u with rdata := v }

/-! ### Time -/

/-- R143, R144: `remaining` is the signed difference where that is positive, else 0; it is exact for every
deadline less than 2^63 ns ahead, and every deadline the NCS forms is less than 2^32 ns ahead. -/
def Obligations.RemainingExact : Prop :=
  (∀ d time : BitVec 64, (remaining d time : Int) = if 0 < (d - time).toInt then (d - time).toInt else 0) ∧
  (∀ time x : BitVec 64, x.toNat < 2 ^ 63 → remaining (time + x) time = x.toNat) ∧
  (∀ (time : BitVec 64) (t : Word), (deadlineFrom time t - time).toNat < 2 ^ 32)

/-- R141: `Delay(0)` does nothing; `Delay(t)` records its event and holds for k clocks, the least number that covers t
nanoseconds and the latency drawn for it on top. Where the model puts the NCS's latencies is its choice
(notes/assumptions/6.md), and so is that k is the least number for a tick above 2^63 ns (notes/assumptions/4.md). -/
def Obligations.DelayHolds : Prop :=
  ∀ (t : Word) (s : State) (k : Nat), k = (t.toNat - 1) / s.clk.tick + 1 + s.clk.env.drawLat.1 →
    (t = 0 → delay t s = s) ∧
    (t ≠ 0 → ∃ c, delay t s = { s with trace := .delay t :: s.trace, clk := c } ∧ s.clk.Quiet c ∧
      c.time = s.clk.time + BitVec.ofNat 64 (k * s.clk.tick) ∧ t.toNat ≤ k * s.clk.tick ∧
      (k - 1 - s.clk.env.drawLat.1) * s.clk.tick < t.toNat)

/-- R145, R143: `WaitOne` samples the synchronized line at entry and after each clock. The first sample that is ready
ends it as OK, also at the very sample at which the deadline passes; where every sample up to the first one t
nanoseconds or more after entry is busy, that one ends it as TIMEOUT. A tick is at most 2^63 ns, so that the signed
difference of R143 tells a deadline that has passed (notes/assumptions/4.md); the clocks after the last sample are the
model's choice (notes/assumptions/6.md). -/
def Obligations.WaitOnePolls : Prop :=
  ∀ (l j : Nat) (t : Word) (s : State) (sample : Nat → Clk), s.clk.tick ≤ 2 ^ 63 →
    (∀ i, sample i = Clk.edge^[i] { s.clk with deadline := deadlineFrom s.clk.time t }) →
    (j = 0 ∨ (j - 1) * s.clk.tick < t.toNat) → (∀ i, i < j → (sample i).rbSync.getLsbD l = false) →
    (sample j).time = s.clk.time + BitVec.ofNat 64 (j * s.clk.tick) ∧
    ((sample j).rbSync.getLsbD l = true →
      waitOne l t s = (true, { s with trace := .wait l t true :: s.trace, clk := (sample j).pass })) ∧
    ((sample j).rbSync.getLsbD l = false → t.toNat ≤ j * s.clk.tick →
      waitOne l t s = (false, { s with trace := .wait l t false :: s.trace, clk := (sample j).pass }))

/-- R154: the wait of a timeout field that is 0 is never taken: with t_this = 0 only the other LUNs are waited for,
with t_other = 0 only the target, and with both 0 `WaitReady` records no event and returns OK. That it then takes no
clock at all is the model's choice (notes/assumptions/6.md). -/
def Obligations.ZeroBudgetNeverWaits : Prop :=
  ∀ (lun : Nat) (t : Word) (s : State),
    waitReady lun 0 0 s = (true, s) ∧
    (t ≠ 0 → waitReady lun 0 t s = waitEach t (otherLuns s.dev lun) s) ∧
    (t ≠ 0 → waitReady lun t 0 s = waitOne lun t s)

/-! ### Registers and the window -/

/-- R22, R23, R35, R40 to R68, R75, R91: a host write at the offset of a register that stores, where R23 or R75 lets
the host write it, gives a state in which a host read there returns the written value in the register's fields and 0
elsewhere, and no other register changes; a PIN_CTRL write, which moves the clock too, is stated in PinCtrlDrives.
That IRQ_EN, DEC_SRC and DEC_LEN, writable always by R23, stay so at a hook is the model's reading of R75
(notes/assumptions/19.md). -/
def Obligations.RegisterKeepsItsFields : Prop :=
  ∀ (r : Reg) (mask v : Word) (s : State),
    r.stored = some mask → r ≠ .pinCtrl → mayWrite s r →
    ∃ u, hostAccess (.write 4 r.offset v) s = .next u ∧
      hostAccess (.read 4 r.offset) u = .next { u with rdata := v &&& mask } ∧
      (∀ r', r' ≠ r → readReg u r' = readReg s r') ∧
      u = { s with irqEn := u.irqEn, runCfg := u.runCfg, dev := u.dev, dec := u.dec, xfer := u.xfer }

/-- R22, R23, R74, R75, R78: at the offset of a register, a host write changes nothing where the register is read-only,
where it is RWL and INIT_DONE = 1, and where it is RWI or RWL and a run exists; the one write a run lets through is
INTENDED_SIZE of the current raw step's record at a raw hook. An offset that no rule maps, a reserved one among them,
reads 0 and ignores writes. -/
def Obligations.LockedRegisters : Prop :=
  (∀ (r : Reg) v s, r.code = .ro → hostAccess (.write 4 r.offset v) s = .next s) ∧
  (∀ (r : Reg) v s, r.code = .rwl → s.dev.initDone = true → hostAccess (.write 4 r.offset v) s = .next s) ∧
  (∀ (r : Reg) v s, (r.code = .rwi ∨ r.code = .rwl) → s.busy = true → ¬ mayWrite s r →
    hostAccess (.write 4 r.offset v) s = .next s) ∧
  (∀ (k : Fin Config.numXfer) v s, s.hookPending = true → s.status.hookRaw = true → s.hookXfer.toNat = k.val →
    hostAccess (.write 4 (0x100 + 0x20 * k.val) v) s =
      .next { s with xfer := s.xfer.set k { s.xfer[k] with intended := v } }) ∧
  (∀ (off : Nat) v s, off % 4 = 0 → off < Config.windowBytes → (∀ r : Reg, off ≠ r.offset) → ¬ inSlots off →
    ¬ inBuffer off →
    hostAccess (.read 4 off) s = .next { s with rdata := 0 } ∧ hostAccess (.write 4 off v) s = .next s)

/-- R22, R41: a host write at DEV_STATE (0x044) while BUSY = 0 takes the values 0 to 4, one of 5, 6 or 7 leaves STATE
unchanged, and a host read there gives STATE, and INIT_DONE as 1 exactly when STATE = 4. -/
def Obligations.DevStateWrite : Prop :=
  ∀ (v : Word) (s : State), s.busy = false →
    ∃ u, hostAccess (.write 4 0x044 v) s = .next u ∧
      u = { s with dev := { s.dev with
              state := if (v.extractLsb' 0 3).toNat ≤ 4 then v.extractLsb' 0 3 else s.dev.state } } ∧
      hostAccess (.read 4 0x044) u =
        .next { u with rdata := u.dev.state.setWidth 32 ||| if u.dev.state = 4 then 0x100 else 0 }

/-- R22, R35: a host write at PIN_CTRL (0x030) while idle drives the four chip selects and write protect, one event for each that
changes, in increasing order, write protect last; the bits of LUNs that do not exist are ignored. -/
def Obligations.PinCtrlDrives : Prop :=
  ∀ (v : Word) (s : State), s.busy = false → chipSelectsExist s →
    ∃ u, hostAccess (.write 4 0x030 v) s = .next u ∧ s.clk.Quiet u.clk ∧ memoryKept s u ∧
      hostAccess (.read 4 0x030) u = .next { u with rdata := v &&& 0x0001000F } ∧
      u = { s with pins := { s.pins with cs := (v &&& 0xF).setWidth 16, wp := v.getLsbD 16 }
                   trace := (((List.range 4).filter (fun l => s.pins.cs.getLsbD l ≠ v.getLsbD l)).map
                      (fun l => Event.cs l (v.getLsbD l)) ++
                    (if s.pins.wp = v.getLsbD 16 then [] else [Event.wp (v.getLsbD 16)])).reverse ++ s.trace
                   clk := u.clk }

/-- R37, R375: a read of TIME_LO gives TIME[31:0] and keeps TIME[63:32]; a later read of TIME_HI, with no read
of TIME_LO between, gives the other half of that same instant. -/
def Obligations.TimeReadsAsOne : Prop :=
  ∀ s : State, ∃ u, hostAccess (.read 4 0x038) s = .next u ∧
    u = { s with rdata := s.clk.time.setWidth 32, timeHiShadow := s.clk.time.extractLsb' 32 32 } ∧
    ∀ t : State, t.timeHiShadow = u.timeHiShadow →
      ∃ v, hostAccess (.read 4 0x03C) t = .next v ∧ v = { t with rdata := v.rdata } ∧ v.rdata ++ u.rdata = s.clk.time

/-- R88, R80, R76, R363: the accesses a model stops on. A host access is refused for a width other than 32 bits or an
unaligned offset, faults at an offset outside the window, and is refused at buffer RAM while the sequencer runs; that
the width is checked first, and the fault outside the window, are the model's choice (notes/assumptions/11.md). A
host read, START, RAWW and a decoder operation fault at a byte of RAM that they read and that was never written;
that a host read names the lowest such byte of its word is the model's choice (notes/assumptions/8.md), and which bytes
a decoder operation reads is the model's reading (notes/assumptions/17.md). -/
def Obligations.AccessesThatStop : Prop :=
  (∀ a n off (s : State), (n ≠ 4 ∨ off % 4 ≠ 0) → (a = .read n off ∨ ∃ v, a = .write n off v) →
    hostAccess a s = .refused .unalignedHostAccess) ∧
  (∀ a off (s : State), off % 4 = 0 → Config.windowBytes ≤ off → (a = .read 4 off ∨ ∃ v, a = .write 4 off v) →
    hostAccess a s = .fault (.outsideWindow off)) ∧
  (∀ a off (s : State), off % 4 = 0 → inBuffer off → s.fsm = .running →
    (a = .read 4 off ∨ ∃ v, a = .write 4 off v) → hostAccess a s = .refused .bufferAccessDuringRun) ∧
  (∀ (off j : Nat) (s : State), off % 4 = 0 → inSlots off ∨ (inBuffer off ∧ s.fsm ≠ .running) → j < 4 →
    written s.mem off j → s.mem.read (off + j) = none → hostAccess (.read 4 off) s = .fault (.unwrittenRam (off + j))) ∧
  (∀ (s : State) j, s.busy = false → s.runCfg.template.toNat < Config.numDesc → j < 4 →
    written s.mem (descOffset s.runCfg.template.toNat 0) j →
    s.mem.read (descOffset s.runCfg.template.toNat 0 + j) = none →
    exec .start s = .fault (.unwrittenRam (descOffset s.runCfg.template.toNat 0 + j))) ∧
  (∀ (s : State) j th, s.busy = false → s.runCfg.template.toNat < Config.numDesc →
    s.mem.header s.runCfg.template.toNat = .ok th → th.getLsbD 31 = true → s.runCfg.overrideEn = true →
    s.runCfg.override.toNat < Config.numDesc → j < 4 →
    written s.mem (descOffset s.runCfg.override.toNat 0) j →
    s.mem.read (descOffset s.runCfg.override.toNat 0 + j) = none →
    exec .start s = .fault (.unwrittenRam (descOffset s.runCfg.override.toNat 0 + j))) ∧
  (∀ (s : State) p slot i w j, s.busy = false → findPlan s.mem s.runCfg = .ok (some p) → p.length ≤ Config.maxSteps →
    s.runCfg.lun.toNat < s.dev.luns →
    (slot = p.template ∧ i < (p.th.extractLsb' 0 8).toNat) ∨
      (slot = p.override ∧ p.overrideEn = true ∧ i < (p.oh.extractLsb' 0 8).toNat) →
    w < 15 → w ≠ 3 → j < 4 → s.mem.read (descOffset slot (16 * (i + 1) + w) + j) = none →
    ∃ a, s.mem.read a = none ∧ exec .start s = .fault (.unwrittenRam a)) ∧
  (∀ i k t (s : State) n m, rawForm i = some (.write, k, t) → bufferFits s.dev s.xfer[k] = true →
    (s.phase = .begin ∧ pageOn16Bit s.dev s.xfer[k] = false ∧ rawReadyWait k t s ∧ s.eff.pre = false ∧
        n = min s.xfer[k].bufCap.toNat (resolveSize s.dev s.xfer[k]).toNat) ∨
      ((s.phase = .afterPre ∨ (s.phase = .afterPost ∧ s.eff.pre = false)) ∧
        n = min s.xfer[k].bufCap.toNat (s.xfer[k].intended.toNat - s.xfer[k].offset.toNat)) →
    m < s.dev.dataWidth.bytes * n → written s.mem s.xfer[k].bufferAt m →
    s.mem.read (s.xfer[k].bufferAt + m) = none →
    exec i s = .fault (.unwrittenRam (s.xfer[k].bufferAt + m))) ∧
  (∀ i op (s : State) lo hi j, decoderOp i = some op → ¬ refusedOp op s →
    (lo, hi) = (if op = 5 then (0, 256) else if op = 6 then (2, 5) else (0, s.dec.len.toNat)) →
    lo ≤ j → j < hi → written s.mem (s.operandAt + lo) (j - lo) → s.mem.read (s.operandAt + j) = none →
    exec i s = .fault (.unwrittenRam (s.operandAt + j)))

/-- R22, R23, R27, R28, R31 to R34, R36, R57, R330: a host read at a register's offset returns its word and changes
nothing else but, for TIME_LO, the shadow; the words of STATUS, PIN_STATUS, DEC_STATUS, EFF_LEN, BYTES and CUR_W0 to
CUR_W2 hold the fields at their places and 0 elsewhere, CTRL and DEC_CTRL read 0; and IRQ is high exactly while
STATUS.DONE and IRQ_EN.DONE_IE are, or STATUS.HOOK_PENDING and IRQ_EN.HOOK_IE are. -/
def Obligations.StatusWordsAndIrq : Prop :=
  (∀ (r : Reg) (s : State), hostAccess (.read 4 r.offset) s = .next { s with
    rdata := readReg s r
    timeHiShadow := if r = .timeLo then s.clk.time.extractLsb' 32 32 else s.timeHiShadow }) ∧
  ∀ (s : State) (st pin dec : Word), st = readReg s .status → pin = readReg s .pinStatus → dec = readReg s .decStatus →
    (st.getLsbD 0 = decide (s.fsm ≠ .idle) ∧ st.getLsbD 1 = s.status.done ∧
      st.getLsbD 2 = decide (s.fsm = .hookWait) ∧ st.getLsbD 3 = s.status.hookPost ∧
      st.getLsbD 4 = s.status.hookRaw ∧
      st.extractLsb' 8 3 = (match s.status.resp with
        | .ok => 0
        | .timeout => 1
        | .writeError => 2
        | .eccMismatch => 3
        | .notSupported => 4
        | .cmdInvalid => 5
        | .chainTooLong => 6) ∧
      st.extractLsb' 16 8 = s.status.step ∧ st &&& 0xFF00F8E0 = 0) ∧
    (pin.extractLsb' 0 16 = s.clk.rbSync ∧
      pin.extractLsb' 16 2 = (match s.pins.latch with
        | .neutral => 0
        | .cmd => 1
        | .addr => 2) ∧
      pin.getLsbD 18 = decide (s.pins.dir = .write) ∧ pin.getLsbD 19 = s.pins.weAct ∧
      pin.getLsbD 20 = s.pins.reAct ∧ pin &&& 0xFFE00000 = 0) ∧
    (dec.getLsbD 0 = s.dec.err ∧ dec.extractLsb' 4 3 = s.dec.lastOp ∧ dec &&& 0xFFFFFF8E = 0) ∧
    (readReg s .effLen = s.effLen.setWidth 32 ∧ readReg s .bytes = s.bytes ∧ readReg s .curW0 = s.cur.w0 ∧
      readReg s .curW1 = s.cur.w1 ∧ readReg s .curW2 = s.cur.w2 ∧ readReg s .ctrl = 0 ∧ readReg s .decCtrl = 0) ∧
    s.irq = ((st.getLsbD 1 && (readReg s .irqEn).getLsbD 0) || (st.getLsbD 2 && (readReg s .irqEn).getLsbD 1))

/-! ### Runs -/

/-- R26, R170, R181: a START while a run exists changes nothing; a CTRL write of 0x3 at a hook acknowledges it,
and its START is ignored. That neither takes a clock is the model's choice (notes/assumptions/6.md). -/
def Obligations.StartIgnoredWhileBusy : Prop :=
  (∀ s : State, s.busy = true → exec .start s = .next s) ∧
  (∀ s : State, s.fsm = .hookWait → hostAccess (.write 4 0x008 0x3) s = .next { s with fsm := .running })

/-- R170, R171, R172, R175, R118: an accepted START, every step of its chain being legal (`stepIllegal`, by W0, W1 and
the record's fields), clears DONE, RESP, STEP and BYTES, fills EFF with the merged
chain, asserts the target LUN's chip select, disables write protect and stands at step 0. That EFF keeps its old
entries past the chain is the model's choice (notes/assumptions/22.md); that STATUS keeps HOOK_POST and HOOK_RAW is
the model's reading (notes/assumptions/20.md); that CUR shows step 0 at once is its granularity
(notes/assumptions/14.md). -/
def Obligations.StartAccepted : Prop :=
  ∀ (s : State) (p : RunPlan) (chain : List StepEntry),
    s.busy = false → findPlan s.mem s.runCfg = .ok (some p) → p.length ≤ Config.maxSteps →
    s.runCfg.lun.toNat < s.dev.luns → mergeFrom s.mem p 0 p.length = .ok chain →
    (∀ e ∈ chain, ¬ stepIllegal s.dev s.xfer e) →
    ∃ u, exec .start s = .next u ∧ s.clk.Quiet u.clk ∧ memoryKept s u ∧
      u = { s with
        status := { s.status with done := false, resp := .ok, step := 0 }
        fsm := .running
        phase := .begin
        bytes := 0
        effLen := BitVec.ofNat 8 p.length
        eff := { steps := chain ++ s.eff.steps.drop chain.length, pre := p.preHook, post := p.postHook }
        cur := ((chain[0]?).map StepEntry.cur).getD s.cur
        pins := { s.pins with cs := setLine s.pins.cs s.runCfg.lun.toNat true, wp := false, weAct := false
                              reAct := false }
        trace := .strobesIdle :: .wp false :: .cs s.runCfg.lun.toNat true :: s.trace
        clk := u.clk }

/-- R171, R118, R173, R320, R323, R324, R334: the checks of a START in their order; a failing one ends the run with no
pin activity, BYTES 0 and STEP 0. Check 5 is `stepIllegal`, by W0, W1 and the record's fields: a defined step of KIND 7,
or of KIND 5 or 6 naming no record, or one whose buffer does not fit or is odd on a 16-bit bus; and it is exactly what
the model's validation and raw steps go by (`stepAcceptable`, `bufferFits`). That EFF keeps its old entries past the chain is the model's choice
(notes/assumptions/22.md); that STATUS keeps HOOK_POST and HOOK_RAW is the model's reading
(notes/assumptions/20.md). -/
def Obligations.StartRejected : Prop :=
  (∀ (d : Device) (xs : Vector XferRec Config.numXfer) (e : StepEntry),
    stepAcceptable d xs e = false ↔ stepIllegal d xs e) ∧
  (∀ (d : Device) (x : XferRec), bufferFits d x = true ↔ ¬ bufferMisplaced d x) ∧
  ∀ s : State, s.busy = false →
    (findPlan s.mem s.runCfg = .ok none →
      ∃ u, exec .start s = .next u ∧ s.clk.Quiet u.clk ∧
        u = { s with status := { s.status with done := true, resp := .cmdInvalid, step := 0 }
                     fsm := .idle, phase := .begin, bytes := 0, effLen := 0
                     trace := .finish .cmdInvalid 0 :: s.trace, clk := u.clk }) ∧
    (∀ p, findPlan s.mem s.runCfg = .ok (some p) → Config.maxSteps < p.length →
      ∃ u, exec .start s = .next u ∧ s.clk.Quiet u.clk ∧
        u = { s with status := { s.status with done := true, resp := .chainTooLong, step := 0 }
                     fsm := .idle, phase := .begin, bytes := 0, effLen := BitVec.ofNat 8 p.length
                     trace := .finish .chainTooLong 0 :: s.trace, clk := u.clk }) ∧
    (∀ p, findPlan s.mem s.runCfg = .ok (some p) → p.length ≤ Config.maxSteps → s.dev.luns ≤ s.runCfg.lun.toNat →
      ∃ u, exec .start s = .next u ∧ s.clk.Quiet u.clk ∧
        u = { s with status := { s.status with done := true, resp := .cmdInvalid, step := 0 }
                     fsm := .idle, phase := .begin, bytes := 0, effLen := BitVec.ofNat 8 p.length
                     trace := .finish .cmdInvalid 0 :: s.trace, clk := u.clk }) ∧
    (∀ p chain, findPlan s.mem s.runCfg = .ok (some p) → p.length ≤ Config.maxSteps →
      s.runCfg.lun.toNat < s.dev.luns → mergeFrom s.mem p 0 p.length = .ok chain →
      (∃ e ∈ chain, stepIllegal s.dev s.xfer e) →
      ∃ u, exec .start s = .next u ∧ s.clk.Quiet u.clk ∧
        u = { s with status := { s.status with done := true, resp := .cmdInvalid, step := 0 }
                     fsm := .idle, phase := .begin, bytes := 0, effLen := BitVec.ofNat 8 p.length
                     eff := { steps := chain ++ s.eff.steps.drop chain.length, pre := p.preHook, post := p.postHook }
                     trace := .finish .cmdInvalid 0 :: s.trace, clk := u.clk })

/-- R171 checks 1 and 2, R110, R363: the template's slot exists and its header is VALID, and so the override's
where one is enabled; else there is no plan; a header that was never written faults. -/
def Obligations.TemplateAndOverrideChecks : Prop :=
  ∀ (m : Memory) (c : RunCfg),
    (Config.numDesc ≤ c.template.toNat → findPlan m c = .ok none) ∧
    (c.template.toNat < Config.numDesc → m.read (descOffset c.template.toNat 0) = none →
      findPlan m c = .error (.unwrittenRam (descOffset c.template.toNat 0))) ∧
    (∀ th, c.template.toNat < Config.numDesc → m.header c.template.toNat = .ok th →
      (th.getLsbD 31 = false → findPlan m c = .ok none) ∧
      (th.getLsbD 31 = true → c.overrideEn = false →
        ∃ p, findPlan m c = .ok (some p) ∧ p.template = c.template.toNat ∧ p.th = th ∧ p.overrideEn = false) ∧
      (th.getLsbD 31 = true → c.overrideEn = true → Config.numDesc ≤ c.override.toNat → findPlan m c = .ok none) ∧
      (∀ oh, th.getLsbD 31 = true → c.overrideEn = true → c.override.toNat < Config.numDesc →
        m.header c.override.toNat = .ok oh →
        (oh.getLsbD 31 = false → findPlan m c = .ok none) ∧
        (oh.getLsbD 31 = true → findPlan m c = .ok (some ⟨c.template.toNat, th, true, c.override.toNat, oh⟩))))

/-- R172: the effective chain is the pointwise merge. Its length is the greater of the two LENGTHs, entry i is the
override's where that is defined or i is at or past the template's LENGTH, else the template's, an entry at or
past its own descriptor's LENGTH counts as 16 zero words, and the hook enables merge by OR. -/
def Obligations.MergePointwise : Prop :=
  ∀ (m : Memory) (p : RunPlan),
    p.length = (if p.overrideEn then max (p.th.extractLsb' 0 8).toNat (p.oh.extractLsb' 0 8).toNat
      else (p.th.extractLsb' 0 8).toNat) ∧
    (p.preHook = true ↔ p.th.getLsbD 8 = true ∨ (p.overrideEn = true ∧ p.oh.getLsbD 8 = true)) ∧
    (p.postHook = true ↔ p.th.getLsbD 9 = true ∨ (p.overrideEn = true ∧ p.oh.getLsbD 9 = true)) ∧
    (∀ chain, mergeFrom m p 0 p.length = .ok chain → chain.length = p.length ∧
      ∀ i, i < p.length → ∃ t o,
        (if i < (p.th.extractLsb' 0 8).toNat then m.stepEntry p.template i = .ok t else t = StepEntry.zero) ∧
        (if p.overrideEn = true ∧ i < (p.oh.extractLsb' 0 8).toNat then m.stepEntry p.override i = .ok o
          else o = StepEntry.zero) ∧
        chain[i]? = some (if p.overrideEn = true ∧ (o.w0.getLsbD 3 = true ∨ (p.th.extractLsb' 0 8).toNat ≤ i)
          then o else t))

/-- R176, R179, R337: past the last step the run de-asserts the target LUN's chip select and finishes Ok with the
running total; write protect and the other pins stay as they are. That this is a step of its
own is the model's granularity (notes/assumptions/14.md). -/
def Obligations.RunEndsOk : Prop :=
  ∀ s : State, s.resetIn = false → s.port = [] → s.fsm = .running → s.effLen.toNat ≤ s.status.step.toNat →
    ∃ u, step s = .next u ∧ s.clk.Quiet u.clk ∧ memoryKept s u ∧
      u = { s with status := { s.status with resp := .ok, done := true }, fsm := .idle, phase := .begin
                   pins := { s.pins with cs := setLine s.pins.cs s.runCfg.lun.toNat false }
                   trace := .finish .ok s.bytes :: .cs s.runCfg.lun.toNat false :: s.trace
                   clk := u.clk }

/-- R177, R214: a hole has no delay, raises no hook and records no event; the loop goes on to the next index.
That STEP moves on at the end of the step before is the model's granularity (notes/assumptions/14.md); that no clock
at all passes is the model's choice (notes/assumptions/6.md). -/
def Obligations.HoleSkipped : Prop :=
  ∀ s : State, exec .hole s = .next { s with status := { s.status with step := s.status.step + 1 }, phase := .begin
                                             cur := wordsShown s (s.status.step.toNat + 1) }

/-- R185: HOOK_ACK resumes a pending hook and changes nothing else; with no hook pending it does nothing. That no clock
passes is the model's choice (notes/assumptions/6.md). -/
def Obligations.HookAckReturns : Prop :=
  ∀ s : State,
    (s.hookPending = true → exec .hookAck s = .next { s with fsm := .running }) ∧
    (s.hookPending = false → exec .hookAck s = .next s)

/-- R26: DONE_CLR clears DONE while BUSY = 0 and is ignored otherwise. That no clock passes is the model's choice
(notes/assumptions/6.md). -/
def Obligations.DoneClrClears : Prop :=
  ∀ s : State,
    (s.busy = false → exec .doneClr s = .next { s with status := { s.status with done := false } }) ∧
    (s.busy = true → exec .doneClr s = .next s)

/-! ### Control steps -/

/-- R200 to R207, R176, R148, R149, R150: a control step (CMD, ADDR, ADDRC, ADDRR, ADDR1) whose wait answers OK
and whose chain has no hooks: its events in order, one count for each cycle, the pins it leaves, STEP at the next
index, and nothing else changed. That STEP moves on at the end of the step before is the model's granularity
(notes/assumptions/14.md), here and in the statements on steps below. -/
def Obligations.ControlStepCompletes : Prop :=
  ∀ (i : Instr) (m : Latch) (vs : List Half) (t : Timing) (s : State),
    controlForm s.dev i = some (m, vs, t) → s.phase = .begin → controlReadyWait m t s →
    s.eff.pre = false → s.eff.post = false →
    ∃ u, exec i s = .next u ∧ s.clk.Quiet u.clk ∧ memoryKept s u ∧
      u = { s with
        status := { s.status with step := s.status.step + 1 }
        cur := wordsShown s (s.status.step.toNat + 1)
        bytes := s.bytes + BitVec.ofNat 32 vs.length
        pins := Pins.afterWrites { s.pins with latch := .neutral, dir := .write } s.dev.controlWidth vs
        trace := (headEvents m t ++ readyEvents s t ++ delayEvents t.rdyPost ++
          cycleEvents s.dev.controlWidth vs ++ tailEvents t).reverse ++ s.trace
        clk := u.clk }

/-- R209, R210, R146, R335, R322: a control step whose wait times out: the waits up to and including the failing
one, the latch NEUTRAL, the disable delays, and the run over with Timeout and the BYTES so far; chip select, write
protect and STEP stay. -/
def Obligations.ControlStepTimesOut : Prop :=
  ∀ (i : Instr) (m : Latch) (vs : List Half) (t : Timing) (s : State),
    controlForm s.dev i = some (m, vs, t) → s.phase = .begin → ¬ controlReadyWait m t s →
    ∃ u ok p rest, exec i s = .next u ∧ s.clk.Quiet u.clk ∧ memoryKept s u ∧
      waitPlan s.dev s.runCfg.lun.toNat t.rdy t.rdyOther = ok ++ p :: rest ∧
      u = { s with
        status := { s.status with resp := .timeout, done := true }
        fsm := .idle
        pins := { s.pins with latch := .neutral }
        trace := (headEvents m t ++ okWaits ok ++ [Event.wait p.1 p.2 false, .latch .neutral] ++
          delayEvents t.ldPre ++ delayEvents t.ldPost ++ [Event.finish .timeout s.bytes]).reverse ++ s.trace
        clk := u.clk }

/-- R200, R182, R211, R212, R339: with EFF_PRE = 1 a control step stops in its pre-hook after its wait and its
READY_POST delay: the latch already in its mode, the direction as before, no cycle sent. -/
def Obligations.ControlStepPreHook : Prop :=
  ∀ (i : Instr) (m : Latch) (vs : List Half) (t : Timing) (s : State),
    controlForm s.dev i = some (m, vs, t) → s.phase = .begin → controlReadyWait m t s → s.eff.pre = true →
    ∃ u, exec i s = .next u ∧ s.clk.Quiet u.clk ∧ memoryKept s u ∧
      u = { s with
        status := { s.status with hookPost := false, hookRaw := false }
        fsm := .hookWait
        phase := .afterPre
        pins := { s.pins with latch := m }
        trace := (headEvents m t ++ readyEvents s t ++ delayEvents t.rdyPost ++
          [Event.hook .pre s.status.step false 0]).reverse ++ s.trace
        clk := u.clk }

/-- R200, R182, R211, R212, R339: with EFF_POST = 1 a control step stops in its post-hook after its last cycle and
before its latch disable, whether it comes from its beginning or from its pre-hook. -/
def Obligations.ControlStepPostHook : Prop :=
  ∀ (i : Instr) (m : Latch) (vs : List Half) (t : Timing) (s : State),
    controlForm s.dev i = some (m, vs, t) → s.eff.post = true →
    (s.phase = .begin → controlReadyWait m t s → s.eff.pre = false →
      ∃ u, exec i s = .next u ∧ s.clk.Quiet u.clk ∧ memoryKept s u ∧
        u = { s with
          status := { s.status with hookPost := true, hookRaw := false }
          fsm := .hookWait
          phase := .afterPost
          bytes := s.bytes + BitVec.ofNat 32 vs.length
          pins := Pins.afterWrites { s.pins with latch := m, dir := .write } s.dev.controlWidth vs
          trace := (headEvents m t ++ readyEvents s t ++ delayEvents t.rdyPost ++
            cycleEvents s.dev.controlWidth vs ++ [Event.hook .post s.status.step false 0]).reverse ++ s.trace
          clk := u.clk }) ∧
    (s.phase = .afterPre →
      ∃ u, exec i s = .next u ∧ s.clk.Quiet u.clk ∧ memoryKept s u ∧
        u = { s with
          status := { s.status with hookPost := true, hookRaw := false }
          fsm := .hookWait
          phase := .afterPost
          bytes := s.bytes + BitVec.ofNat 32 vs.length
          pins := Pins.afterWrites { s.pins with dir := .write } s.dev.controlWidth vs
          trace := (cycleEvents s.dev.controlWidth vs ++ [Event.hook .post s.status.step false 0]).reverse ++ s.trace
          clk := u.clk })

/-- R200, R339: after its pre-hook a control step sends its cycles and ends; after its post-hook it releases its
latch and ends. -/
def Obligations.ControlStepResumes : Prop :=
  ∀ (i : Instr) (m : Latch) (vs : List Half) (t : Timing) (s : State),
    controlForm s.dev i = some (m, vs, t) →
    (s.phase = .afterPre → s.eff.post = false →
      ∃ u, exec i s = .next u ∧ s.clk.Quiet u.clk ∧ memoryKept s u ∧
        u = { s with
          status := { s.status with step := s.status.step + 1 }
          phase := .begin
          cur := wordsShown s (s.status.step.toNat + 1)
          bytes := s.bytes + BitVec.ofNat 32 vs.length
          pins := Pins.afterWrites { s.pins with latch := .neutral, dir := .write } s.dev.controlWidth vs
          trace := (cycleEvents s.dev.controlWidth vs ++ tailEvents t).reverse ++ s.trace
          clk := u.clk }) ∧
    (s.phase = .afterPost →
      ∃ u, exec i s = .next u ∧ s.clk.Quiet u.clk ∧ memoryKept s u ∧
        u = { s with
          status := { s.status with step := s.status.step + 1 }
          phase := .begin
          cur := wordsShown s (s.status.step.toNat + 1)
          pins := { s.pins with latch := .neutral }
          trace := (tailEvents t).reverse ++ s.trace
          clk := u.clk })

/-- R203, R202, R204, R205: cycle j of an address carries byte j of its value, the least significant first, and
0x00 from the fifth on; ADDR sends the column's cycles and then the row's. -/
def Obligations.AddressBytes : Prop :=
  ∀ (d : Device) (col row : Word) (t : Timing),
    ∃ vs, controlForm d (.addr col row t) = some (.addr, vs, t) ∧
      controlForm d (.addrc col t) = some (.addr, vs.take d.colCycles.toNat, t) ∧
      controlForm d (.addrr row t) = some (.addr, vs.drop d.colCycles.toNat, t) ∧
      vs.length = d.colCycles.toNat + d.rowCycles.toNat ∧
      (∀ j, j < d.colCycles.toNat →
        vs[j]? = some (if j < 4 then BitVec.ofNat 16 (col.toNat / 2 ^ (8 * j) % 256) else 0)) ∧
      (∀ j, j < d.rowCycles.toNat → vs[d.colCycles.toNat + j]? =
        some (if j < 4 then BitVec.ofNat 16 (row.toNat / 2 ^ (8 * j) % 256) else 0))

/-- R208: a control step that ends OK adds to BYTES 1 for CMD and ADDR1, COL + ROW for ADDR, COL for ADDRC and
ROW for ADDRR. -/
def Obligations.ControlStepBytes : Prop :=
  ∀ (i : Instr) (m : Latch) (vs : List Half) (t : Timing) (s : State),
    controlForm s.dev i = some (m, vs, t) → s.phase = .begin → controlReadyWait m t s →
    s.eff.pre = false → s.eff.post = false →
    ∃ u, exec i s = .next u ∧ u.bytes = s.bytes + BitVec.ofNat 32 (match i with
      | .addr _ _ _ => s.dev.colCycles.toNat + s.dev.rowCycles.toNat
      | .addrc _ _ => s.dev.colCycles.toNat
      | .addrr _ _ => s.dev.rowCycles.toNat
      | _ => 1)

/-! ### Raw steps -/

/-- R233, R247: the size a raw step resolves; PAGE on a 16-bit data bus is refused. That the model refuses the raw step
that resolves it, and not the run at its START, is its choice (notes/assumptions/10.md). -/
def Obligations.RawSizes : Prop :=
  (∀ (d : Device) (x : XferRec),
    (x.intended ≠ 0xFFFFFFFF#32 → x.intended ≠ 0xFFFFFFFE#32 → resolveSize d x = x.intended) ∧
    (x.intended = 0xFFFFFFFF#32 → (x.hint = 0 ∨ x.hint = 0xFFFFFFFF#32) → resolveSize d x = 0) ∧
    (x.intended = 0xFFFFFFFF#32 → x.hint ≠ 0 → x.hint ≠ 0xFFFFFFFF#32 → x.hint ≠ 0xFFFFFFFE#32 →
      resolveSize d x = x.hint) ∧
    ((x.intended = 0xFFFFFFFE#32 ∨ (x.intended = 0xFFFFFFFF#32 ∧ x.hint = 0xFFFFFFFE#32)) →
      resolveSize d x = d.pageBytes + d.spareBytes.setWidth 32)) ∧
  (∀ i d k t s, rawForm i = some (d, k, t) → s.phase = .begin → s.dev.dataW16 = true →
    (s.xfer[k].intended = 0xFFFFFFFE#32 ∨ (s.xfer[k].intended = 0xFFFFFFFF#32 ∧ s.xfer[k].hint = 0xFFFFFFFE#32)) →
    exec i s = .refused .pageSizeOn16BitBus)

/-- R234: a resolved size of 0 makes a raw step a no-op but for its PRE_DELAY, its POST_DELAY, the size written
back and HOOK_XFER. That STEP and CUR move on in this step is the model's granularity (notes/assumptions/14.md). -/
def Obligations.RawSizeZero : Prop :=
  ∀ (i : Instr) (d : Dir) (k : Fin Config.numXfer) (t : Timing) (s : State),
    rawForm i = some (d, k, t) → s.phase = .begin → pageOn16Bit s.dev s.xfer[k] = false →
    resolveSize s.dev s.xfer[k] = 0 →
    ∃ u, exec i s = .next u ∧ s.clk.Quiet u.clk ∧ memoryKept s u ∧
      u = { s with
        status := { s.status with step := s.status.step + 1 }
        cur := wordsShown s (s.status.step.toNat + 1)
        hookXfer := BitVec.ofNat 3 k.val
        xfer := s.xfer.set k { s.xfer[k] with intended := 0 }
        trace := (delayEvents t.pre ++ delayEvents t.post).reverse ++ s.trace
        clk := u.clk }

/-- R241: with BUF_CAP = 0 a raw step does its latch, its wait and its READY_POST delay, sends no cycle and raises
no hook; OFFSET and CHUNK_SEQ are 0. That STEP and CUR move on in this step is the model's granularity
(notes/assumptions/14.md). -/
def Obligations.RawNoBuffer : Prop :=
  ∀ (i : Instr) (d : Dir) (k : Fin Config.numXfer) (t : Timing) (s : State),
    rawForm i = some (d, k, t) → s.phase = .begin → pageOn16Bit s.dev s.xfer[k] = false →
    resolveSize s.dev s.xfer[k] ≠ 0 → s.xfer[k].bufCap = 0 → rawReadyWait k t s →
    ∃ u, exec i s = .next u ∧ s.clk.Quiet u.clk ∧ memoryKept s u ∧
      u = { s with
        status := { s.status with step := s.status.step + 1 }
        cur := wordsShown s (s.status.step.toNat + 1)
        hookXfer := BitVec.ofNat 3 k.val
        xfer := s.xfer.set k { s.xfer[k] with
          intended := resolveSize s.dev s.xfer[k], offset := 0, chunkSeq := 0 }
        pins := { s.pins with latch := .neutral }
        trace := (headEvents .neutral t ++ readyEvents s t ++ delayEvents t.rdyPost ++
          delayEvents t.post).reverse ++ s.trace
        clk := u.clk }

/-- R236, R209, R335: a raw step whose wait times out: the run over with Timeout and the BYTES so far, the cursors
at 0 and the resolved size kept. -/
def Obligations.RawTimesOut : Prop :=
  ∀ (i : Instr) (d : Dir) (k : Fin Config.numXfer) (t : Timing) (s : State),
    rawForm i = some (d, k, t) → s.phase = .begin → pageOn16Bit s.dev s.xfer[k] = false →
    resolveSize s.dev s.xfer[k] ≠ 0 → ¬ rawReadyWait k t s →
    ∃ u ok p rest, exec i s = .next u ∧ s.clk.Quiet u.clk ∧ memoryKept s u ∧
      waitPlan s.dev s.runCfg.lun.toNat t.rdy t.rdyOther = ok ++ p :: rest ∧
      u = { s with
        status := { s.status with resp := .timeout, done := true }
        fsm := .idle
        hookXfer := BitVec.ofNat 3 k.val
        xfer := s.xfer.set k { s.xfer[k] with
          intended := resolveSize s.dev s.xfer[k], offset := 0, chunkSeq := 0 }
        pins := { s.pins with latch := .neutral }
        trace := (headEvents .neutral t ++ okWaits ok ++ [Event.wait p.1 p.2 false, .latch .neutral] ++
          delayEvents t.ldPre ++ delayEvents t.ldPost ++ [Event.finish .timeout s.bytes]).reverse ++ s.trace
        clk := u.clk }

/-- R230, R231, R235, R237, R238, R243, R244: RAWW without hooks sends the whole size in chunks of the buffer's
capacity, each from element 0 of the buffer, one cycle and one count an element; OFFSET ends at the size and
CHUNK_SEQ at the number of chunks; LAST_CHUNK and the RAMs are unchanged. -/
def Obligations.RawwStreams : Prop :=
  ∀ (i : Instr) (k : Fin Config.numXfer) (t : Timing) (s : State) (size : Word) (cap : Nat) (w : Width)
      (lens : List Nat),
    rawForm i = some (.write, k, t) → s.phase = .begin → s.eff.pre = false → s.eff.post = false →
    pageOn16Bit s.dev s.xfer[k] = false → size = resolveSize s.dev s.xfer[k] → size ≠ 0 →
    cap = s.xfer[k].bufCap.toNat → cap ≠ 0 → w = s.dev.dataWidth → lens = chunkLengths cap size.toNat →
    bufferFits s.dev s.xfer[k] = true →
    written s.mem s.xfer[k].bufferAt (w.bytes * min cap size.toNat) → rawReadyWait k t s →
    ∃ u elems, exec i s = .next u ∧ s.clk.Quiet u.clk ∧ memoryKept s u ∧
      readElems s.mem s.xfer[k].bufBase w (min cap size.toNat) = .ok elems ∧
      u = { s with
        status := { s.status with step := s.status.step + 1 }
        cur := wordsShown s (s.status.step.toNat + 1)
        bytes := s.bytes + size
        hookXfer := BitVec.ofNat 3 k.val
        xfer := s.xfer.set k { s.xfer[k] with
          intended := size, offset := size, chunkSeq := BitVec.ofNat 32 lens.length }
        pins := Pins.afterWrites { s.pins with latch := .neutral, dir := .write } w
          (lens.flatMap (fun n => elems.take n))
        trace := (headEvents .neutral t ++ readyEvents s t ++ delayEvents t.rdyPost ++
          lens.flatMap (fun n => cycleEvents w (elems.take n)) ++ delayEvents t.post).reverse ++ s.trace
        clk := u.clk }

/-- R230, R232, R235, R237, R238, R242, R243, R244: RAWR without hooks reads the whole size in chunks of the
buffer's capacity, each into the buffer from element 0, one cycle and one count an element; the values are the
device's answers in order, where its script has as many (notes/assumptions/5.md); LAST_CHUNK ends at the last chunk's
length; no byte outside the buffer's used part changes. -/
def Obligations.RawrStreams : Prop :=
  ∀ (i : Instr) (k : Fin Config.numXfer) (t : Timing) (s : State) (size : Word) (cap : Nat) (w : Width)
      (lens : List Nat),
    rawForm i = some (.read, k, t) → s.phase = .begin → s.eff.pre = false → s.eff.post = false →
    pageOn16Bit s.dev s.xfer[k] = false → size = resolveSize s.dev s.xfer[k] → size ≠ 0 →
    cap = s.xfer[k].bufCap.toNat → cap ≠ 0 → w = s.dev.dataWidth → lens = chunkLengths cap size.toNat →
    bufferFits s.dev s.xfer[k] = true → rawReadyWait k t s →
    ∃ u vs, exec i s = .next u ∧ s.clk.Later u.clk ∧ vs.length = size.toNat ∧ (∀ v ∈ vs, w.clip v = v) ∧
      (∀ answers rest, s.clk.env.dq = answers ++ rest → answers.length = size.toNat →
        vs = answers.map w.clip ∧ u.clk.env.dq = rest) ∧
      memoryKeptOutside s.xfer[k].bufferAt (w.bytes * min cap size.toNat) s u ∧
      u = { s with
        status := { s.status with step := s.status.step + 1 }
        cur := wordsShown s (s.status.step.toNat + 1)
        bytes := s.bytes + size
        hookXfer := BitVec.ofNat 3 k.val
        xfer := s.xfer.set k { s.xfer[k] with
          intended := size, offset := size, chunkSeq := BitVec.ofNat 32 lens.length
          lastChunk := BitVec.ofNat 32 (size.toNat - cap * ((size.toNat - 1) / cap)) }
        pins := { s.pins with latch := .neutral, dir := .read, reAct := false }
        mem := (cutInto lens vs).foldl (fun m c => storeElems m s.xfer[k].bufBase w c) s.mem
        trace := (headEvents .neutral t ++ readyEvents s t ++ delayEvents t.rdyPost ++
          (cutInto lens vs).flatMap (fun c => Event.dir .read :: c.map (fun v => Event.rcyc w v)) ++
          delayEvents t.post).reverse ++ s.trace
        clk := u.clk }

/-- R237, R244, R84: one chunk of a raw step in either direction: as many cycles as elements, OFFSET advanced by
the chunk's length, and for RAWR the elements stored from element 0 and LAST_CHUNK the length. -/
def Obligations.ChunkMoves : Prop :=
  ∀ (k : Fin Config.numXfer) (t : Timing) (s : State) (w : Width) (n : Nat),
    w = s.dev.dataWidth → n = min s.xfer[k].bufCap.toNat (s.xfer[k].intended.toNat - s.xfer[k].offset.toNat) →
    bufferFits s.dev s.xfer[k] = true →
    (written s.mem s.xfer[k].bufferAt (w.bytes * n) →
      ∃ u elems, moveChunk .write k t s = .ok u ∧ s.clk.Quiet u.clk ∧ memoryKept s u ∧ elems.length = n ∧
        (∀ j, j < n → ∃ lo, s.mem.read (s.xfer[k].bufferAt + w.bytes * j) = some lo ∧
          (w = .w8 → elems[j]? = some (lo.setWidth 16)) ∧
          (w = .w16 → ∃ hi, s.mem.read (s.xfer[k].bufferAt + 2 * j + 1) = some hi ∧ elems[j]? = some (hi ++ lo))) ∧
        u = { s with
          bytes := s.bytes + BitVec.ofNat 32 n
          xfer := s.xfer.set k { s.xfer[k] with offset := s.xfer[k].offset + BitVec.ofNat 32 n }
          pins := Pins.afterWrites { s.pins with dir := .write } w elems
          trace := (cycleEvents w elems).reverse ++ s.trace
          clk := u.clk }) ∧
    (∃ (u : State) (vs : List Half), moveChunk .read k t s = .ok u ∧ s.clk.Later u.clk ∧ vs.length = n ∧
      memoryKeptOutside s.xfer[k].bufferAt (w.bytes * n) s u ∧
      (∀ j, j < n → ∃ v, vs[j]? = some v ∧
        u.mem.read (s.xfer[k].bufferAt + w.bytes * j) = some (v.setWidth 8) ∧
        (w = .w16 → u.mem.read (s.xfer[k].bufferAt + 2 * j + 1) = some ((v >>> 8).setWidth 8))) ∧
      u = { s with
        bytes := s.bytes + BitVec.ofNat 32 n
        xfer := s.xfer.set k { s.xfer[k] with
          offset := s.xfer[k].offset + BitVec.ofNat 32 n, lastChunk := BitVec.ofNat 32 n }
        pins := { s.pins with dir := .read, reAct := if n = 0 then s.pins.reAct else false }
        mem := u.mem
        trace := (Event.dir .read :: vs.map (fun v => Event.rcyc w v)).reverse ++ s.trace
        clk := u.clk })

/-- R230, R237, R248: the first hook of a raw step that moves something: with EFF_PRE = 1 before its first chunk,
with cursors 0 and no cycle sent; with EFF_POST = 1 alone after its first chunk. -/
def Obligations.RawFirstHook : Prop :=
  ∀ (i : Instr) (d : Dir) (k : Fin Config.numXfer) (t : Timing) (s : State),
    rawForm i = some (d, k, t) → s.phase = .begin → pageOn16Bit s.dev s.xfer[k] = false →
    resolveSize s.dev s.xfer[k] ≠ 0 → s.xfer[k].bufCap ≠ 0 → rawReadyWait k t s →
    ∃ z, s.clk.Quiet z.clk ∧
      z = { s with
        hookXfer := BitVec.ofNat 3 k.val
        xfer := s.xfer.set k { s.xfer[k] with
          intended := resolveSize s.dev s.xfer[k], offset := 0, chunkSeq := 0 }
        pins := { s.pins with latch := .neutral }
        trace := (headEvents .neutral t ++ readyEvents s t ++ delayEvents t.rdyPost).reverse ++ s.trace
        clk := z.clk } ∧
      (s.eff.pre = true → ∃ u, exec i s = .next u ∧ z.clk.Quiet u.clk ∧ memoryKept s u ∧
        u = { z with
          status := { s.status with hookPost := false, hookRaw := true }
          fsm := .hookWait
          phase := .afterPre
          trace := .hook .pre s.status.step true 0 :: z.trace
          clk := u.clk }) ∧
      (s.eff.pre = false → s.eff.post = true → ∀ y, moveChunk d k t z = .ok y →
        ∃ u, exec i s = .next u ∧ y.clk.Quiet u.clk ∧ memoryKept y u ∧
          u = { y with
            status := { y.status with hookPost := true, hookRaw := true }
            fsm := .hookWait
            phase := .afterPost
            trace := .hook .post y.status.step true 0 :: y.trace
            clk := u.clk })

/-- R237, R239, R248: after a raw pre-hook. Where the size is no longer above OFFSET the step ends at once, with no
cycle and no hook; else the chunk moves, and the post-hook follows, or, with EFF_POST = 0, CHUNK_SEQ grows and the
step ends or stops in the next chunk's pre-hook. -/
def Obligations.RawAfterPreHook : Prop :=
  ∀ (i : Instr) (d : Dir) (k : Fin Config.numXfer) (t : Timing) (s : State),
    rawForm i = some (d, k, t) → s.phase = .afterPre →
    (s.xfer[k].intended.toNat ≤ s.xfer[k].offset.toNat →
      ∃ u, exec i s = .next u ∧ s.clk.Quiet u.clk ∧ memoryKept s u ∧
        u = { s with
          status := { s.status with step := s.status.step + 1 }
          phase := .begin
          cur := wordsShown s (s.status.step.toNat + 1)
          trace := (delayEvents t.post).reverse ++ s.trace
          clk := u.clk }) ∧
    (∀ y, s.xfer[k].offset.toNat < s.xfer[k].intended.toNat → moveChunk d k t s = .ok y →
      (s.eff.post = true → ∃ u, exec i s = .next u ∧ y.clk.Quiet u.clk ∧ memoryKept y u ∧
        u = { y with
          status := { y.status with hookPost := true, hookRaw := true }
          fsm := .hookWait
          phase := .afterPost
          trace := .hook .post y.status.step true y.xfer[k].chunkSeq :: y.trace
          clk := u.clk }) ∧
      (s.eff.post = false → s.eff.pre = true → y.xfer[k].exhausted = true →
        ∃ u, exec i s = .next u ∧ y.clk.Quiet u.clk ∧ memoryKept y u ∧
          u = { y with
            status := { y.status with step := y.status.step + 1 }
            phase := .begin
            cur := wordsShown y (y.status.step.toNat + 1)
            xfer := y.xfer.set k { y.xfer[k] with chunkSeq := y.xfer[k].chunkSeq + 1 }
            trace := (delayEvents t.post).reverse ++ y.trace
            clk := u.clk }) ∧
      (s.eff.post = false → s.eff.pre = true → y.xfer[k].exhausted = false →
        ∃ u, exec i s = .next u ∧ y.clk.Quiet u.clk ∧ memoryKept y u ∧
          u = { y with
            status := { y.status with hookPost := false, hookRaw := true }
            fsm := .hookWait
            phase := .afterPre
            xfer := y.xfer.set k { y.xfer[k] with chunkSeq := y.xfer[k].chunkSeq + 1 }
            trace := .hook .pre y.status.step true (y.xfer[k].chunkSeq + 1) :: y.trace
            clk := u.clk }))

/-- R237, R248, R185: after a raw post-hook CHUNK_SEQ grows by 1; then the step ends where nothing is left to move,
or stops in the next chunk's pre-hook, or, with EFF_PRE = 0, moves the next chunk and stops in its post-hook. -/
def Obligations.RawAfterPostHook : Prop :=
  ∀ (i : Instr) (d : Dir) (k : Fin Config.numXfer) (t : Timing) (s z : State),
    rawForm i = some (d, k, t) → s.phase = .afterPost →
    z = { s with xfer := s.xfer.set k { s.xfer[k] with chunkSeq := s.xfer[k].chunkSeq + 1 } } →
    (s.xfer[k].exhausted = true →
      ∃ u, exec i s = .next u ∧ s.clk.Quiet u.clk ∧ memoryKept s u ∧
        u = { z with
          status := { s.status with step := s.status.step + 1 }
          phase := .begin
          cur := wordsShown s (s.status.step.toNat + 1)
          trace := (delayEvents t.post).reverse ++ s.trace
          clk := u.clk }) ∧
    (s.xfer[k].exhausted = false → s.eff.pre = true →
      ∃ u, exec i s = .next u ∧ s.clk.Quiet u.clk ∧ memoryKept s u ∧
        u = { z with
          status := { s.status with hookPost := false, hookRaw := true }
          fsm := .hookWait
          phase := .afterPre
          trace := .hook .pre s.status.step true (s.xfer[k].chunkSeq + 1) :: s.trace
          clk := u.clk }) ∧
    (s.xfer[k].exhausted = false → s.eff.pre = false → s.eff.post = true → ∀ y, moveChunk d k t z = .ok y →
      ∃ u, exec i s = .next u ∧ y.clk.Quiet u.clk ∧ memoryKept y u ∧
        u = { y with
          status := { y.status with hookPost := true, hookRaw := true }
          fsm := .hookWait
          phase := .afterPost
          trace := .hook .post y.status.step true y.xfer[k].chunkSeq :: y.trace
          clk := u.clk })

/-- R118, R171, R320: a defined step of KIND 7, and a raw step that names no record, end the run with CmdInvalid and
zero progress. Validation meets them at START; that they do the same where a step of that kind is met in a chain
is the model's reading (notes/assumptions/15.md). -/
def Obligations.IllegalStepsEndRun : Prop :=
  ∀ (i : Instr) (s : State),
    (i = .illegalKind7 ∨ ∃ k t, (i = .raww k t ∨ i = .rawr k t) ∧ Config.numXfer ≤ k.toNat) →
    ∃ u, exec i s = .next u ∧ s.clk.Quiet u.clk ∧ memoryKept s u ∧
      u = { s with
        status := { s.status with resp := .cmdInvalid, done := true, step := 0 }
        fsm := .idle
        phase := .begin
        bytes := 0
        trace := .finish .cmdInvalid 0 :: s.trace
        clk := u.clk }

/-! ### The decoder unit -/

/-- R260, R376: a refused operation sets ERR, LAST_OP and DEC_RESULT = 0 and changes nothing else. -/
def Obligations.DecoderRefuses : Prop :=
  ∀ (i : Instr) (op : BitVec 3) (s : State), decoderOp i = some op → refusedOp op s →
    ∃ u, exec i s = .next u ∧ s.clk.Quiet u.clk ∧ memoryKept s u ∧
      u = { s with dec := { s.dec with lastOp := op, err := true, result := 0 }, clk := u.clk }

/-- R261: DDRCHK. -/
def Obligations.DdrchkResult : Prop :=
  ∀ s : State, ¬ refusedOp 1 s → written s.mem s.operandAt s.dec.len.toNat →
    ∃ u bs r, exec .ddrchk s = .next u ∧ s.mem.bytes s.operandAt s.dec.len.toNat = .ok bs ∧ s.clk.Quiet u.clk ∧
      memoryKept s u ∧ (IsDdr bs → r = 1) ∧ (¬ IsDdr bs → r = 0) ∧
      u = { s with dec := { s.dec with lastOp := 1, err := false, result := r }, clk := u.clk }

/-- R262: DDRFOLD. -/
def Obligations.DdrfoldResult : Prop :=
  ∀ (filler : Byte) (s : State) (n : Nat), n = s.dec.len.toNat → ¬ refusedOp 2 s → written s.mem s.operandAt n →
    ∃ u, exec (.ddrfold filler) s = .next u ∧ s.clk.Quiet u.clk ∧ memoryKeptOutside s.operandAt n s u ∧
      (∀ j, j < n → u.mem.read (s.operandAt + j) =
        if j < (n + 1) / 2 then s.mem.read (s.operandAt + 2 * j) else some filler) ∧
      u = { s with dec := { s.dec with lastOp := 2, err := false, result := BitVec.ofNat 32 ((n + 1) / 2) }
                   mem := u.mem, clk := u.clk }

/-- R263: PATLEN. -/
def Obligations.PatlenResult : Prop :=
  ∀ (minPeriod : Byte) (s : State), ¬ refusedOp 3 s → written s.mem s.operandAt s.dec.len.toNat →
    ∃ u bs p, exec (.patlen minPeriod) s = .next u ∧ s.mem.bytes s.operandAt s.dec.len.toNat = .ok bs ∧
      s.clk.Quiet u.clk ∧ memoryKept s u ∧ IsPatternLength bs minPeriod.toNat p ∧
      u = { s with dec := { s.dec with lastOp := 3, err := false, result := BitVec.ofNat 32 p }, clk := u.clk }

/-- R264, R265, R50, R51: IDEXT. -/
def Obligations.IdextResult : Prop :=
  ∀ (dest : Bool) (s : State) (n : Nat), n = s.dec.len.toNat → ¬ refusedOp 4 s → written s.mem s.operandAt n →
    ∃ u bs cand len, exec (.idext dest) s = .next u ∧ s.mem.bytes s.operandAt n = .ok bs ∧ s.clk.Quiet u.clk ∧
      (IsDdr bs → IsFoldOf cand bs) ∧ (¬ IsDdr bs → cand = bs) ∧ IsPatternLength cand 4 len ∧
      memoryKeptOutside s.operandAt n s u ∧
      (∀ j, j < n → u.mem.read (s.operandAt + j) = if j < len then cand[j]? else some 0) ∧
      u = { s with
        dec := { s.dec with lastOp := 4, err := false, result := BitVec.ofNat 32 len }
        dev := if dest = true
          then { s.dev with sigLen := BitVec.ofNat 8 (min len 255), sigBytes0 := idWordAt cand len 0
                            sigBytes1 := idWordAt cand len 4 }
          else { s.dev with idLen := BitVec.ofNat 8 (min len 255), idBytes0 := idWordAt cand len 0
                            idBytes1 := idWordAt cand len 4 }
        mem := u.mem
        clk := u.clk }

/-- R290, R291, R293: ONFIDEC, by the registers the host reads after it; the operand may be longer than 256 bytes. The
CRC is the one of R293: 0x4F4E for no bytes, and for one byte more eight steps of the register. -/
def Obligations.OnfidecResult : Prop :=
  (crc16 [] = 0x4F4E ∧ ∀ (bs : List Byte) (b : Byte), crc16 (bs ++ [b]) =
    (fun c : Half => if c.getLsbD 15 = true then (c <<< 1) ^^^ 0x8005 else c <<< 1)^[8]
      (crc16 bs ^^^ (b.setWidth 16 <<< 8))) ∧
  ∀ s : State, ¬ refusedOp 5 s → written s.mem s.operandAt 256 →
    ∃ u page, exec .onfidec s = .next u ∧ s.mem.bytes s.operandAt 256 = .ok page ∧ s.clk.Quiet u.clk ∧
      memoryKept s u ∧
      readReg u .geoPageBytes = pageWord page 80 ∧ readReg u .geoSpareBytes = (pageHalf page 84).setWidth 32 ∧
      readReg u .geoPagesPerBlock = pageWord page 92 ∧ readReg u .geoBlocksPerLun = pageWord page 96 ∧
      readReg u .geoMisc = wordOfBytes (pageByte page 100) (pageByte page 102) (pageByte page 110) 0 ∧
      readReg u .geoCycles = (pageByte page 101).setWidth 32 ∧
      readReg u .geoBadBlocks = (pageHalf page 103).setWidth 32 ∧
      readReg u .onfiRevFeat = pageHalf page 6 ++ pageHalf page 4 ∧
      readReg u .onfiTiming = pageHalf page 254 ++ pageHalf page 129 ∧
      readReg u .onfiCheck = crc16 (page.take 254) ++ (readReg u .decResult).setWidth 16 ∧
      readReg u .decResult = (ofBit 32 (decide (page.take 4 = [0x4F, 0x4E, 0x46, 0x49])) |||
        ofBit 32 (decide (crc16 (page.take 254) = pageHalf page 254)) <<< 1) ∧
      (∀ r, r.code ≠ .ro → r ∉ [Reg.geoPageBytes, .geoSpareBytes, .geoPagesPerBlock, .geoBlocksPerLun, .geoCycles,
        .geoMisc, .geoBadBlocks] → readReg u r = readReg s r) ∧
      u = { s with dec := { s.dec with lastOp := 5, err := false, result := u.dec.result }
                   dev := u.dev, onfi := u.onfi, clk := u.clk }

/-- R300, R301, R302: VIDDEC, by the registers the host reads after it, from bytes 2, 3 and 4 of the operand. -/
def Obligations.ViddecResult : Prop :=
  ∀ (s : State) (b2 b3 b4 : Byte), ¬ refusedOp 6 s → s.mem.read (s.operandAt + 2) = some b2 →
    s.mem.read (s.operandAt + 3) = some b3 → s.mem.read (s.operandAt + 4) = some b4 →
    ∃ u, exec .viddec s = .next u ∧ s.clk.Quiet u.clk ∧ memoryKept s u ∧
      readReg u .vid0 = BitVec.ofNat 32 (2 ^ (b2.toNat % 4) + 2 * 2 ^ (b2.toNat / 4 % 4) * 2 ^ 8 +
        2 ^ (b2.toNat / 16 % 4) * 2 ^ 16 + (b2.toNat / 64) * 2 ^ 24) ∧
      readReg u .vid1 = BitVec.ofNat 32 (1024 * 2 ^ (b3.toNat % 4)) ∧
      readReg u .vid2 = BitVec.ofNat 32 (65536 * 2 ^ (b3.toNat / 16 % 4)) ∧
      readReg u .vid3 = BitVec.ofNat 32 ((if b3.toNat / 64 % 2 = 1 then 16 else 8) +
        2 ^ (b4.toNat / 4 % 4) * 2 ^ 8 +
        (8388608 * 2 ^ (b4.toNat / 16 % 8)) / (65536 * 2 ^ (b3.toNat / 16 % 4)) * 2 ^ 16) ∧
      u = { s with dec := { s.dec with lastOp := 6, err := false, result := 1 }, vid := u.vid, clk := u.clk }

/-! ### The machine -/

/-- R31, R60, R176, R96, R26, R55: a step runs the decoded instruction. RUNNING, it is the one whose sixteen words
stand at EFF[STATUS.STEP], whatever is still on its way from the host. An access that arrives from the host is
performed one clock edge later: a word written to DEC_CTRL runs the operation it decodes to, and a word written to CTRL
runs the commands whose bits are set, DONE_CLR first, then HOOK_ACK, then START, none where no bit is. That an access
lands between two steps of the chain is the model's granularity (notes/assumptions/7.md and 12.md). -/
def Obligations.StepRunsDecoded : Prop :=
  (∀ (s : State) (i : Instr), s.resetIn = false → s.fsm = .running → s.status.step.toNat < s.effLen.toNat →
    decode .stepEntry s.fetched.bytes = .ok i →
    (s.port = [] → step s = exec i s) ∧
    (∀ n x rest, s.port = (n + 1, x) :: rest → step s = exec i { s with port := (n, x) :: rest })) ∧
  (∀ (s : State) (a : HostAccess) rest, s.resetIn = false → s.port = (0, .access a) :: rest →
    step s = hostAccess a (tickOnce { s with port := rest })) ∧
  (∀ (s : State) (i : Instr) (v : Word), decode .decCtrl (bytesOfWord v) = .ok i →
    hostAccess (.write 4 0x090 v) s = exec i s) ∧
  (∀ (s : State) (i : Instr) (v : Word), decode .ctrl (bytesOfWord v) = .ok i →
    hostAccess (.write 4 0x008 v) s = exec i s) ∧
  (∀ (s : State) (v : Word), ∃ x y : State,
    (if v.getLsbD 2 = true then exec .doneClr s = .next x else x = s) ∧
    (if v.getLsbD 1 = true then exec .hookAck x = .next y else y = x) ∧
    hostAccess (.write 4 0x008 v) s = if v.getLsbD 0 = true then exec .start y else .next y)

/-- R360, R361: what the host reads after reset, and the hidden state: IDLE, no hook, IRQ low, the synchronizers
busy, no byte of RAM with a value. RESET brings it about from any state, with no FINISH event, also in the middle of a
step of the chain, of which the trace then keeps the events so far; while it is asserted the state stays so and host
accesses are ignored; when it is de-asserted the NCS goes on from there. A raw step that would end in a fault or a
refusal is abandoned like any other where RESET comes before it gets there: in its delays and its ready wait, and with
PAGE on a 16-bit bus in its PRE_DELAY: that the refusal (R247) stands after it is the model's choice
(notes/assumptions/10.md). How RESET arrives, and what it leaves alone, is the model's choice
(notes/assumptions/18.md). -/
def Obligations.ResetState : Prop :=
  (∀ r : Reg, readReg State.reset r = match r with
    | .ncsId => 0x4E435301
    | .ncsParam => 0x0404080A
    | .pinCtrl => 0x00010000
    | .geoMisc => 0x00000001
    | _ => 0) ∧
  State.reset.fsm = .idle ∧ State.reset.hookXfer = 0 ∧ State.reset.irq = false ∧ State.reset.clk.time = 0 ∧
  State.reset.clk.rbFirst = 0 ∧ State.reset.clk.rbSync = 0 ∧ (∀ a, State.reset.mem.read a = none) ∧
  (∀ (s : State) after rest, s.resetIn = false → s.port = (0, .reset after) :: rest →
    (after = 0 → ∃ u, step s = .next u ∧ inReset u ∧ u.resetIn = true ∧ u.trace = s.trace ∧ u.port = rest) ∧
    (∀ x new, after ≠ 0 → s.fsm = .running → s.status.step.toNat < s.effLen.toNat →
      (∀ a others, rest ≠ (0, .access a) :: others) → exec s.fetched.instr { s with port := rest } = .next x →
      x.trace = new ++ s.trace →
      ∃ u, step s = .next u ∧ inReset u ∧ u.resetIn = true ∧ u.port = rest ∧
        u.trace = new.drop (new.length - after) ++ s.trace) ∧
    (∀ d k t events, events = headEvents .neutral t ++ readyEvents s t ++ delayEvents t.rdyPost → after ≠ 0 →
      s.fsm = .running → s.status.step.toNat < s.effLen.toNat → (∀ a others, rest ≠ (0, .access a) :: others) →
      rawForm s.fetched.instr = some (d, k, t) → s.phase = .begin →
      (pageOn16Bit s.dev s.xfer[k] = false → resolveSize s.dev s.xfer[k] ≠ 0 →
        rawReadyWait k t { s with port := rest } → after ≤ events.length →
        ∃ u, step s = .next u ∧ inReset u ∧ u.resetIn = true ∧ u.port = rest ∧
          u.trace = (events.take after).reverse ++ s.trace) ∧
      (pageOn16Bit s.dev s.xfer[k] = true → t.pre ≠ 0 → after = 1 →
        ∃ u, step s = .next u ∧ inReset u ∧ u.resetIn = true ∧ u.port = rest ∧
          u.trace = .delay t.pre :: s.trace))) ∧
  (∀ s : State, s.resetIn = true → (∀ rest, s.port ≠ (0, .release) :: rest) →
    ∃ u, step s = .next u ∧ inReset u ∧ u.resetIn = true ∧ u.trace = s.trace ∧
      ∀ a rest, s.port = (0, .access a) :: rest → u.port = rest) ∧
  (∀ (s : State) rest, s.resetIn = true → s.port = (0, .release) :: rest →
    ∃ u, step s = .next u ∧ u.resetIn = false ∧ u.port = rest ∧ u.trace = s.trace ∧ u.fsm = .idle ∧ u.irq = false ∧
      u.clk.time = BitVec.ofNat 64 s.clk.tick ∧ (∀ r, r ≠ .timeLo → readReg u r = readReg State.reset r) ∧
      ∀ a, u.mem.read a = none)

/-- The invariant (`State.Inv`) holds right after reset. -/
def Obligations.InvAtReset : Prop := State.reset.Inv

/-- R27, R28, R31, R34, R35, R36, R41, R60, R171, R182, R333: every step, of every agent and with every input, keeps
the invariant: no chip select and no ready line of a LUN that does not exist, STATE one of five, DONE never
together with BUSY, RESP one the NCS writes, the strobes idle, a validated chain, STEP inside it with its words
shown, hooks only at steps of it, and the RAMs in canonical form. -/
def Obligations.InvKept : Prop := ∀ s u : State, s.Inv → step s = .next u → u.Inv

/-- R171, R244: no raw step of a validated run touches a byte outside buffer RAM. -/
def Obligations.NoElementOutsideBuffer : Prop := ∀ s : State, s.Inv → step s ≠ .fault .elementOutsideBuffer

/-- R140, R72, R186: at a step in IDLE or at a hook, with nothing arriving, one clock passes and nothing else happens:
TIME counts one tick, and each ready/busy input moves one stage on. Every step but a reset leaves the tick, lines of
LUNs that do not exist, and lines that stand still as they were. That the last level of a script stays is the model's
choice (notes/assumptions/5.md), and so is that what is still to arrive comes one step nearer
(notes/assumptions/12.md). -/
def Obligations.TimeCountsTicks : Prop :=
  (∀ (s : State) (level : Half) (env : Env) (c : Clk), s.resetIn = false → s.fsm ≠ .running →
    s.clk.env.drawRb = (level, env) →
    c = { s.clk with time := s.clk.time + BitVec.ofNat 64 s.clk.tick, rbSync := s.clk.rbFirst
                     rbFirst := level &&& 0x000F, env := env } →
    (s.port = [] → step s = .next { s with clk := c }) ∧
    (∀ n x rest, s.port = (n + 1, x) :: rest → step s = .next { s with clk := c, port := (n, x) :: rest })) ∧
  ∀ s u : State, noReset s → step s = .next u →
    u.clk.tickPred = s.clk.tickPred ∧ (s.clk.LinesExist → u.clk.LinesExist) ∧
    ∀ v, s.clk.Steady v → u.clk.Steady v

/-- R74, R184, R213, R60, R175, R347: while a run exists, no step but a reset changes the device registers, RUN_CFG,
the effective chain, a record's hint or buffer, write protect, or the chip select of another LUN. -/
def Obligations.RunKeepsItsSetup : Prop :=
  ∀ s u : State, noReset s → s.busy = true → step s = .next u →
    u.dev = s.dev ∧ u.onfi = s.onfi ∧ u.vid = s.vid ∧ u.runCfg = s.runCfg ∧ u.eff = s.eff ∧ u.effLen = s.effLen ∧
    (∀ k : Fin Config.numXfer, u.xfer[k].hint = s.xfer[k].hint ∧ u.xfer[k].bufBase = s.xfer[k].bufBase ∧
      u.xfer[k].bufCap = s.xfer[k].bufCap) ∧
    u.pins.wp = s.pins.wp ∧ ∀ l, l ≠ s.runCfg.lun.toNat → u.pins.cs.getLsbD l = s.pins.cs.getLsbD l

/-- R320, R337, R97: a run ends only by `finish`: where a step other than a reset takes the machine from BUSY to
idle, its last event is FINISH, with the RESP and the BYTES that the registers now hold, and DONE is set. -/
def Obligations.RunEndsByFinish : Prop :=
  ∀ s u : State, noReset s → s.busy = true → step s = .next u → u.busy = false →
    u.status.done = true ∧ ∃ before, u.trace = .finish u.status.resp u.bytes :: before

/-- R32, R148, R208, R243: BYTES counts the bus cycles: a step of the chain adds to BYTES the number of WCYC and RCYC
events it records. -/
def Obligations.BytesCountCycles : Prop :=
  ∀ (i : Instr) (s u : State),
    ((controlForm s.dev i).isSome = true ∨ (rawForm i).isSome = true ∨ i = .hole) → exec i s = .next u →
    ∃ new, u.trace = new ++ s.trace ∧ u.bytes = s.bytes + BitVec.ofNat 32 (new.countP Event.isCycle)

/-- R69, R174, R267: no instruction writes descriptor RAM; only the host does. -/
def Obligations.DescriptorRamOnlyRead : Prop :=
  ∀ (i : Instr) (s u : State), exec i s = .next u → ∀ a, a < Config.bufBase → u.mem.read a = s.mem.read a
end

