-- ==== Sys2Proof/Laws/Clock.lean ====
section
/-! SUPPORT. What the passing of time can do: every timed operation moves the clock on by whole ticks, and
touches neither the build's tick nor the device's answers; and what a wait answers. -/

namespace Sys2Proof.Machine

/-! ### Draws -/

@[simp] theorem Env.drawRb_dq (e : Env) : e.drawRb.2.dq = e.dq := by unfold Env.drawRb; split <;> rfl
@[simp] theorem Env.drawRb_lat (e : Env) : e.drawRb.2.lat = e.lat := by unfold Env.drawRb; split <;> rfl
@[simp] theorem Env.drawLat_dq (e : Env) : e.drawLat.2.dq = e.dq := by unfold Env.drawLat; split <;> rfl
@[simp] theorem Env.drawLat_rb (e : Env) : e.drawLat.2.rb = e.rb := by unfold Env.drawLat; split <;> rfl
@[simp] theorem Env.drawDq_rb (e : Env) : e.drawDq.2.rb = e.rb := by unfold Env.drawDq; split <;> rfl
@[simp] theorem Env.drawDq_lat (e : Env) : e.drawDq.2.lat = e.lat := by unfold Env.drawDq; split <;> rfl

theorem Env.drawRb_steady {e : Env} {v : Half} (h : e.rb = [v]) : e.drawRb = (v, e) := by
  unfold Env.drawRb; rw [h]

theorem Env.drawDq_scripted {e : Env} {v : Half} {vs : List Half} (h : e.dq = v :: vs) :
    e.drawDq = (v, { e with dq := vs }) := by
  unfold Env.drawDq; rw [h]

/-! ### Later clocks -/

theorem Clk.tick_pos (c : Clk) : 0 < c.tick := by unfold Clk.tick; omega

theorem Clk.Later.refl (c : Clk) : c.Later c := ⟨rfl, ⟨0, by simp⟩, id, fun _ h => h⟩

theorem Clk.Later.trans {a b c : Clk} (h : a.Later b) (g : b.Later c) : a.Later c := by
  refine ⟨g.tick.trans h.tick, ?_, g.lines ∘ h.lines, fun v => g.steady v ∘ h.steady v⟩
  obtain ⟨n, hn⟩ := h.time
  obtain ⟨m, hm⟩ := g.time
  refine ⟨n + m, ?_⟩
  rw [hm, hn, show b.tick = a.tick by unfold Clk.tick; rw [h.tick], BitVec.add_assoc, ← BitVec.ofNat_add, Nat.add_mul]

theorem Clk.Quiet.refl (c : Clk) : c.Quiet c := ⟨Clk.Later.refl c, rfl⟩

theorem Clk.Quiet.trans {a b c : Clk} (h : a.Quiet b) (g : b.Quiet c) : a.Quiet c :=
  ⟨h.toLater.trans g.toLater, g.dq.trans h.dq⟩

theorem masked_lines (v : Half) : (v &&& lunMask) &&& ~~~lunMask = 0 := by
  rw [BitVec.and_assoc, show lunMask &&& ~~~lunMask = 0#16 by decide, BitVec.and_zero]; rfl

theorem Clk.edge_quiet (c : Clk) : c.Quiet c.edge := by
  refine ⟨⟨rfl, ⟨1, by simp [Clk.edge]⟩, fun h => ⟨masked_lines _, h.1⟩, ?_⟩, by simp [Clk.edge]⟩
  rintro v ⟨h1, h2, h3⟩
  refine ⟨?_, ?_, ?_⟩ <;> simp [Clk.edge, Env.drawRb_steady h1, h1, h2]

theorem Clk.elapse_quiet (n : Nat) (c : Clk) : c.Quiet (c.elapse n) := by
  refine ⟨⟨rfl, ⟨n + 1, rfl⟩, fun h => ⟨masked_lines _, ?_⟩, ?_⟩, by simp [Clk.elapse]⟩
  · show (if n = 0 then c.rbFirst else _) &&& _ = 0
    split
    · exact h.1
    · exact masked_lines _
  · rintro v ⟨h1, h2, h3⟩
    refine ⟨?_, ?_, ?_⟩ <;> simp [Clk.elapse, Env.drawRb_steady h1, h1, h2]

theorem Clk.elapse_time (n : Nat) (c : Clk) : (c.elapse n).time = c.time + BitVec.ofNat 64 ((n + 1) * c.tick) := rfl
@[simp] theorem Clk.elapse_deadline (n : Nat) (c : Clk) : (c.elapse n).deadline = c.deadline := rfl
@[simp] theorem Clk.edge_time (c : Clk) : c.edge.time = c.time + BitVec.ofNat 64 c.tick := rfl
@[simp] theorem Clk.edge_deadline (c : Clk) : c.edge.deadline = c.deadline := rfl
@[simp] theorem Clk.edge_tickPred (c : Clk) : c.edge.tickPred = c.tickPred := rfl

theorem Clk.pass_quiet (c : Clk) : c.Quiet c.pass := by
  have h := Clk.elapse_quiet c.env.drawLat.1 { c with env := c.env.drawLat.2 }
  exact ⟨⟨h.tick, h.time, h.lines, fun v hv => h.steady v ⟨by simpa using hv.1, hv.2⟩⟩, h.dq.trans (by simp)⟩

theorem Clk.hold_quiet (t : Word) (c : Clk) : c.Quiet (c.hold t) := by
  unfold Clk.hold
  split
  · exact Clk.Quiet.refl c
  · have h := Clk.elapse_quiet ((t.toNat - 1) / c.tick + c.env.drawLat.1)
      { c with deadline := deadlineFrom c.time t, env := c.env.drawLat.2 }
    exact ⟨⟨h.tick, h.time, h.lines, fun v hv => h.steady v ⟨by simpa using hv.1, hv.2⟩⟩, h.dq.trans (by simp)⟩

@[simp] theorem Clk.hold_zero (c : Clk) : c.hold 0 = c := rfl

theorem Clk.waitLoop_quiet (l : Nat) : ∀ (fuel : Nat) (c : Clk), c.Quiet (Clk.waitLoop l fuel c).2 := by
  intro fuel
  induction fuel with
  | zero => exact Clk.Quiet.refl
  | succ n ih =>
    intro c
    rw [Clk.waitLoop]
    split
    · exact Clk.Quiet.refl c
    · split
      · exact Clk.Quiet.refl c
      · exact (Clk.edge_quiet c).trans (ih _)

theorem Clk.poll_quiet (l : Nat) (t : Word) (c : Clk) : c.Quiet (c.poll l t).2 := by
  have h := Clk.waitLoop_quiet l t.toNat { c with deadline := deadlineFrom c.time t }
  exact ⟨⟨h.tick, h.time, h.lines, h.steady⟩, h.dq⟩

theorem Clk.waitOne_quiet (l : Nat) (t : Word) (c : Clk) : c.Quiet (c.waitOne l t).2 :=
  (Clk.poll_quiet l t c).trans (Clk.pass_quiet _)

/-! ### Deadlines -/

theorem signedClamp (x : BitVec 64) : x.toInt.toNat = if x.toNat < 2 ^ 63 then x.toNat else 0 := by
  rw [BitVec.toInt_eq_toNat_cond]
  have := x.isLt
  split
  · rw [if_pos (by omega)]; omega
  · rw [if_neg (by omega)]; omega

/-- What is left of a deadline, from the unsigned difference (R143). -/
theorem remaining_eq (d time : BitVec 64) :
    remaining d time = if (d - time).toNat < 2 ^ 63 then (d - time).toNat else 0 := signedClamp _

/-- `k` ns after a deadline of `t` ns was set, `t - k` ns are left, and 0 from then on for 2^63 ns. -/
theorem remaining_deadlineFrom (time : BitVec 64) (t : Word) (k : Nat) (hk : k ≤ 2 ^ 63 + t.toNat) :
    remaining (deadlineFrom time t) (time + BitVec.ofNat 64 k) = t.toNat - k := by
  rw [remaining_eq]
  have ht := t.isLt
  have hs : (deadlineFrom time t - (time + BitVec.ofNat 64 k)).toNat = (t.toNat + (2 ^ 64 - k)) % 2 ^ 64 := by
    unfold deadlineFrom
    rw [BitVec.toNat_sub, BitVec.toNat_add, BitVec.toNat_add, BitVec.toNat_setWidth, BitVec.toNat_ofNat]
    have := time.isLt
    omega
  rw [hs]
  split <;> omega

/-! ### What a wait answers -/

/-- The loop of a wait on a deadline `t` ns ahead of `start`, `k` ns in: the answer is the last sample, and an
answer that is not OK comes with no time left. The signed difference of R143 asks for a tick of at most 2^63 ns. -/
theorem Clk.waitLoop_spec (l : Nat) (start : BitVec 64) (t : Word) : ∀ (fuel k : Nat) (c : Clk),
    c.deadline = deadlineFrom start t → c.time = start + BitVec.ofNat 64 k → c.tick ≤ 2 ^ 63 →
    k ≤ 2 ^ 63 + t.toNat → t.toNat ≤ k + fuel →
    (Clk.waitLoop l fuel c).1 = (Clk.waitLoop l fuel c).2.rbSync.getLsbD l ∧
    (Clk.waitLoop l fuel c).2.deadline = deadlineFrom start t ∧
    ((Clk.waitLoop l fuel c).1 = false →
      remaining (Clk.waitLoop l fuel c).2.deadline (Clk.waitLoop l fuel c).2.time = 0) := by
  intro fuel
  induction fuel with
  | zero =>
    intro k c hd ht hT hk hf
    refine ⟨rfl, hd, fun _ => ?_⟩
    simp only [Clk.waitLoop]
    rw [hd, ht, remaining_deadlineFrom _ _ _ (by omega)]
    omega
  | succ n ih =>
    intro k c hd ht hT hk hf
    rw [Clk.waitLoop]
    split
    · next h => exact ⟨h.symm, hd, fun h => by cases h⟩
    · next h =>
      split
      · next hr => exact ⟨(Bool.not_eq_true _ ▸ h).symm, hd, fun _ => hr⟩
      · next hr =>
        rw [hd, ht, remaining_deadlineFrom _ _ _ (by omega)] at hr
        have := c.tick_pos
        have := t.isLt
        exact ih (k + c.tick) c.edge hd
          (by rw [Clk.edge_time, ht, BitVec.add_assoc, ← BitVec.ofNat_add]) hT (by omega) (by omega)

/-- `WaitOne`: the answer is the last sample, and TIMEOUT comes with no time left (R145). -/
theorem Clk.poll_spec (l : Nat) (t : Word) (c : Clk) (hT : c.tick ≤ 2 ^ 63) :
    (c.poll l t).1 = (c.poll l t).2.rbSync.getLsbD l ∧
    (c.poll l t).2.deadline = deadlineFrom c.time t ∧
    ((c.poll l t).1 = false → remaining (c.poll l t).2.deadline (c.poll l t).2.time = 0) :=
  Clk.waitLoop_spec l c.time t t.toNat 0 { c with deadline := deadlineFrom c.time t } rfl (by simp) hT (by omega)
    (by omega)

/-- A wait whose first sample is ready answers OK with no clock of its loop (R145). -/
theorem Clk.poll_ready {l : Nat} {c : Clk} (t : Word) (h : c.rbSync.getLsbD l = true) :
    c.poll l t = (true, { c with deadline := deadlineFrom c.time t }) := by
  unfold Clk.poll
  cases t.toNat <;> simp [Clk.waitLoop, h]

/-! ### Edge by edge -/

/-- The clock `i` edges later: the deadline stands, and TIME has counted `i` ticks (R140). -/
theorem Clk.edges_time (c : Clk) : ∀ i, (Clk.edge^[i] c).tick = c.tick ∧ (Clk.edge^[i] c).deadline = c.deadline ∧
    (Clk.edge^[i] c).time = c.time + BitVec.ofNat 64 (i * c.tick) := by
  intro i
  induction i with
  | zero => simp
  | succ n ih =>
    rw [Function.iterate_succ_apply']
    refine ⟨ih.1, ih.2.1, ?_⟩
    rw [Clk.edge_time, ih.2.2, ih.1, BitVec.add_assoc, ← BitVec.ofNat_add, Nat.succ_mul]

/-- The loop of a wait goes on over `n` busy samples before its deadline (R145). `k` edges have passed since the
deadline was set. -/
theorem Clk.waitLoop_after (l : Nat) (t : Word) (start : BitVec 64) : ∀ (n fuel k : Nat) (c : Clk),
    c.tick ≤ 2 ^ 63 → c.deadline = deadlineFrom start t → c.time = start + BitVec.ofNat 64 (k * c.tick) →
    t.toNat ≤ fuel + k → (∀ i, i < n → (Clk.edge^[i] c).rbSync.getLsbD l = false) →
    (n = 0 ∨ (k + n - 1) * c.tick < t.toNat) →
    Clk.waitLoop l fuel c = Clk.waitLoop l (fuel - n) (Clk.edge^[n] c) ∧ n ≤ fuel := by
  intro n
  induction n with
  | zero => intros; exact ⟨rfl, Nat.zero_le _⟩
  | succ n ih =>
    intro fuel k c hT hd ht hf hs hn
    have htp := c.tick_pos
    have hn : (k + n) * c.tick < t.toNat := by rcases hn with h | h; omega; simpa using h
    have hkt : k * c.tick < t.toNat := Nat.lt_of_le_of_lt (Nat.mul_le_mul_right _ (by omega)) hn
    have hk : k < t.toNat := Nat.lt_of_le_of_lt (Nat.le_mul_of_pos_right _ htp) hkt
    have := t.isLt
    cases fuel with
    | zero => omega
    | succ f =>
      have h0 := hs 0 (by omega)
      simp only [Function.iterate_zero, id_eq] at h0
      rw [Clk.waitLoop, h0]
      simp only [Bool.false_eq_true, if_false]
      rw [hd, ht, remaining_deadlineFrom _ _ _ (by omega), if_neg (by omega)]
      have hi := ih f (k + 1) c.edge hT hd
        (by rw [Clk.edge_time, ht, BitVec.add_assoc, ← BitVec.ofNat_add, show c.edge.tick = c.tick from rfl,
              Nat.succ_mul])
        (by omega)
        (fun i hi => by have := hs (i + 1) (by omega); rwa [Function.iterate_succ_apply] at this)
        (by right; rw [show k + 1 + n - 1 = k + n by omega]; exact hn)
      rw [Function.iterate_succ_apply]
      refine ⟨?_, by omega⟩
      rw [hi.1]; congr 1; omega

end Sys2Proof.Machine
end

