-- ==== Sys2Proof/Laws/State.lean ====
section
/-! SUPPORT. The small lemmas of the shared operations: one for each field of State and each operation,
so that no proof unfolds a record update. -/

namespace Sys2Proof.Machine

/-! ### `pass` -/

@[simp] theorem pass_status (s : State) : (pass s).status = s.status := rfl
@[simp] theorem pass_fsm (s : State) : (pass s).fsm = s.fsm := rfl
@[simp] theorem pass_phase (s : State) : (pass s).phase = s.phase := rfl
@[simp] theorem pass_irqEn (s : State) : (pass s).irqEn = s.irqEn := rfl
@[simp] theorem pass_runCfg (s : State) : (pass s).runCfg = s.runCfg := rfl
@[simp] theorem pass_bytes (s : State) : (pass s).bytes = s.bytes := rfl
@[simp] theorem pass_effLen (s : State) : (pass s).effLen = s.effLen := rfl
@[simp] theorem pass_cur (s : State) : (pass s).cur = s.cur := rfl
@[simp] theorem pass_pins (s : State) : (pass s).pins = s.pins := rfl
@[simp] theorem pass_clk (s : State) : (pass s).clk = s.clk.pass := rfl
@[simp] theorem pass_timeHiShadow (s : State) : (pass s).timeHiShadow = s.timeHiShadow := rfl
@[simp] theorem pass_dev (s : State) : (pass s).dev = s.dev := rfl
@[simp] theorem pass_onfi (s : State) : (pass s).onfi = s.onfi := rfl
@[simp] theorem pass_dec (s : State) : (pass s).dec = s.dec := rfl
@[simp] theorem pass_vid (s : State) : (pass s).vid = s.vid := rfl
@[simp] theorem pass_eff (s : State) : (pass s).eff = s.eff := rfl
@[simp] theorem pass_xfer (s : State) : (pass s).xfer = s.xfer := rfl
@[simp] theorem pass_hookXfer (s : State) : (pass s).hookXfer = s.hookXfer := rfl
@[simp] theorem pass_mem (s : State) : (pass s).mem = s.mem := rfl
@[simp] theorem pass_resetIn (s : State) : (pass s).resetIn = s.resetIn := rfl
@[simp] theorem pass_port (s : State) : (pass s).port = s.port := rfl
@[simp] theorem pass_rdata (s : State) : (pass s).rdata = s.rdata := rfl
@[simp] theorem pass_trace (s : State) : (pass s).trace = s.trace := rfl

/-! ### `hold` -/

@[simp] theorem hold_status (t : Word) (s : State) : (hold t s).status = s.status := rfl
@[simp] theorem hold_fsm (t : Word) (s : State) : (hold t s).fsm = s.fsm := rfl
@[simp] theorem hold_phase (t : Word) (s : State) : (hold t s).phase = s.phase := rfl
@[simp] theorem hold_irqEn (t : Word) (s : State) : (hold t s).irqEn = s.irqEn := rfl
@[simp] theorem hold_runCfg (t : Word) (s : State) : (hold t s).runCfg = s.runCfg := rfl
@[simp] theorem hold_bytes (t : Word) (s : State) : (hold t s).bytes = s.bytes := rfl
@[simp] theorem hold_effLen (t : Word) (s : State) : (hold t s).effLen = s.effLen := rfl
@[simp] theorem hold_cur (t : Word) (s : State) : (hold t s).cur = s.cur := rfl
@[simp] theorem hold_pins (t : Word) (s : State) : (hold t s).pins = s.pins := rfl
@[simp] theorem hold_clk (t : Word) (s : State) : (hold t s).clk = s.clk.hold t := rfl
@[simp] theorem hold_timeHiShadow (t : Word) (s : State) : (hold t s).timeHiShadow = s.timeHiShadow := rfl
@[simp] theorem hold_dev (t : Word) (s : State) : (hold t s).dev = s.dev := rfl
@[simp] theorem hold_onfi (t : Word) (s : State) : (hold t s).onfi = s.onfi := rfl
@[simp] theorem hold_dec (t : Word) (s : State) : (hold t s).dec = s.dec := rfl
@[simp] theorem hold_vid (t : Word) (s : State) : (hold t s).vid = s.vid := rfl
@[simp] theorem hold_eff (t : Word) (s : State) : (hold t s).eff = s.eff := rfl
@[simp] theorem hold_xfer (t : Word) (s : State) : (hold t s).xfer = s.xfer := rfl
@[simp] theorem hold_hookXfer (t : Word) (s : State) : (hold t s).hookXfer = s.hookXfer := rfl
@[simp] theorem hold_mem (t : Word) (s : State) : (hold t s).mem = s.mem := rfl
@[simp] theorem hold_resetIn (t : Word) (s : State) : (hold t s).resetIn = s.resetIn := rfl
@[simp] theorem hold_port (t : Word) (s : State) : (hold t s).port = s.port := rfl
@[simp] theorem hold_rdata (t : Word) (s : State) : (hold t s).rdata = s.rdata := rfl
@[simp] theorem hold_trace (t : Word) (s : State) : (hold t s).trace = s.trace := rfl

/-! ### `delay` -/

@[simp] theorem delay_status (t : Word) (s : State) : (delay t s).status = s.status := rfl
@[simp] theorem delay_fsm (t : Word) (s : State) : (delay t s).fsm = s.fsm := rfl
@[simp] theorem delay_phase (t : Word) (s : State) : (delay t s).phase = s.phase := rfl
@[simp] theorem delay_irqEn (t : Word) (s : State) : (delay t s).irqEn = s.irqEn := rfl
@[simp] theorem delay_runCfg (t : Word) (s : State) : (delay t s).runCfg = s.runCfg := rfl
@[simp] theorem delay_bytes (t : Word) (s : State) : (delay t s).bytes = s.bytes := rfl
@[simp] theorem delay_effLen (t : Word) (s : State) : (delay t s).effLen = s.effLen := rfl
@[simp] theorem delay_cur (t : Word) (s : State) : (delay t s).cur = s.cur := rfl
@[simp] theorem delay_pins (t : Word) (s : State) : (delay t s).pins = s.pins := rfl
@[simp] theorem delay_clk (t : Word) (s : State) : (delay t s).clk = s.clk.hold t := rfl
@[simp] theorem delay_timeHiShadow (t : Word) (s : State) : (delay t s).timeHiShadow = s.timeHiShadow := rfl
@[simp] theorem delay_dev (t : Word) (s : State) : (delay t s).dev = s.dev := rfl
@[simp] theorem delay_onfi (t : Word) (s : State) : (delay t s).onfi = s.onfi := rfl
@[simp] theorem delay_dec (t : Word) (s : State) : (delay t s).dec = s.dec := rfl
@[simp] theorem delay_vid (t : Word) (s : State) : (delay t s).vid = s.vid := rfl
@[simp] theorem delay_eff (t : Word) (s : State) : (delay t s).eff = s.eff := rfl
@[simp] theorem delay_xfer (t : Word) (s : State) : (delay t s).xfer = s.xfer := rfl
@[simp] theorem delay_hookXfer (t : Word) (s : State) : (delay t s).hookXfer = s.hookXfer := rfl
@[simp] theorem delay_mem (t : Word) (s : State) : (delay t s).mem = s.mem := rfl
@[simp] theorem delay_resetIn (t : Word) (s : State) : (delay t s).resetIn = s.resetIn := rfl
@[simp] theorem delay_port (t : Word) (s : State) : (delay t s).port = s.port := rfl
@[simp] theorem delay_rdata (t : Word) (s : State) : (delay t s).rdata = s.rdata := rfl
@[simp] theorem delay_trace (t : Word) (s : State) :
    (delay t s).trace = if t = 0 then s.trace else .delay t :: s.trace := rfl

/-! ### `waitOne` -/

@[simp] theorem waitOne_status (l : Nat) (t : Word) (s : State) : (waitOne l t s).2.status = s.status := rfl
@[simp] theorem waitOne_fsm (l : Nat) (t : Word) (s : State) : (waitOne l t s).2.fsm = s.fsm := rfl
@[simp] theorem waitOne_phase (l : Nat) (t : Word) (s : State) : (waitOne l t s).2.phase = s.phase := rfl
@[simp] theorem waitOne_irqEn (l : Nat) (t : Word) (s : State) : (waitOne l t s).2.irqEn = s.irqEn := rfl
@[simp] theorem waitOne_runCfg (l : Nat) (t : Word) (s : State) : (waitOne l t s).2.runCfg = s.runCfg := rfl
@[simp] theorem waitOne_bytes (l : Nat) (t : Word) (s : State) : (waitOne l t s).2.bytes = s.bytes := rfl
@[simp] theorem waitOne_effLen (l : Nat) (t : Word) (s : State) : (waitOne l t s).2.effLen = s.effLen := rfl
@[simp] theorem waitOne_cur (l : Nat) (t : Word) (s : State) : (waitOne l t s).2.cur = s.cur := rfl
@[simp] theorem waitOne_pins (l : Nat) (t : Word) (s : State) : (waitOne l t s).2.pins = s.pins := rfl
@[simp] theorem waitOne_clk (l : Nat) (t : Word) (s : State) : (waitOne l t s).2.clk = (s.clk.waitOne l t).2 := rfl
@[simp] theorem waitOne_timeHiShadow (l : Nat) (t : Word) (s : State) :
    (waitOne l t s).2.timeHiShadow = s.timeHiShadow := rfl
@[simp] theorem waitOne_dev (l : Nat) (t : Word) (s : State) : (waitOne l t s).2.dev = s.dev := rfl
@[simp] theorem waitOne_onfi (l : Nat) (t : Word) (s : State) : (waitOne l t s).2.onfi = s.onfi := rfl
@[simp] theorem waitOne_dec (l : Nat) (t : Word) (s : State) : (waitOne l t s).2.dec = s.dec := rfl
@[simp] theorem waitOne_vid (l : Nat) (t : Word) (s : State) : (waitOne l t s).2.vid = s.vid := rfl
@[simp] theorem waitOne_eff (l : Nat) (t : Word) (s : State) : (waitOne l t s).2.eff = s.eff := rfl
@[simp] theorem waitOne_xfer (l : Nat) (t : Word) (s : State) : (waitOne l t s).2.xfer = s.xfer := rfl
@[simp] theorem waitOne_hookXfer (l : Nat) (t : Word) (s : State) : (waitOne l t s).2.hookXfer = s.hookXfer := rfl
@[simp] theorem waitOne_mem (l : Nat) (t : Word) (s : State) : (waitOne l t s).2.mem = s.mem := rfl
@[simp] theorem waitOne_resetIn (l : Nat) (t : Word) (s : State) : (waitOne l t s).2.resetIn = s.resetIn := rfl
@[simp] theorem waitOne_port (l : Nat) (t : Word) (s : State) : (waitOne l t s).2.port = s.port := rfl
@[simp] theorem waitOne_rdata (l : Nat) (t : Word) (s : State) : (waitOne l t s).2.rdata = s.rdata := rfl
@[simp] theorem waitOne_trace (l : Nat) (t : Word) (s : State) :
    (waitOne l t s).2.trace = .wait l t (s.clk.waitOne l t).1 :: s.trace := rfl

/-! ### `setCS` -/

@[simp] theorem setCS_status (l : Nat) (e : Bool) (s : State) : (setCS l e s).status = s.status := rfl
@[simp] theorem setCS_fsm (l : Nat) (e : Bool) (s : State) : (setCS l e s).fsm = s.fsm := rfl
@[simp] theorem setCS_phase (l : Nat) (e : Bool) (s : State) : (setCS l e s).phase = s.phase := rfl
@[simp] theorem setCS_irqEn (l : Nat) (e : Bool) (s : State) : (setCS l e s).irqEn = s.irqEn := rfl
@[simp] theorem setCS_runCfg (l : Nat) (e : Bool) (s : State) : (setCS l e s).runCfg = s.runCfg := rfl
@[simp] theorem setCS_bytes (l : Nat) (e : Bool) (s : State) : (setCS l e s).bytes = s.bytes := rfl
@[simp] theorem setCS_effLen (l : Nat) (e : Bool) (s : State) : (setCS l e s).effLen = s.effLen := rfl
@[simp] theorem setCS_cur (l : Nat) (e : Bool) (s : State) : (setCS l e s).cur = s.cur := rfl
@[simp] theorem setCS_pins (l : Nat) (e : Bool) (s : State) :
    (setCS l e s).pins = { s.pins with cs := setLine s.pins.cs l e } := rfl
@[simp] theorem setCS_clk (l : Nat) (e : Bool) (s : State) : (setCS l e s).clk = s.clk.pass := rfl
@[simp] theorem setCS_timeHiShadow (l : Nat) (e : Bool) (s : State) :
    (setCS l e s).timeHiShadow = s.timeHiShadow := rfl
@[simp] theorem setCS_dev (l : Nat) (e : Bool) (s : State) : (setCS l e s).dev = s.dev := rfl
@[simp] theorem setCS_onfi (l : Nat) (e : Bool) (s : State) : (setCS l e s).onfi = s.onfi := rfl
@[simp] theorem setCS_dec (l : Nat) (e : Bool) (s : State) : (setCS l e s).dec = s.dec := rfl
@[simp] theorem setCS_vid (l : Nat) (e : Bool) (s : State) : (setCS l e s).vid = s.vid := rfl
@[simp] theorem setCS_eff (l : Nat) (e : Bool) (s : State) : (setCS l e s).eff = s.eff := rfl
@[simp] theorem setCS_xfer (l : Nat) (e : Bool) (s : State) : (setCS l e s).xfer = s.xfer := rfl
@[simp] theorem setCS_hookXfer (l : Nat) (e : Bool) (s : State) : (setCS l e s).hookXfer = s.hookXfer := rfl
@[simp] theorem setCS_mem (l : Nat) (e : Bool) (s : State) : (setCS l e s).mem = s.mem := rfl
@[simp] theorem setCS_resetIn (l : Nat) (e : Bool) (s : State) : (setCS l e s).resetIn = s.resetIn := rfl
@[simp] theorem setCS_port (l : Nat) (e : Bool) (s : State) : (setCS l e s).port = s.port := rfl
@[simp] theorem setCS_rdata (l : Nat) (e : Bool) (s : State) : (setCS l e s).rdata = s.rdata := rfl
@[simp] theorem setCS_trace (l : Nat) (e : Bool) (s : State) : (setCS l e s).trace = .cs l e :: s.trace := rfl

/-! ### `setWP` -/

@[simp] theorem setWP_status (e : Bool) (s : State) : (setWP e s).status = s.status := rfl
@[simp] theorem setWP_fsm (e : Bool) (s : State) : (setWP e s).fsm = s.fsm := rfl
@[simp] theorem setWP_phase (e : Bool) (s : State) : (setWP e s).phase = s.phase := rfl
@[simp] theorem setWP_irqEn (e : Bool) (s : State) : (setWP e s).irqEn = s.irqEn := rfl
@[simp] theorem setWP_runCfg (e : Bool) (s : State) : (setWP e s).runCfg = s.runCfg := rfl
@[simp] theorem setWP_bytes (e : Bool) (s : State) : (setWP e s).bytes = s.bytes := rfl
@[simp] theorem setWP_effLen (e : Bool) (s : State) : (setWP e s).effLen = s.effLen := rfl
@[simp] theorem setWP_cur (e : Bool) (s : State) : (setWP e s).cur = s.cur := rfl
@[simp] theorem setWP_pins (e : Bool) (s : State) : (setWP e s).pins = { s.pins with wp := e } := rfl
@[simp] theorem setWP_clk (e : Bool) (s : State) : (setWP e s).clk = s.clk.pass := rfl
@[simp] theorem setWP_timeHiShadow (e : Bool) (s : State) : (setWP e s).timeHiShadow = s.timeHiShadow := rfl
@[simp] theorem setWP_dev (e : Bool) (s : State) : (setWP e s).dev = s.dev := rfl
@[simp] theorem setWP_onfi (e : Bool) (s : State) : (setWP e s).onfi = s.onfi := rfl
@[simp] theorem setWP_dec (e : Bool) (s : State) : (setWP e s).dec = s.dec := rfl
@[simp] theorem setWP_vid (e : Bool) (s : State) : (setWP e s).vid = s.vid := rfl
@[simp] theorem setWP_eff (e : Bool) (s : State) : (setWP e s).eff = s.eff := rfl
@[simp] theorem setWP_xfer (e : Bool) (s : State) : (setWP e s).xfer = s.xfer := rfl
@[simp] theorem setWP_hookXfer (e : Bool) (s : State) : (setWP e s).hookXfer = s.hookXfer := rfl
@[simp] theorem setWP_mem (e : Bool) (s : State) : (setWP e s).mem = s.mem := rfl
@[simp] theorem setWP_resetIn (e : Bool) (s : State) : (setWP e s).resetIn = s.resetIn := rfl
@[simp] theorem setWP_port (e : Bool) (s : State) : (setWP e s).port = s.port := rfl
@[simp] theorem setWP_rdata (e : Bool) (s : State) : (setWP e s).rdata = s.rdata := rfl
@[simp] theorem setWP_trace (e : Bool) (s : State) : (setWP e s).trace = .wp e :: s.trace := rfl

/-! ### `setStrobesIdle` -/

@[simp] theorem setStrobesIdle_status (s : State) : (setStrobesIdle s).status = s.status := rfl
@[simp] theorem setStrobesIdle_fsm (s : State) : (setStrobesIdle s).fsm = s.fsm := rfl
@[simp] theorem setStrobesIdle_phase (s : State) : (setStrobesIdle s).phase = s.phase := rfl
@[simp] theorem setStrobesIdle_irqEn (s : State) : (setStrobesIdle s).irqEn = s.irqEn := rfl
@[simp] theorem setStrobesIdle_runCfg (s : State) : (setStrobesIdle s).runCfg = s.runCfg := rfl
@[simp] theorem setStrobesIdle_bytes (s : State) : (setStrobesIdle s).bytes = s.bytes := rfl
@[simp] theorem setStrobesIdle_effLen (s : State) : (setStrobesIdle s).effLen = s.effLen := rfl
@[simp] theorem setStrobesIdle_cur (s : State) : (setStrobesIdle s).cur = s.cur := rfl
@[simp] theorem setStrobesIdle_pins (s : State) :
    (setStrobesIdle s).pins = { s.pins with weAct := false, reAct := false } := rfl
@[simp] theorem setStrobesIdle_clk (s : State) : (setStrobesIdle s).clk = s.clk.pass := rfl
@[simp] theorem setStrobesIdle_timeHiShadow (s : State) : (setStrobesIdle s).timeHiShadow = s.timeHiShadow := rfl
@[simp] theorem setStrobesIdle_dev (s : State) : (setStrobesIdle s).dev = s.dev := rfl
@[simp] theorem setStrobesIdle_onfi (s : State) : (setStrobesIdle s).onfi = s.onfi := rfl
@[simp] theorem setStrobesIdle_dec (s : State) : (setStrobesIdle s).dec = s.dec := rfl
@[simp] theorem setStrobesIdle_vid (s : State) : (setStrobesIdle s).vid = s.vid := rfl
@[simp] theorem setStrobesIdle_eff (s : State) : (setStrobesIdle s).eff = s.eff := rfl
@[simp] theorem setStrobesIdle_xfer (s : State) : (setStrobesIdle s).xfer = s.xfer := rfl
@[simp] theorem setStrobesIdle_hookXfer (s : State) : (setStrobesIdle s).hookXfer = s.hookXfer := rfl
@[simp] theorem setStrobesIdle_mem (s : State) : (setStrobesIdle s).mem = s.mem := rfl
@[simp] theorem setStrobesIdle_resetIn (s : State) : (setStrobesIdle s).resetIn = s.resetIn := rfl
@[simp] theorem setStrobesIdle_port (s : State) : (setStrobesIdle s).port = s.port := rfl
@[simp] theorem setStrobesIdle_rdata (s : State) : (setStrobesIdle s).rdata = s.rdata := rfl
@[simp] theorem setStrobesIdle_trace (s : State) : (setStrobesIdle s).trace = .strobesIdle :: s.trace := rfl

/-! ### `setLatch` -/

@[simp] theorem setLatch_status (m : Latch) (s : State) : (setLatch m s).status = s.status := rfl
@[simp] theorem setLatch_fsm (m : Latch) (s : State) : (setLatch m s).fsm = s.fsm := rfl
@[simp] theorem setLatch_phase (m : Latch) (s : State) : (setLatch m s).phase = s.phase := rfl
@[simp] theorem setLatch_irqEn (m : Latch) (s : State) : (setLatch m s).irqEn = s.irqEn := rfl
@[simp] theorem setLatch_runCfg (m : Latch) (s : State) : (setLatch m s).runCfg = s.runCfg := rfl
@[simp] theorem setLatch_bytes (m : Latch) (s : State) : (setLatch m s).bytes = s.bytes := rfl
@[simp] theorem setLatch_effLen (m : Latch) (s : State) : (setLatch m s).effLen = s.effLen := rfl
@[simp] theorem setLatch_cur (m : Latch) (s : State) : (setLatch m s).cur = s.cur := rfl
@[simp] theorem setLatch_pins (m : Latch) (s : State) : (setLatch m s).pins = { s.pins with latch := m } := rfl
@[simp] theorem setLatch_clk (m : Latch) (s : State) : (setLatch m s).clk = s.clk.pass := rfl
@[simp] theorem setLatch_timeHiShadow (m : Latch) (s : State) : (setLatch m s).timeHiShadow = s.timeHiShadow := rfl
@[simp] theorem setLatch_dev (m : Latch) (s : State) : (setLatch m s).dev = s.dev := rfl
@[simp] theorem setLatch_onfi (m : Latch) (s : State) : (setLatch m s).onfi = s.onfi := rfl
@[simp] theorem setLatch_dec (m : Latch) (s : State) : (setLatch m s).dec = s.dec := rfl
@[simp] theorem setLatch_vid (m : Latch) (s : State) : (setLatch m s).vid = s.vid := rfl
@[simp] theorem setLatch_eff (m : Latch) (s : State) : (setLatch m s).eff = s.eff := rfl
@[simp] theorem setLatch_xfer (m : Latch) (s : State) : (setLatch m s).xfer = s.xfer := rfl
@[simp] theorem setLatch_hookXfer (m : Latch) (s : State) : (setLatch m s).hookXfer = s.hookXfer := rfl
@[simp] theorem setLatch_mem (m : Latch) (s : State) : (setLatch m s).mem = s.mem := rfl
@[simp] theorem setLatch_resetIn (m : Latch) (s : State) : (setLatch m s).resetIn = s.resetIn := rfl
@[simp] theorem setLatch_port (m : Latch) (s : State) : (setLatch m s).port = s.port := rfl
@[simp] theorem setLatch_rdata (m : Latch) (s : State) : (setLatch m s).rdata = s.rdata := rfl
@[simp] theorem setLatch_trace (m : Latch) (s : State) : (setLatch m s).trace = .latch m :: s.trace := rfl

/-! ### `setDir` -/

@[simp] theorem setDir_status (d : Dir) (s : State) : (setDir d s).status = s.status := rfl
@[simp] theorem setDir_fsm (d : Dir) (s : State) : (setDir d s).fsm = s.fsm := rfl
@[simp] theorem setDir_phase (d : Dir) (s : State) : (setDir d s).phase = s.phase := rfl
@[simp] theorem setDir_irqEn (d : Dir) (s : State) : (setDir d s).irqEn = s.irqEn := rfl
@[simp] theorem setDir_runCfg (d : Dir) (s : State) : (setDir d s).runCfg = s.runCfg := rfl
@[simp] theorem setDir_bytes (d : Dir) (s : State) : (setDir d s).bytes = s.bytes := rfl
@[simp] theorem setDir_effLen (d : Dir) (s : State) : (setDir d s).effLen = s.effLen := rfl
@[simp] theorem setDir_cur (d : Dir) (s : State) : (setDir d s).cur = s.cur := rfl
@[simp] theorem setDir_pins (d : Dir) (s : State) : (setDir d s).pins = { s.pins with dir := d } := rfl
@[simp] theorem setDir_clk (d : Dir) (s : State) : (setDir d s).clk = s.clk.pass := rfl
@[simp] theorem setDir_timeHiShadow (d : Dir) (s : State) : (setDir d s).timeHiShadow = s.timeHiShadow := rfl
@[simp] theorem setDir_dev (d : Dir) (s : State) : (setDir d s).dev = s.dev := rfl
@[simp] theorem setDir_onfi (d : Dir) (s : State) : (setDir d s).onfi = s.onfi := rfl
@[simp] theorem setDir_dec (d : Dir) (s : State) : (setDir d s).dec = s.dec := rfl
@[simp] theorem setDir_vid (d : Dir) (s : State) : (setDir d s).vid = s.vid := rfl
@[simp] theorem setDir_eff (d : Dir) (s : State) : (setDir d s).eff = s.eff := rfl
@[simp] theorem setDir_xfer (d : Dir) (s : State) : (setDir d s).xfer = s.xfer := rfl
@[simp] theorem setDir_hookXfer (d : Dir) (s : State) : (setDir d s).hookXfer = s.hookXfer := rfl
@[simp] theorem setDir_mem (d : Dir) (s : State) : (setDir d s).mem = s.mem := rfl
@[simp] theorem setDir_resetIn (d : Dir) (s : State) : (setDir d s).resetIn = s.resetIn := rfl
@[simp] theorem setDir_port (d : Dir) (s : State) : (setDir d s).port = s.port := rfl
@[simp] theorem setDir_rdata (d : Dir) (s : State) : (setDir d s).rdata = s.rdata := rfl
@[simp] theorem setDir_trace (d : Dir) (s : State) : (setDir d s).trace = .dir d :: s.trace := rfl

/-! ### `setWE` -/

@[simp] theorem setWE_status (e : Bool) (s : State) : (setWE e s).status = s.status := rfl
@[simp] theorem setWE_fsm (e : Bool) (s : State) : (setWE e s).fsm = s.fsm := rfl
@[simp] theorem setWE_phase (e : Bool) (s : State) : (setWE e s).phase = s.phase := rfl
@[simp] theorem setWE_irqEn (e : Bool) (s : State) : (setWE e s).irqEn = s.irqEn := rfl
@[simp] theorem setWE_runCfg (e : Bool) (s : State) : (setWE e s).runCfg = s.runCfg := rfl
@[simp] theorem setWE_bytes (e : Bool) (s : State) : (setWE e s).bytes = s.bytes := rfl
@[simp] theorem setWE_effLen (e : Bool) (s : State) : (setWE e s).effLen = s.effLen := rfl
@[simp] theorem setWE_cur (e : Bool) (s : State) : (setWE e s).cur = s.cur := rfl
@[simp] theorem setWE_pins (e : Bool) (s : State) : (setWE e s).pins = { s.pins with weAct := e } := rfl
@[simp] theorem setWE_clk (e : Bool) (s : State) : (setWE e s).clk = s.clk := rfl
@[simp] theorem setWE_timeHiShadow (e : Bool) (s : State) : (setWE e s).timeHiShadow = s.timeHiShadow := rfl
@[simp] theorem setWE_dev (e : Bool) (s : State) : (setWE e s).dev = s.dev := rfl
@[simp] theorem setWE_onfi (e : Bool) (s : State) : (setWE e s).onfi = s.onfi := rfl
@[simp] theorem setWE_dec (e : Bool) (s : State) : (setWE e s).dec = s.dec := rfl
@[simp] theorem setWE_vid (e : Bool) (s : State) : (setWE e s).vid = s.vid := rfl
@[simp] theorem setWE_eff (e : Bool) (s : State) : (setWE e s).eff = s.eff := rfl
@[simp] theorem setWE_xfer (e : Bool) (s : State) : (setWE e s).xfer = s.xfer := rfl
@[simp] theorem setWE_hookXfer (e : Bool) (s : State) : (setWE e s).hookXfer = s.hookXfer := rfl
@[simp] theorem setWE_mem (e : Bool) (s : State) : (setWE e s).mem = s.mem := rfl
@[simp] theorem setWE_resetIn (e : Bool) (s : State) : (setWE e s).resetIn = s.resetIn := rfl
@[simp] theorem setWE_port (e : Bool) (s : State) : (setWE e s).port = s.port := rfl
@[simp] theorem setWE_rdata (e : Bool) (s : State) : (setWE e s).rdata = s.rdata := rfl
@[simp] theorem setWE_trace (e : Bool) (s : State) : (setWE e s).trace = s.trace := rfl

/-! ### `setRE` -/

@[simp] theorem setRE_status (e : Bool) (s : State) : (setRE e s).status = s.status := rfl
@[simp] theorem setRE_fsm (e : Bool) (s : State) : (setRE e s).fsm = s.fsm := rfl
@[simp] theorem setRE_phase (e : Bool) (s : State) : (setRE e s).phase = s.phase := rfl
@[simp] theorem setRE_irqEn (e : Bool) (s : State) : (setRE e s).irqEn = s.irqEn := rfl
@[simp] theorem setRE_runCfg (e : Bool) (s : State) : (setRE e s).runCfg = s.runCfg := rfl
@[simp] theorem setRE_bytes (e : Bool) (s : State) : (setRE e s).bytes = s.bytes := rfl
@[simp] theorem setRE_effLen (e : Bool) (s : State) : (setRE e s).effLen = s.effLen := rfl
@[simp] theorem setRE_cur (e : Bool) (s : State) : (setRE e s).cur = s.cur := rfl
@[simp] theorem setRE_pins (e : Bool) (s : State) : (setRE e s).pins = { s.pins with reAct := e } := rfl
@[simp] theorem setRE_clk (e : Bool) (s : State) : (setRE e s).clk = s.clk := rfl
@[simp] theorem setRE_timeHiShadow (e : Bool) (s : State) : (setRE e s).timeHiShadow = s.timeHiShadow := rfl
@[simp] theorem setRE_dev (e : Bool) (s : State) : (setRE e s).dev = s.dev := rfl
@[simp] theorem setRE_onfi (e : Bool) (s : State) : (setRE e s).onfi = s.onfi := rfl
@[simp] theorem setRE_dec (e : Bool) (s : State) : (setRE e s).dec = s.dec := rfl
@[simp] theorem setRE_vid (e : Bool) (s : State) : (setRE e s).vid = s.vid := rfl
@[simp] theorem setRE_eff (e : Bool) (s : State) : (setRE e s).eff = s.eff := rfl
@[simp] theorem setRE_xfer (e : Bool) (s : State) : (setRE e s).xfer = s.xfer := rfl
@[simp] theorem setRE_hookXfer (e : Bool) (s : State) : (setRE e s).hookXfer = s.hookXfer := rfl
@[simp] theorem setRE_mem (e : Bool) (s : State) : (setRE e s).mem = s.mem := rfl
@[simp] theorem setRE_resetIn (e : Bool) (s : State) : (setRE e s).resetIn = s.resetIn := rfl
@[simp] theorem setRE_port (e : Bool) (s : State) : (setRE e s).port = s.port := rfl
@[simp] theorem setRE_rdata (e : Bool) (s : State) : (setRE e s).rdata = s.rdata := rfl
@[simp] theorem setRE_trace (e : Bool) (s : State) : (setRE e s).trace = s.trace := rfl

/-! ### `record` -/

@[simp] theorem record_status (e : Event) (s : State) : (record e s).status = s.status := rfl
@[simp] theorem record_fsm (e : Event) (s : State) : (record e s).fsm = s.fsm := rfl
@[simp] theorem record_phase (e : Event) (s : State) : (record e s).phase = s.phase := rfl
@[simp] theorem record_irqEn (e : Event) (s : State) : (record e s).irqEn = s.irqEn := rfl
@[simp] theorem record_runCfg (e : Event) (s : State) : (record e s).runCfg = s.runCfg := rfl
@[simp] theorem record_bytes (e : Event) (s : State) : (record e s).bytes = s.bytes := rfl
@[simp] theorem record_effLen (e : Event) (s : State) : (record e s).effLen = s.effLen := rfl
@[simp] theorem record_cur (e : Event) (s : State) : (record e s).cur = s.cur := rfl
@[simp] theorem record_pins (e : Event) (s : State) : (record e s).pins = s.pins := rfl
@[simp] theorem record_clk (e : Event) (s : State) : (record e s).clk = s.clk := rfl
@[simp] theorem record_timeHiShadow (e : Event) (s : State) : (record e s).timeHiShadow = s.timeHiShadow := rfl
@[simp] theorem record_dev (e : Event) (s : State) : (record e s).dev = s.dev := rfl
@[simp] theorem record_onfi (e : Event) (s : State) : (record e s).onfi = s.onfi := rfl
@[simp] theorem record_dec (e : Event) (s : State) : (record e s).dec = s.dec := rfl
@[simp] theorem record_vid (e : Event) (s : State) : (record e s).vid = s.vid := rfl
@[simp] theorem record_eff (e : Event) (s : State) : (record e s).eff = s.eff := rfl
@[simp] theorem record_xfer (e : Event) (s : State) : (record e s).xfer = s.xfer := rfl
@[simp] theorem record_hookXfer (e : Event) (s : State) : (record e s).hookXfer = s.hookXfer := rfl
@[simp] theorem record_mem (e : Event) (s : State) : (record e s).mem = s.mem := rfl
@[simp] theorem record_resetIn (e : Event) (s : State) : (record e s).resetIn = s.resetIn := rfl
@[simp] theorem record_port (e : Event) (s : State) : (record e s).port = s.port := rfl
@[simp] theorem record_rdata (e : Event) (s : State) : (record e s).rdata = s.rdata := rfl
@[simp] theorem record_trace (e : Event) (s : State) : (record e s).trace = e :: s.trace := rfl

/-! ### `countCycle` -/

@[simp] theorem countCycle_status (s : State) : (countCycle s).status = s.status := rfl
@[simp] theorem countCycle_fsm (s : State) : (countCycle s).fsm = s.fsm := rfl
@[simp] theorem countCycle_phase (s : State) : (countCycle s).phase = s.phase := rfl
@[simp] theorem countCycle_irqEn (s : State) : (countCycle s).irqEn = s.irqEn := rfl
@[simp] theorem countCycle_runCfg (s : State) : (countCycle s).runCfg = s.runCfg := rfl
@[simp] theorem countCycle_bytes (s : State) : (countCycle s).bytes = s.bytes + 1 := rfl
@[simp] theorem countCycle_effLen (s : State) : (countCycle s).effLen = s.effLen := rfl
@[simp] theorem countCycle_cur (s : State) : (countCycle s).cur = s.cur := rfl
@[simp] theorem countCycle_pins (s : State) : (countCycle s).pins = s.pins := rfl
@[simp] theorem countCycle_clk (s : State) : (countCycle s).clk = s.clk := rfl
@[simp] theorem countCycle_timeHiShadow (s : State) : (countCycle s).timeHiShadow = s.timeHiShadow := rfl
@[simp] theorem countCycle_dev (s : State) : (countCycle s).dev = s.dev := rfl
@[simp] theorem countCycle_onfi (s : State) : (countCycle s).onfi = s.onfi := rfl
@[simp] theorem countCycle_dec (s : State) : (countCycle s).dec = s.dec := rfl
@[simp] theorem countCycle_vid (s : State) : (countCycle s).vid = s.vid := rfl
@[simp] theorem countCycle_eff (s : State) : (countCycle s).eff = s.eff := rfl
@[simp] theorem countCycle_xfer (s : State) : (countCycle s).xfer = s.xfer := rfl
@[simp] theorem countCycle_hookXfer (s : State) : (countCycle s).hookXfer = s.hookXfer := rfl
@[simp] theorem countCycle_mem (s : State) : (countCycle s).mem = s.mem := rfl
@[simp] theorem countCycle_resetIn (s : State) : (countCycle s).resetIn = s.resetIn := rfl
@[simp] theorem countCycle_port (s : State) : (countCycle s).port = s.port := rfl
@[simp] theorem countCycle_rdata (s : State) : (countCycle s).rdata = s.rdata := rfl
@[simp] theorem countCycle_trace (s : State) : (countCycle s).trace = s.trace := rfl

/-! ### `busWrite` -/

@[simp] theorem busWrite_status (w : Width) (t : Timing) (v : Half) (s : State) :
    (busWrite w t v s).status = s.status := by simp [busWrite]
@[simp] theorem busWrite_fsm (w : Width) (t : Timing) (v : Half) (s : State) :
    (busWrite w t v s).fsm = s.fsm := by simp [busWrite]
@[simp] theorem busWrite_phase (w : Width) (t : Timing) (v : Half) (s : State) :
    (busWrite w t v s).phase = s.phase := by simp [busWrite]
@[simp] theorem busWrite_irqEn (w : Width) (t : Timing) (v : Half) (s : State) :
    (busWrite w t v s).irqEn = s.irqEn := by simp [busWrite]
@[simp] theorem busWrite_runCfg (w : Width) (t : Timing) (v : Half) (s : State) :
    (busWrite w t v s).runCfg = s.runCfg := by simp [busWrite]
@[simp] theorem busWrite_bytes (w : Width) (t : Timing) (v : Half) (s : State) :
    (busWrite w t v s).bytes = s.bytes := by simp [busWrite]
@[simp] theorem busWrite_effLen (w : Width) (t : Timing) (v : Half) (s : State) :
    (busWrite w t v s).effLen = s.effLen := by simp [busWrite]
@[simp] theorem busWrite_cur (w : Width) (t : Timing) (v : Half) (s : State) :
    (busWrite w t v s).cur = s.cur := by simp [busWrite]
@[simp] theorem busWrite_pins (w : Width) (t : Timing) (v : Half) (s : State) :
    (busWrite w t v s).pins = { s.pins with dq := w.clip v, weAct := false } := by simp [busWrite]
@[simp] theorem busWrite_clk (w : Width) (t : Timing) (v : Half) (s : State) :
    (busWrite w t v s).clk = ((s.clk.hold t.cycEn).pass).hold t.cycDis := by simp [busWrite]
@[simp] theorem busWrite_timeHiShadow (w : Width) (t : Timing) (v : Half) (s : State) :
    (busWrite w t v s).timeHiShadow = s.timeHiShadow := by simp [busWrite]
@[simp] theorem busWrite_dev (w : Width) (t : Timing) (v : Half) (s : State) :
    (busWrite w t v s).dev = s.dev := by simp [busWrite]
@[simp] theorem busWrite_onfi (w : Width) (t : Timing) (v : Half) (s : State) :
    (busWrite w t v s).onfi = s.onfi := by simp [busWrite]
@[simp] theorem busWrite_dec (w : Width) (t : Timing) (v : Half) (s : State) :
    (busWrite w t v s).dec = s.dec := by simp [busWrite]
@[simp] theorem busWrite_vid (w : Width) (t : Timing) (v : Half) (s : State) :
    (busWrite w t v s).vid = s.vid := by simp [busWrite]
@[simp] theorem busWrite_eff (w : Width) (t : Timing) (v : Half) (s : State) :
    (busWrite w t v s).eff = s.eff := by simp [busWrite]
@[simp] theorem busWrite_xfer (w : Width) (t : Timing) (v : Half) (s : State) :
    (busWrite w t v s).xfer = s.xfer := by simp [busWrite]
@[simp] theorem busWrite_hookXfer (w : Width) (t : Timing) (v : Half) (s : State) :
    (busWrite w t v s).hookXfer = s.hookXfer := by simp [busWrite]
@[simp] theorem busWrite_mem (w : Width) (t : Timing) (v : Half) (s : State) :
    (busWrite w t v s).mem = s.mem := by simp [busWrite]
@[simp] theorem busWrite_resetIn (w : Width) (t : Timing) (v : Half) (s : State) :
    (busWrite w t v s).resetIn = s.resetIn := by simp [busWrite]
@[simp] theorem busWrite_port (w : Width) (t : Timing) (v : Half) (s : State) :
    (busWrite w t v s).port = s.port := by simp [busWrite]
@[simp] theorem busWrite_rdata (w : Width) (t : Timing) (v : Half) (s : State) :
    (busWrite w t v s).rdata = s.rdata := by simp [busWrite]
@[simp] theorem busWrite_trace (w : Width) (t : Timing) (v : Half) (s : State) :
    (busWrite w t v s).trace = .wcyc w (w.clip v) :: s.trace := by simp [busWrite]

/-! ### `strobeRead` -/

@[simp] theorem strobeRead_status (t : Timing) (s : State) :
    (strobeRead t s).status = s.status := by simp [strobeRead]
@[simp] theorem strobeRead_fsm (t : Timing) (s : State) : (strobeRead t s).fsm = s.fsm := by simp [strobeRead]
@[simp] theorem strobeRead_phase (t : Timing) (s : State) : (strobeRead t s).phase = s.phase := by simp [strobeRead]
@[simp] theorem strobeRead_irqEn (t : Timing) (s : State) : (strobeRead t s).irqEn = s.irqEn := by simp [strobeRead]
@[simp] theorem strobeRead_runCfg (t : Timing) (s : State) :
    (strobeRead t s).runCfg = s.runCfg := by simp [strobeRead]
@[simp] theorem strobeRead_bytes (t : Timing) (s : State) : (strobeRead t s).bytes = s.bytes := by simp [strobeRead]
@[simp] theorem strobeRead_effLen (t : Timing) (s : State) :
    (strobeRead t s).effLen = s.effLen := by simp [strobeRead]
@[simp] theorem strobeRead_cur (t : Timing) (s : State) : (strobeRead t s).cur = s.cur := by simp [strobeRead]
@[simp] theorem strobeRead_pins (t : Timing) (s : State) :
    (strobeRead t s).pins = { s.pins with reAct := true } := by simp [strobeRead]
@[simp] theorem strobeRead_clk (t : Timing) (s : State) :
    (strobeRead t s).clk = (s.clk.hold t.cycEn).pass := by simp [strobeRead]
@[simp] theorem strobeRead_timeHiShadow (t : Timing) (s : State) :
    (strobeRead t s).timeHiShadow = s.timeHiShadow := by simp [strobeRead]
@[simp] theorem strobeRead_dev (t : Timing) (s : State) : (strobeRead t s).dev = s.dev := by simp [strobeRead]
@[simp] theorem strobeRead_onfi (t : Timing) (s : State) : (strobeRead t s).onfi = s.onfi := by simp [strobeRead]
@[simp] theorem strobeRead_dec (t : Timing) (s : State) : (strobeRead t s).dec = s.dec := by simp [strobeRead]
@[simp] theorem strobeRead_vid (t : Timing) (s : State) : (strobeRead t s).vid = s.vid := by simp [strobeRead]
@[simp] theorem strobeRead_eff (t : Timing) (s : State) : (strobeRead t s).eff = s.eff := by simp [strobeRead]
@[simp] theorem strobeRead_xfer (t : Timing) (s : State) : (strobeRead t s).xfer = s.xfer := by simp [strobeRead]
@[simp] theorem strobeRead_hookXfer (t : Timing) (s : State) :
    (strobeRead t s).hookXfer = s.hookXfer := by simp [strobeRead]
@[simp] theorem strobeRead_mem (t : Timing) (s : State) : (strobeRead t s).mem = s.mem := by simp [strobeRead]
@[simp] theorem strobeRead_resetIn (t : Timing) (s : State) :
    (strobeRead t s).resetIn = s.resetIn := by simp [strobeRead]
@[simp] theorem strobeRead_port (t : Timing) (s : State) : (strobeRead t s).port = s.port := by simp [strobeRead]
@[simp] theorem strobeRead_rdata (t : Timing) (s : State) : (strobeRead t s).rdata = s.rdata := by simp [strobeRead]
@[simp] theorem strobeRead_trace (t : Timing) (s : State) : (strobeRead t s).trace = s.trace := by simp [strobeRead]

/-! ### `busRead` -/

@[simp] theorem busRead_status (w : Width) (t : Timing) (s : State) :
    (busRead w t s).2.status = s.status := by simp [busRead]
@[simp] theorem busRead_fsm (w : Width) (t : Timing) (s : State) :
    (busRead w t s).2.fsm = s.fsm := by simp [busRead]
@[simp] theorem busRead_phase (w : Width) (t : Timing) (s : State) :
    (busRead w t s).2.phase = s.phase := by simp [busRead]
@[simp] theorem busRead_irqEn (w : Width) (t : Timing) (s : State) :
    (busRead w t s).2.irqEn = s.irqEn := by simp [busRead]
@[simp] theorem busRead_runCfg (w : Width) (t : Timing) (s : State) :
    (busRead w t s).2.runCfg = s.runCfg := by simp [busRead]
@[simp] theorem busRead_bytes (w : Width) (t : Timing) (s : State) :
    (busRead w t s).2.bytes = s.bytes := by simp [busRead]
@[simp] theorem busRead_effLen (w : Width) (t : Timing) (s : State) :
    (busRead w t s).2.effLen = s.effLen := by simp [busRead]
@[simp] theorem busRead_cur (w : Width) (t : Timing) (s : State) :
    (busRead w t s).2.cur = s.cur := by simp [busRead]
@[simp] theorem busRead_pins (w : Width) (t : Timing) (s : State) :
    (busRead w t s).2.pins = { s.pins with reAct := false } := by simp [busRead]
@[simp] theorem busRead_timeHiShadow (w : Width) (t : Timing) (s : State) :
    (busRead w t s).2.timeHiShadow = s.timeHiShadow := by simp [busRead]
@[simp] theorem busRead_dev (w : Width) (t : Timing) (s : State) :
    (busRead w t s).2.dev = s.dev := by simp [busRead]
@[simp] theorem busRead_onfi (w : Width) (t : Timing) (s : State) :
    (busRead w t s).2.onfi = s.onfi := by simp [busRead]
@[simp] theorem busRead_dec (w : Width) (t : Timing) (s : State) :
    (busRead w t s).2.dec = s.dec := by simp [busRead]
@[simp] theorem busRead_vid (w : Width) (t : Timing) (s : State) :
    (busRead w t s).2.vid = s.vid := by simp [busRead]
@[simp] theorem busRead_eff (w : Width) (t : Timing) (s : State) :
    (busRead w t s).2.eff = s.eff := by simp [busRead]
@[simp] theorem busRead_xfer (w : Width) (t : Timing) (s : State) :
    (busRead w t s).2.xfer = s.xfer := by simp [busRead]
@[simp] theorem busRead_hookXfer (w : Width) (t : Timing) (s : State) :
    (busRead w t s).2.hookXfer = s.hookXfer := by simp [busRead]
@[simp] theorem busRead_mem (w : Width) (t : Timing) (s : State) :
    (busRead w t s).2.mem = s.mem := by simp [busRead]
@[simp] theorem busRead_resetIn (w : Width) (t : Timing) (s : State) :
    (busRead w t s).2.resetIn = s.resetIn := by simp [busRead]
@[simp] theorem busRead_port (w : Width) (t : Timing) (s : State) :
    (busRead w t s).2.port = s.port := by simp [busRead]
@[simp] theorem busRead_rdata (w : Width) (t : Timing) (s : State) :
    (busRead w t s).2.rdata = s.rdata := by simp [busRead]
@[simp] theorem busRead_trace (w : Width) (t : Timing) (s : State) :
    (busRead w t s).2.trace = .rcyc w (busRead w t s).1 :: s.trace := by simp [busRead]

/-! ### `beginStep` -/

@[simp] theorem beginStep_status (i : Nat) (s : State) :
    (beginStep i s).status = { s.status with step := BitVec.ofNat 8 i } := rfl
@[simp] theorem beginStep_fsm (i : Nat) (s : State) : (beginStep i s).fsm = s.fsm := rfl
@[simp] theorem beginStep_phase (i : Nat) (s : State) : (beginStep i s).phase = .begin := rfl
@[simp] theorem beginStep_irqEn (i : Nat) (s : State) : (beginStep i s).irqEn = s.irqEn := rfl
@[simp] theorem beginStep_runCfg (i : Nat) (s : State) : (beginStep i s).runCfg = s.runCfg := rfl
@[simp] theorem beginStep_bytes (i : Nat) (s : State) : (beginStep i s).bytes = s.bytes := rfl
@[simp] theorem beginStep_effLen (i : Nat) (s : State) : (beginStep i s).effLen = s.effLen := rfl
@[simp] theorem beginStep_cur (i : Nat) (s : State) :
    (beginStep i s).cur = if i < s.effLen.toNat then (s.eff.entry i).cur else s.cur := rfl
@[simp] theorem beginStep_pins (i : Nat) (s : State) : (beginStep i s).pins = s.pins := rfl
@[simp] theorem beginStep_clk (i : Nat) (s : State) : (beginStep i s).clk = s.clk := rfl
@[simp] theorem beginStep_timeHiShadow (i : Nat) (s : State) : (beginStep i s).timeHiShadow = s.timeHiShadow := rfl
@[simp] theorem beginStep_dev (i : Nat) (s : State) : (beginStep i s).dev = s.dev := rfl
@[simp] theorem beginStep_onfi (i : Nat) (s : State) : (beginStep i s).onfi = s.onfi := rfl
@[simp] theorem beginStep_dec (i : Nat) (s : State) : (beginStep i s).dec = s.dec := rfl
@[simp] theorem beginStep_vid (i : Nat) (s : State) : (beginStep i s).vid = s.vid := rfl
@[simp] theorem beginStep_eff (i : Nat) (s : State) : (beginStep i s).eff = s.eff := rfl
@[simp] theorem beginStep_xfer (i : Nat) (s : State) : (beginStep i s).xfer = s.xfer := rfl
@[simp] theorem beginStep_hookXfer (i : Nat) (s : State) : (beginStep i s).hookXfer = s.hookXfer := rfl
@[simp] theorem beginStep_mem (i : Nat) (s : State) : (beginStep i s).mem = s.mem := rfl
@[simp] theorem beginStep_resetIn (i : Nat) (s : State) : (beginStep i s).resetIn = s.resetIn := rfl
@[simp] theorem beginStep_port (i : Nat) (s : State) : (beginStep i s).port = s.port := rfl
@[simp] theorem beginStep_rdata (i : Nat) (s : State) : (beginStep i s).rdata = s.rdata := rfl
@[simp] theorem beginStep_trace (i : Nat) (s : State) : (beginStep i s).trace = s.trace := rfl

/-! ### `nextStep` -/

@[simp] theorem nextStep_status (s : State) :
    (nextStep s).status = { s.status with step := BitVec.ofNat 8 (s.status.step.toNat + 1) } := by simp [nextStep]
@[simp] theorem nextStep_fsm (s : State) : (nextStep s).fsm = s.fsm := by simp [nextStep]
@[simp] theorem nextStep_phase (s : State) : (nextStep s).phase = .begin := by simp [nextStep]
@[simp] theorem nextStep_irqEn (s : State) : (nextStep s).irqEn = s.irqEn := by simp [nextStep]
@[simp] theorem nextStep_runCfg (s : State) : (nextStep s).runCfg = s.runCfg := by simp [nextStep]
@[simp] theorem nextStep_bytes (s : State) : (nextStep s).bytes = s.bytes := by simp [nextStep]
@[simp] theorem nextStep_effLen (s : State) : (nextStep s).effLen = s.effLen := by simp [nextStep]
@[simp] theorem nextStep_cur (s : State) :
    (nextStep s).cur =
      if s.status.step.toNat + 1 < s.effLen.toNat then (s.eff.entry (s.status.step.toNat + 1)).cur else s.cur := by
  simp [nextStep]
@[simp] theorem nextStep_pins (s : State) : (nextStep s).pins = s.pins := by simp [nextStep]
@[simp] theorem nextStep_clk (s : State) : (nextStep s).clk = s.clk := by simp [nextStep]
@[simp] theorem nextStep_timeHiShadow (s : State) : (nextStep s).timeHiShadow = s.timeHiShadow := by simp [nextStep]
@[simp] theorem nextStep_dev (s : State) : (nextStep s).dev = s.dev := by simp [nextStep]
@[simp] theorem nextStep_onfi (s : State) : (nextStep s).onfi = s.onfi := by simp [nextStep]
@[simp] theorem nextStep_dec (s : State) : (nextStep s).dec = s.dec := by simp [nextStep]
@[simp] theorem nextStep_vid (s : State) : (nextStep s).vid = s.vid := by simp [nextStep]
@[simp] theorem nextStep_eff (s : State) : (nextStep s).eff = s.eff := by simp [nextStep]
@[simp] theorem nextStep_xfer (s : State) : (nextStep s).xfer = s.xfer := by simp [nextStep]
@[simp] theorem nextStep_hookXfer (s : State) : (nextStep s).hookXfer = s.hookXfer := by simp [nextStep]
@[simp] theorem nextStep_mem (s : State) : (nextStep s).mem = s.mem := by simp [nextStep]
@[simp] theorem nextStep_resetIn (s : State) : (nextStep s).resetIn = s.resetIn := by simp [nextStep]
@[simp] theorem nextStep_port (s : State) : (nextStep s).port = s.port := by simp [nextStep]
@[simp] theorem nextStep_rdata (s : State) : (nextStep s).rdata = s.rdata := by simp [nextStep]
@[simp] theorem nextStep_trace (s : State) : (nextStep s).trace = s.trace := by simp [nextStep]

/-! ### `endStep` -/

@[simp] theorem endStep_status (t : Timing) (s : State) :
    (endStep t s).status = { s.status with step := BitVec.ofNat 8 (s.status.step.toNat + 1) } := by simp [endStep]
@[simp] theorem endStep_fsm (t : Timing) (s : State) : (endStep t s).fsm = s.fsm := by simp [endStep]
@[simp] theorem endStep_phase (t : Timing) (s : State) : (endStep t s).phase = .begin := by simp [endStep]
@[simp] theorem endStep_irqEn (t : Timing) (s : State) : (endStep t s).irqEn = s.irqEn := by simp [endStep]
@[simp] theorem endStep_runCfg (t : Timing) (s : State) : (endStep t s).runCfg = s.runCfg := by simp [endStep]
@[simp] theorem endStep_bytes (t : Timing) (s : State) : (endStep t s).bytes = s.bytes := by simp [endStep]
@[simp] theorem endStep_effLen (t : Timing) (s : State) : (endStep t s).effLen = s.effLen := by simp [endStep]
@[simp] theorem endStep_cur (t : Timing) (s : State) :
    (endStep t s).cur =
      if s.status.step.toNat + 1 < s.effLen.toNat then (s.eff.entry (s.status.step.toNat + 1)).cur else s.cur := by
  simp [endStep]; rfl
@[simp] theorem endStep_pins (t : Timing) (s : State) : (endStep t s).pins = s.pins := by simp [endStep]
@[simp] theorem endStep_clk (t : Timing) (s : State) : (endStep t s).clk = s.clk.hold t.post := by simp [endStep]
@[simp] theorem endStep_timeHiShadow (t : Timing) (s : State) :
    (endStep t s).timeHiShadow = s.timeHiShadow := by simp [endStep]
@[simp] theorem endStep_dev (t : Timing) (s : State) : (endStep t s).dev = s.dev := by simp [endStep]
@[simp] theorem endStep_onfi (t : Timing) (s : State) : (endStep t s).onfi = s.onfi := by simp [endStep]
@[simp] theorem endStep_dec (t : Timing) (s : State) : (endStep t s).dec = s.dec := by simp [endStep]
@[simp] theorem endStep_vid (t : Timing) (s : State) : (endStep t s).vid = s.vid := by simp [endStep]
@[simp] theorem endStep_eff (t : Timing) (s : State) : (endStep t s).eff = s.eff := by simp [endStep]
@[simp] theorem endStep_xfer (t : Timing) (s : State) : (endStep t s).xfer = s.xfer := by simp [endStep]
@[simp] theorem endStep_hookXfer (t : Timing) (s : State) : (endStep t s).hookXfer = s.hookXfer := by simp [endStep]
@[simp] theorem endStep_mem (t : Timing) (s : State) : (endStep t s).mem = s.mem := by simp [endStep]
@[simp] theorem endStep_resetIn (t : Timing) (s : State) : (endStep t s).resetIn = s.resetIn := by simp [endStep]
@[simp] theorem endStep_port (t : Timing) (s : State) : (endStep t s).port = s.port := by simp [endStep]
@[simp] theorem endStep_rdata (t : Timing) (s : State) : (endStep t s).rdata = s.rdata := by simp [endStep]
@[simp] theorem endStep_trace (t : Timing) (s : State) :
    (endStep t s).trace = if t.post = 0 then s.trace else .delay t.post :: s.trace := by simp [endStep]

/-! ### `finish` -/

@[simp] theorem finish_status (r : Resp) (n : Word) (s : State) :
    (finish r n s).status = { s.status with resp := r, done := true } := rfl
@[simp] theorem finish_fsm (r : Resp) (n : Word) (s : State) : (finish r n s).fsm = .idle := rfl
@[simp] theorem finish_phase (r : Resp) (n : Word) (s : State) : (finish r n s).phase = .begin := rfl
@[simp] theorem finish_irqEn (r : Resp) (n : Word) (s : State) : (finish r n s).irqEn = s.irqEn := rfl
@[simp] theorem finish_runCfg (r : Resp) (n : Word) (s : State) : (finish r n s).runCfg = s.runCfg := rfl
@[simp] theorem finish_bytes (r : Resp) (n : Word) (s : State) : (finish r n s).bytes = n := rfl
@[simp] theorem finish_effLen (r : Resp) (n : Word) (s : State) : (finish r n s).effLen = s.effLen := rfl
@[simp] theorem finish_cur (r : Resp) (n : Word) (s : State) : (finish r n s).cur = s.cur := rfl
@[simp] theorem finish_pins (r : Resp) (n : Word) (s : State) : (finish r n s).pins = s.pins := rfl
@[simp] theorem finish_clk (r : Resp) (n : Word) (s : State) : (finish r n s).clk = s.clk.pass := rfl
@[simp] theorem finish_timeHiShadow (r : Resp) (n : Word) (s : State) :
    (finish r n s).timeHiShadow = s.timeHiShadow := rfl
@[simp] theorem finish_dev (r : Resp) (n : Word) (s : State) : (finish r n s).dev = s.dev := rfl
@[simp] theorem finish_onfi (r : Resp) (n : Word) (s : State) : (finish r n s).onfi = s.onfi := rfl
@[simp] theorem finish_dec (r : Resp) (n : Word) (s : State) : (finish r n s).dec = s.dec := rfl
@[simp] theorem finish_vid (r : Resp) (n : Word) (s : State) : (finish r n s).vid = s.vid := rfl
@[simp] theorem finish_eff (r : Resp) (n : Word) (s : State) : (finish r n s).eff = s.eff := rfl
@[simp] theorem finish_xfer (r : Resp) (n : Word) (s : State) : (finish r n s).xfer = s.xfer := rfl
@[simp] theorem finish_hookXfer (r : Resp) (n : Word) (s : State) : (finish r n s).hookXfer = s.hookXfer := rfl
@[simp] theorem finish_mem (r : Resp) (n : Word) (s : State) : (finish r n s).mem = s.mem := rfl
@[simp] theorem finish_resetIn (r : Resp) (n : Word) (s : State) : (finish r n s).resetIn = s.resetIn := rfl
@[simp] theorem finish_port (r : Resp) (n : Word) (s : State) : (finish r n s).port = s.port := rfl
@[simp] theorem finish_rdata (r : Resp) (n : Word) (s : State) : (finish r n s).rdata = s.rdata := rfl
@[simp] theorem finish_trace (r : Resp) (n : Word) (s : State) :
    (finish r n s).trace = .finish r n :: s.trace := rfl

/-! ### `rejectRun` -/

@[simp] theorem rejectRun_status (r : Resp) (s : State) :
    (rejectRun r s).status = { s.status with resp := r, done := true, step := 0 } := by simp [rejectRun]
@[simp] theorem rejectRun_fsm (r : Resp) (s : State) : (rejectRun r s).fsm = .idle := by simp [rejectRun]
@[simp] theorem rejectRun_phase (r : Resp) (s : State) : (rejectRun r s).phase = .begin := by simp [rejectRun]
@[simp] theorem rejectRun_irqEn (r : Resp) (s : State) : (rejectRun r s).irqEn = s.irqEn := by simp [rejectRun]
@[simp] theorem rejectRun_runCfg (r : Resp) (s : State) : (rejectRun r s).runCfg = s.runCfg := by simp [rejectRun]
@[simp] theorem rejectRun_bytes (r : Resp) (s : State) : (rejectRun r s).bytes = 0 := by simp [rejectRun]
@[simp] theorem rejectRun_effLen (r : Resp) (s : State) : (rejectRun r s).effLen = s.effLen := by simp [rejectRun]
@[simp] theorem rejectRun_cur (r : Resp) (s : State) : (rejectRun r s).cur = s.cur := by simp [rejectRun]
@[simp] theorem rejectRun_pins (r : Resp) (s : State) : (rejectRun r s).pins = s.pins := by simp [rejectRun]
@[simp] theorem rejectRun_clk (r : Resp) (s : State) : (rejectRun r s).clk = s.clk.pass := by simp [rejectRun]
@[simp] theorem rejectRun_timeHiShadow (r : Resp) (s : State) :
    (rejectRun r s).timeHiShadow = s.timeHiShadow := by simp [rejectRun]
@[simp] theorem rejectRun_dev (r : Resp) (s : State) : (rejectRun r s).dev = s.dev := by simp [rejectRun]
@[simp] theorem rejectRun_onfi (r : Resp) (s : State) : (rejectRun r s).onfi = s.onfi := by simp [rejectRun]
@[simp] theorem rejectRun_dec (r : Resp) (s : State) : (rejectRun r s).dec = s.dec := by simp [rejectRun]
@[simp] theorem rejectRun_vid (r : Resp) (s : State) : (rejectRun r s).vid = s.vid := by simp [rejectRun]
@[simp] theorem rejectRun_eff (r : Resp) (s : State) : (rejectRun r s).eff = s.eff := by simp [rejectRun]
@[simp] theorem rejectRun_xfer (r : Resp) (s : State) : (rejectRun r s).xfer = s.xfer := by simp [rejectRun]
@[simp] theorem rejectRun_hookXfer (r : Resp) (s : State) :
    (rejectRun r s).hookXfer = s.hookXfer := by simp [rejectRun]
@[simp] theorem rejectRun_mem (r : Resp) (s : State) : (rejectRun r s).mem = s.mem := by simp [rejectRun]
@[simp] theorem rejectRun_resetIn (r : Resp) (s : State) : (rejectRun r s).resetIn = s.resetIn := by simp [rejectRun]
@[simp] theorem rejectRun_port (r : Resp) (s : State) : (rejectRun r s).port = s.port := by simp [rejectRun]
@[simp] theorem rejectRun_rdata (r : Resp) (s : State) : (rejectRun r s).rdata = s.rdata := by simp [rejectRun]
@[simp] theorem rejectRun_trace (r : Resp) (s : State) :
    (rejectRun r s).trace = .finish r 0 :: s.trace := by simp [rejectRun]

/-! ### `timeoutPath` -/

@[simp] theorem timeoutPath_status (t : Timing) (s : State) :
    (timeoutPath t s).status = { s.status with resp := .timeout, done := true } := by simp [timeoutPath]
@[simp] theorem timeoutPath_fsm (t : Timing) (s : State) : (timeoutPath t s).fsm = .idle := by simp [timeoutPath]
@[simp] theorem timeoutPath_phase (t : Timing) (s : State) :
    (timeoutPath t s).phase = .begin := by simp [timeoutPath]
@[simp] theorem timeoutPath_irqEn (t : Timing) (s : State) :
    (timeoutPath t s).irqEn = s.irqEn := by simp [timeoutPath]
@[simp] theorem timeoutPath_runCfg (t : Timing) (s : State) :
    (timeoutPath t s).runCfg = s.runCfg := by simp [timeoutPath]
@[simp] theorem timeoutPath_bytes (t : Timing) (s : State) :
    (timeoutPath t s).bytes = s.bytes := by simp [timeoutPath]
@[simp] theorem timeoutPath_effLen (t : Timing) (s : State) :
    (timeoutPath t s).effLen = s.effLen := by simp [timeoutPath]
@[simp] theorem timeoutPath_cur (t : Timing) (s : State) : (timeoutPath t s).cur = s.cur := by simp [timeoutPath]
@[simp] theorem timeoutPath_pins (t : Timing) (s : State) :
    (timeoutPath t s).pins = { s.pins with latch := .neutral } := by simp [timeoutPath]
@[simp] theorem timeoutPath_clk (t : Timing) (s : State) :
    (timeoutPath t s).clk = (((s.clk.pass).hold t.ldPre).hold t.ldPost).pass := by simp [timeoutPath]
@[simp] theorem timeoutPath_timeHiShadow (t : Timing) (s : State) :
    (timeoutPath t s).timeHiShadow = s.timeHiShadow := by simp [timeoutPath]
@[simp] theorem timeoutPath_dev (t : Timing) (s : State) : (timeoutPath t s).dev = s.dev := by simp [timeoutPath]
@[simp] theorem timeoutPath_onfi (t : Timing) (s : State) : (timeoutPath t s).onfi = s.onfi := by simp [timeoutPath]
@[simp] theorem timeoutPath_dec (t : Timing) (s : State) : (timeoutPath t s).dec = s.dec := by simp [timeoutPath]
@[simp] theorem timeoutPath_vid (t : Timing) (s : State) : (timeoutPath t s).vid = s.vid := by simp [timeoutPath]
@[simp] theorem timeoutPath_eff (t : Timing) (s : State) : (timeoutPath t s).eff = s.eff := by simp [timeoutPath]
@[simp] theorem timeoutPath_xfer (t : Timing) (s : State) : (timeoutPath t s).xfer = s.xfer := by simp [timeoutPath]
@[simp] theorem timeoutPath_hookXfer (t : Timing) (s : State) :
    (timeoutPath t s).hookXfer = s.hookXfer := by simp [timeoutPath]
@[simp] theorem timeoutPath_mem (t : Timing) (s : State) : (timeoutPath t s).mem = s.mem := by simp [timeoutPath]
@[simp] theorem timeoutPath_resetIn (t : Timing) (s : State) :
    (timeoutPath t s).resetIn = s.resetIn := by simp [timeoutPath]
@[simp] theorem timeoutPath_port (t : Timing) (s : State) : (timeoutPath t s).port = s.port := by simp [timeoutPath]
@[simp] theorem timeoutPath_rdata (t : Timing) (s : State) :
    (timeoutPath t s).rdata = s.rdata := by simp [timeoutPath]

/-! ### `enterHook` -/

@[simp] theorem enterHook_status (k : HookKind) (r : Bool) (c : Word) (s : State) :
    (enterHook k r c s).status = { s.status with hookPost := decide (k = .post), hookRaw := r } := rfl
@[simp] theorem enterHook_fsm (k : HookKind) (r : Bool) (c : Word) (s : State) :
    (enterHook k r c s).fsm = .hookWait := rfl
@[simp] theorem enterHook_phase (k : HookKind) (r : Bool) (c : Word) (s : State) :
    (enterHook k r c s).phase = k.resumePhase := rfl
@[simp] theorem enterHook_irqEn (k : HookKind) (r : Bool) (c : Word) (s : State) :
    (enterHook k r c s).irqEn = s.irqEn := rfl
@[simp] theorem enterHook_runCfg (k : HookKind) (r : Bool) (c : Word) (s : State) :
    (enterHook k r c s).runCfg = s.runCfg := rfl
@[simp] theorem enterHook_bytes (k : HookKind) (r : Bool) (c : Word) (s : State) :
    (enterHook k r c s).bytes = s.bytes := rfl
@[simp] theorem enterHook_effLen (k : HookKind) (r : Bool) (c : Word) (s : State) :
    (enterHook k r c s).effLen = s.effLen := rfl
@[simp] theorem enterHook_cur (k : HookKind) (r : Bool) (c : Word) (s : State) :
    (enterHook k r c s).cur = s.cur := rfl
@[simp] theorem enterHook_pins (k : HookKind) (r : Bool) (c : Word) (s : State) :
    (enterHook k r c s).pins = s.pins := rfl
@[simp] theorem enterHook_clk (k : HookKind) (r : Bool) (c : Word) (s : State) :
    (enterHook k r c s).clk = s.clk.pass := rfl
@[simp] theorem enterHook_timeHiShadow (k : HookKind) (r : Bool) (c : Word) (s : State) :
    (enterHook k r c s).timeHiShadow = s.timeHiShadow := rfl
@[simp] theorem enterHook_dev (k : HookKind) (r : Bool) (c : Word) (s : State) :
    (enterHook k r c s).dev = s.dev := rfl
@[simp] theorem enterHook_onfi (k : HookKind) (r : Bool) (c : Word) (s : State) :
    (enterHook k r c s).onfi = s.onfi := rfl
@[simp] theorem enterHook_dec (k : HookKind) (r : Bool) (c : Word) (s : State) :
    (enterHook k r c s).dec = s.dec := rfl
@[simp] theorem enterHook_vid (k : HookKind) (r : Bool) (c : Word) (s : State) :
    (enterHook k r c s).vid = s.vid := rfl
@[simp] theorem enterHook_eff (k : HookKind) (r : Bool) (c : Word) (s : State) :
    (enterHook k r c s).eff = s.eff := rfl
@[simp] theorem enterHook_xfer (k : HookKind) (r : Bool) (c : Word) (s : State) :
    (enterHook k r c s).xfer = s.xfer := rfl
@[simp] theorem enterHook_hookXfer (k : HookKind) (r : Bool) (c : Word) (s : State) :
    (enterHook k r c s).hookXfer = s.hookXfer := rfl
@[simp] theorem enterHook_mem (k : HookKind) (r : Bool) (c : Word) (s : State) :
    (enterHook k r c s).mem = s.mem := rfl
@[simp] theorem enterHook_resetIn (k : HookKind) (r : Bool) (c : Word) (s : State) :
    (enterHook k r c s).resetIn = s.resetIn := rfl
@[simp] theorem enterHook_port (k : HookKind) (r : Bool) (c : Word) (s : State) :
    (enterHook k r c s).port = s.port := rfl
@[simp] theorem enterHook_rdata (k : HookKind) (r : Bool) (c : Word) (s : State) :
    (enterHook k r c s).rdata = s.rdata := rfl
@[simp] theorem enterHook_trace (k : HookKind) (r : Bool) (c : Word) (s : State) :
    (enterHook k r c s).trace = .hook k s.status.step r c :: s.trace := rfl

/-! ### `returnFromHook` -/

@[simp] theorem returnFromHook_status (s : State) : (returnFromHook s).status = s.status := rfl
@[simp] theorem returnFromHook_fsm (s : State) : (returnFromHook s).fsm = .running := rfl
@[simp] theorem returnFromHook_phase (s : State) : (returnFromHook s).phase = s.phase := rfl
@[simp] theorem returnFromHook_irqEn (s : State) : (returnFromHook s).irqEn = s.irqEn := rfl
@[simp] theorem returnFromHook_runCfg (s : State) : (returnFromHook s).runCfg = s.runCfg := rfl
@[simp] theorem returnFromHook_bytes (s : State) : (returnFromHook s).bytes = s.bytes := rfl
@[simp] theorem returnFromHook_effLen (s : State) : (returnFromHook s).effLen = s.effLen := rfl
@[simp] theorem returnFromHook_cur (s : State) : (returnFromHook s).cur = s.cur := rfl
@[simp] theorem returnFromHook_pins (s : State) : (returnFromHook s).pins = s.pins := rfl
@[simp] theorem returnFromHook_clk (s : State) : (returnFromHook s).clk = s.clk := rfl
@[simp] theorem returnFromHook_timeHiShadow (s : State) : (returnFromHook s).timeHiShadow = s.timeHiShadow := rfl
@[simp] theorem returnFromHook_dev (s : State) : (returnFromHook s).dev = s.dev := rfl
@[simp] theorem returnFromHook_onfi (s : State) : (returnFromHook s).onfi = s.onfi := rfl
@[simp] theorem returnFromHook_dec (s : State) : (returnFromHook s).dec = s.dec := rfl
@[simp] theorem returnFromHook_vid (s : State) : (returnFromHook s).vid = s.vid := rfl
@[simp] theorem returnFromHook_eff (s : State) : (returnFromHook s).eff = s.eff := rfl
@[simp] theorem returnFromHook_xfer (s : State) : (returnFromHook s).xfer = s.xfer := rfl
@[simp] theorem returnFromHook_hookXfer (s : State) : (returnFromHook s).hookXfer = s.hookXfer := rfl
@[simp] theorem returnFromHook_mem (s : State) : (returnFromHook s).mem = s.mem := rfl
@[simp] theorem returnFromHook_resetIn (s : State) : (returnFromHook s).resetIn = s.resetIn := rfl
@[simp] theorem returnFromHook_port (s : State) : (returnFromHook s).port = s.port := rfl
@[simp] theorem returnFromHook_rdata (s : State) : (returnFromHook s).rdata = s.rdata := rfl
@[simp] theorem returnFromHook_trace (s : State) : (returnFromHook s).trace = s.trace := rfl

/-! ### `setXfer` -/

@[simp] theorem setXfer_status (k : Fin Config.numXfer) (f : XferRec → XferRec) (s : State) :
    (s.setXfer k f).status = s.status := rfl
@[simp] theorem setXfer_fsm (k : Fin Config.numXfer) (f : XferRec → XferRec) (s : State) :
    (s.setXfer k f).fsm = s.fsm := rfl
@[simp] theorem setXfer_phase (k : Fin Config.numXfer) (f : XferRec → XferRec) (s : State) :
    (s.setXfer k f).phase = s.phase := rfl
@[simp] theorem setXfer_irqEn (k : Fin Config.numXfer) (f : XferRec → XferRec) (s : State) :
    (s.setXfer k f).irqEn = s.irqEn := rfl
@[simp] theorem setXfer_runCfg (k : Fin Config.numXfer) (f : XferRec → XferRec) (s : State) :
    (s.setXfer k f).runCfg = s.runCfg := rfl
@[simp] theorem setXfer_bytes (k : Fin Config.numXfer) (f : XferRec → XferRec) (s : State) :
    (s.setXfer k f).bytes = s.bytes := rfl
@[simp] theorem setXfer_effLen (k : Fin Config.numXfer) (f : XferRec → XferRec) (s : State) :
    (s.setXfer k f).effLen = s.effLen := rfl
@[simp] theorem setXfer_cur (k : Fin Config.numXfer) (f : XferRec → XferRec) (s : State) :
    (s.setXfer k f).cur = s.cur := rfl
@[simp] theorem setXfer_pins (k : Fin Config.numXfer) (f : XferRec → XferRec) (s : State) :
    (s.setXfer k f).pins = s.pins := rfl
@[simp] theorem setXfer_clk (k : Fin Config.numXfer) (f : XferRec → XferRec) (s : State) :
    (s.setXfer k f).clk = s.clk := rfl
@[simp] theorem setXfer_timeHiShadow (k : Fin Config.numXfer) (f : XferRec → XferRec) (s : State) :
    (s.setXfer k f).timeHiShadow = s.timeHiShadow := rfl
@[simp] theorem setXfer_dev (k : Fin Config.numXfer) (f : XferRec → XferRec) (s : State) :
    (s.setXfer k f).dev = s.dev := rfl
@[simp] theorem setXfer_onfi (k : Fin Config.numXfer) (f : XferRec → XferRec) (s : State) :
    (s.setXfer k f).onfi = s.onfi := rfl
@[simp] theorem setXfer_dec (k : Fin Config.numXfer) (f : XferRec → XferRec) (s : State) :
    (s.setXfer k f).dec = s.dec := rfl
@[simp] theorem setXfer_vid (k : Fin Config.numXfer) (f : XferRec → XferRec) (s : State) :
    (s.setXfer k f).vid = s.vid := rfl
@[simp] theorem setXfer_eff (k : Fin Config.numXfer) (f : XferRec → XferRec) (s : State) :
    (s.setXfer k f).eff = s.eff := rfl
@[simp] theorem setXfer_xfer (k : Fin Config.numXfer) (f : XferRec → XferRec) (s : State) :
    (s.setXfer k f).xfer = s.xfer.set k (f s.xfer[k]) := rfl
@[simp] theorem setXfer_hookXfer (k : Fin Config.numXfer) (f : XferRec → XferRec) (s : State) :
    (s.setXfer k f).hookXfer = s.hookXfer := rfl
@[simp] theorem setXfer_mem (k : Fin Config.numXfer) (f : XferRec → XferRec) (s : State) :
    (s.setXfer k f).mem = s.mem := rfl
@[simp] theorem setXfer_resetIn (k : Fin Config.numXfer) (f : XferRec → XferRec) (s : State) :
    (s.setXfer k f).resetIn = s.resetIn := rfl
@[simp] theorem setXfer_port (k : Fin Config.numXfer) (f : XferRec → XferRec) (s : State) :
    (s.setXfer k f).port = s.port := rfl
@[simp] theorem setXfer_rdata (k : Fin Config.numXfer) (f : XferRec → XferRec) (s : State) :
    (s.setXfer k f).rdata = s.rdata := rfl
@[simp] theorem setXfer_trace (k : Fin Config.numXfer) (f : XferRec → XferRec) (s : State) :
    (s.setXfer k f).trace = s.trace := rfl

/-! ### `irqDrives` -/

@[simp] theorem State.irqDrives_line (s : State) : s.irqDrives Config.irqRoute.line = some s.irq := if_pos rfl
theorem State.irqDrives_other (s : State) {n : Nat} (h : n ≠ Config.irqRoute.line) : s.irqDrives n = none := if_neg h

end Sys2Proof.Machine
end

