-- ==== Sys2Proof/Laws/Bus.lean ====
section
/-! SUPPORT. What each bus operation can do, said once: the delays, the ready wait, the cycles a step sends and
receives, and the procedures of a step around them. -/

namespace Sys2Proof.Machine

/-! ### Delays and waits -/

@[simp] theorem delayEvents_zero : delayEvents 0 = [] := rfl

theorem delay_eq (t : Word) (s : State) :
    delay t s = { s with trace := (delayEvents t).reverse ++ s.trace, clk := s.clk.hold t } := by
  unfold delay delayEvents
  split <;> rfl

theorem delay_trace_eq (t : Word) (s : State) : (delay t s).trace = (delayEvents t).reverse ++ s.trace := by
  rw [delay_eq]

theorem waitOne_eq (l : Nat) (t : Word) (s : State) :
    (waitOne l t s).2 = { s with clk := (s.clk.waitOne l t).2
                                 trace := .wait l t (waitOne l t s).1 :: s.trace } := rfl

/-- What `waitEach` can do (R146). -/
theorem waitEach_spec (t : Word) : ∀ (ls : List Nat) (s : State), ∃ es c,
    (waitEach t ls s).2 = { s with trace := es.reverse ++ s.trace, clk := c } ∧ s.clk.Quiet c ∧
    ((waitEach t ls s).1 = true → es = okWaits (ls.map (fun n => (n, t)))) ∧
    ((waitEach t ls s).1 = false → ∃ ok l rest, ls = ok ++ l :: rest ∧
      es = okWaits (ok.map (fun n => (n, t))) ++ [.wait l t false]) := by
  intro ls
  induction ls with
  | nil => intro s; exact ⟨[], s.clk, rfl, Clk.Quiet.refl _, fun _ => rfl, fun h => by cases h⟩
  | cons l ls ih =>
    intro s
    rw [waitEach]
    by_cases h : (waitOne l t s).1 = true
    · rw [if_pos h]
      obtain ⟨es, c, he, hq, hok, hto⟩ := ih (waitOne l t s).2
      refine ⟨.wait l t true :: es, c, ?_, (Clk.waitOne_quiet l t s.clk).trans hq, ?_, ?_⟩
      · rw [he, waitOne_eq, h]; simp
      · intro hk; rw [hok hk]; rfl
      · intro hk
        obtain ⟨ok, l', rest, hl, hes⟩ := hto hk
        exact ⟨l :: ok, l', rest, by rw [hl]; rfl, by rw [hes]; rfl⟩
    · rw [if_neg h]
      have h' : (waitOne l t s).1 = false := by simpa using h
      refine ⟨[.wait l t false], (s.clk.waitOne l t).2, ?_, Clk.waitOne_quiet l t s.clk, ?_, ?_⟩
      · rw [waitOne_eq, h']; rfl
      · intro hk; cases hk
      · intro _; exact ⟨[], l, ls, rfl, rfl⟩

/-- What a wait can do, for the plan of waits it makes (R146, R335): all OK, or OK up to a first TIMEOUT. -/
def WaitsBy (plan : List (Nat × Word)) (r : Bool × State) (s : State) : Prop :=
  ∃ es c, r.2 = { s with trace := es.reverse ++ s.trace, clk := c } ∧ s.clk.Quiet c ∧
    (r.1 = true → es = okWaits plan) ∧
    (r.1 = false → ∃ ok p rest, plan = ok ++ p :: rest ∧ es = okWaits ok ++ [.wait p.1 p.2 false])

theorem waitEach_by (t : Word) (ls : List Nat) (s : State) :
    WaitsBy (ls.map (fun n => (n, t))) (waitEach t ls s) s := by
  obtain ⟨es, c, he, hq, hok, hto⟩ := waitEach_spec t ls s
  refine ⟨es, c, he, hq, hok, fun h => ?_⟩
  obtain ⟨ok, l, rest, hl, hes⟩ := hto h
  exact ⟨ok.map (fun n => (n, t)), (l, t), rest.map (fun n => (n, t)), by simp [hl], hes⟩

theorem waitTarget_by (lun : Nat) (t : Word) (s : State) :
    WaitsBy (if t = 0 then [] else [(lun, t)]) (waitTarget lun t s) s := by
  unfold waitTarget
  split
  · exact ⟨[], s.clk, rfl, Clk.Quiet.refl _, fun _ => rfl, fun h => by cases h⟩
  · refine ⟨[.wait lun t (waitOne lun t s).1], _, waitOne_eq lun t s, Clk.waitOne_quiet lun t s.clk, ?_, ?_⟩
    · intro h; rw [h]; rfl
    · intro h; rw [h]; exact ⟨[], (lun, t), [], rfl, rfl⟩

theorem waitOthers_by (lun : Nat) (t : Word) (s : State) :
    WaitsBy (if t = 0 then [] else (otherLuns s.dev lun).map (fun n => (n, t))) (waitOthers lun t s) s := by
  unfold waitOthers
  split
  · exact ⟨[], s.clk, rfl, Clk.Quiet.refl _, fun _ => rfl, fun h => by cases h⟩
  · exact waitEach_by t _ s

/-- What `WaitReady` can do (R146, R335). -/
theorem waitReady_by (lun : Nat) (tThis tOther : Word) (s : State) :
    WaitsBy (waitPlan s.dev lun tThis tOther) (waitReady lun tThis tOther s) s := by
  obtain ⟨es, c, he, hq, hok, hto⟩ := waitTarget_by lun tThis s
  unfold waitReady
  by_cases h : (waitTarget lun tThis s).1 = true
  · rw [if_pos h]
    obtain ⟨es', c', he', hq', hok', hto'⟩ := waitOthers_by lun tOther (waitTarget lun tThis s).2
    have hdev : (waitTarget lun tThis s).2.dev = s.dev := by rw [he]
    have hclk : (waitTarget lun tThis s).2.clk = c := by rw [he]
    rw [hdev] at hok' hto'
    rw [hclk] at hq'
    refine ⟨es ++ es', c', by rw [he', he]; simp, hq.trans hq', ?_, ?_⟩
    · intro hk; rw [hok h, hok' hk]; simp [okWaits, waitPlan]
    · intro hk
      obtain ⟨ok, p, rest, hp, hes⟩ := hto' hk
      exact ⟨_ ++ ok, p, rest, by rw [waitPlan, hp, List.append_assoc], by
        rw [hok h, hes]; simp [okWaits]⟩
  · rw [if_neg h]
    have h' : (waitTarget lun tThis s).1 = false := by simpa using h
    refine ⟨es, c, he, hq, fun hk => by simp at hk, fun _ => ?_⟩
    obtain ⟨ok, p, rest, hp, hes⟩ := hto h'
    exact ⟨ok, p, rest ++ _, by rw [waitPlan, hp]; simp; rfl, hes⟩

/-- What the ready wait of a step can do (R200, R230). -/
theorem stepWait_by (t : Timing) (s : State) :
    WaitsBy (waitPlan s.dev s.runCfg.lun.toNat t.rdy t.rdyOther) (stepWait t s) s :=
  waitReady_by _ _ _ s

/-- A ready wait that answers OK (R146). -/
theorem stepWait_ok {t : Timing} {s : State} (h : (stepWait t s).1 = true) : ∃ c,
    (stepWait t s).2 = { s with trace := (readyEvents s t).reverse ++ s.trace, clk := c } ∧ s.clk.Quiet c := by
  obtain ⟨es, c, he, hq, hok, -⟩ := stepWait_by t s
  exact ⟨c, by rw [he, hok h]; rfl, hq⟩

/-! ### Cycles -/

theorem busWrite_eq (w : Width) (t : Timing) (v : Half) (s : State) :
    busWrite w t v s = { s with pins := { s.pins with dq := w.clip v, weAct := false }
                                trace := .wcyc w (w.clip v) :: s.trace
                                clk := ((s.clk.hold t.cycEn).pass).hold t.cycDis } := by
  unfold busWrite record setWE pass hold
  rfl

theorem cycle_quiet (t : Timing) (c : Clk) : c.Quiet (((c.hold t.cycEn).pass).hold t.cycDis) :=
  ((Clk.hold_quiet _ _).trans (Clk.pass_quiet _)).trans (Clk.hold_quiet _ _)

theorem Pins.afterWrites_cons (p : Pins) (w : Width) (v : Half) (vs : List Half) :
    Pins.afterWrites { p with dq := w.clip v, weAct := false } w vs = p.afterWrites w (v :: vs) := by
  cases vs with
  | nil => rfl
  | cons x xs =>
    simp only [Pins.afterWrites, List.getLast?_cons_cons, reduceCtorEq, if_false]
    obtain ⟨y, hy⟩ : ∃ y, (x :: xs).getLast? = some y := ⟨_, List.getLast?_eq_getLast_of_ne_nil (by simp)⟩
    rw [hy]; rfl

/-- The cycles of a step that writes: one event, one count and one strobe each (R149, R200, R237). -/
theorem sendCycles_spec (w : Width) (t : Timing) : ∀ (vs : List Half) (s : State), ∃ c,
    sendCycles w t vs s = { s with bytes := s.bytes + BitVec.ofNat 32 vs.length
                                   pins := s.pins.afterWrites w vs
                                   trace := (vs.map (fun v => Event.wcyc w (w.clip v))).reverse ++ s.trace
                                   clk := c } ∧ s.clk.Quiet c := by
  intro vs
  induction vs with
  | nil => intro s; exact ⟨s.clk, by simp [sendCycles, Pins.afterWrites], Clk.Quiet.refl _⟩
  | cons v vs ih =>
    intro s
    obtain ⟨c, he, hq⟩ := ih (countCycle (busWrite w t v s))
    refine ⟨c, ?_, (cycle_quiet t s.clk).trans (by simpa using hq)⟩
    rw [sendCycles, he, busWrite_eq]
    simp only [countCycle, Pins.afterWrites_cons, List.map_cons, List.reverse_cons, List.append_assoc,
      List.singleton_append, List.length_cons, BitVec.ofNat_add, BitVec.add_assoc]
    rw [BitVec.add_comm (BitVec.ofNat 32 vs.length)]
    rfl

theorem clip_clip (w : Width) (v : Half) : w.clip (w.clip v) = w.clip v := by
  cases w
  · simp [Width.clip, BitVec.and_assoc]
  · rfl

/-- A read cycle: the value is the device's next answer, on the lines the width uses (R151). -/
theorem busRead_spec (w : Width) (t : Timing) (s : State) : ∃ c,
    (busRead w t s).2 = { s with pins := { s.pins with reAct := false }
                                 trace := .rcyc w (busRead w t s).1 :: s.trace
                                 clk := c } ∧
    s.clk.Later c ∧ w.clip (busRead w t s).1 = (busRead w t s).1 ∧
    (∀ v rest, s.clk.env.dq = v :: rest → (busRead w t s).1 = w.clip v ∧ c.env.dq = rest) := by
  have hq := (Clk.hold_quiet t.cycEn s.clk).trans (Clk.pass_quiet _)
  let c1 := (s.clk.hold t.cycEn).pass
  let c2 : Clk := { c1 with env := c1.env.drawDq.2 }
  have h2 : c1.Later c2 :=
    ⟨rfl, ⟨0, by simp [c2]⟩, id, fun v h => ⟨by simpa [c2] using h.1, h.2⟩⟩
  have h3 := Clk.hold_quiet t.cycDis c2
  refine ⟨c2.hold t.cycDis, ?_, (hq.toLater.trans h2).trans h3.toLater, clip_clip _ _, ?_⟩
  · simp only [busRead, strobeRead, record, setRE, pass, hold, c2, c1]
  · intro v rest hv
    have hd : c1.env.dq = v :: rest := hq.dq.trans hv
    have hdraw := Env.drawDq_scripted hd
    constructor
    · show w.clip c1.env.drawDq.1 = _
      rw [hdraw]
    · rw [h3.dq]; show c1.env.drawDq.2.dq = _; rw [hdraw]

/-- The read cycles of a chunk (R237): as many values as cycles, each the device's answer. -/
theorem receiveCycles_spec (w : Width) (t : Timing) : ∀ (n : Nat) (s : State), ∃ c,
    (receiveCycles w t n s).2 =
      { s with bytes := s.bytes + BitVec.ofNat 32 n
               pins := { s.pins with reAct := if n = 0 then s.pins.reAct else false }
               trace := ((receiveCycles w t n s).1.map (fun v => Event.rcyc w v)).reverse ++ s.trace
               clk := c } ∧
    s.clk.Later c ∧ (receiveCycles w t n s).1.length = n ∧
    (∀ v ∈ (receiveCycles w t n s).1, w.clip v = v) ∧
    (∀ answers rest, s.clk.env.dq = answers ++ rest → answers.length = n →
      (receiveCycles w t n s).1 = answers.map w.clip ∧ c.env.dq = rest) := by
  intro n
  induction n with
  | zero =>
    intro s
    refine ⟨s.clk, by simp [receiveCycles], Clk.Later.refl _, rfl, by simp [receiveCycles], ?_⟩
    intro answers rest h hl
    have : answers = [] := List.length_eq_zero_iff.mp hl
    subst this
    exact ⟨rfl, by simpa using h⟩
  | succ n ih =>
    intro s
    obtain ⟨c1, he1, hq1, hclip, hans1⟩ := busRead_spec w t s
    obtain ⟨c, he, hq, hlen, hvs, hans⟩ := ih (countCycle (busRead w t s).2)
    have hclk : (countCycle (busRead w t s).2).clk = c1 := by rw [countCycle, he1]
    rw [hclk] at hq hans
    refine ⟨c, ?_, hq1.trans hq, by simp [receiveCycles, hlen], ?_, ?_⟩
    · show (receiveCycles w t n (countCycle (busRead w t s).2)).2 = _
      rw [he]
      simp only [receiveCycles]
      rw [he1]
      simp [countCycle, BitVec.add_assoc, BitVec.ofNat_add, BitVec.add_comm (BitVec.ofNat 32 n)]
    · intro v hv
      simp only [receiveCycles, List.mem_cons] at hv
      rcases hv with rfl | hv
      · exact hclip
      · exact hvs v hv
    · intro answers rest h hl
      cases answers with
      | nil => simp at hl
      | cons a answers =>
        obtain ⟨ha, hd⟩ := hans1 a (answers ++ rest) (by simpa using h)
        obtain ⟨hb, hd'⟩ := hans answers rest hd (by simpa using hl)
        exact ⟨by simp [receiveCycles, ha, hb], hd'⟩

/-! ### The procedures of a step -/

theorem beginStep_eq (i : Nat) (s : State) :
    beginStep i s = { s with status := { s.status with step := BitVec.ofNat 8 i }, phase := .begin
                             cur := wordsShown s i } := rfl

theorem step_succ (x : BitVec 8) : BitVec.ofNat 8 (x.toNat + 1) = x + 1 := by
  apply BitVec.eq_of_toNat_eq; simp [BitVec.toNat_add]

theorem nextStep_eq (s : State) :
    nextStep s = { s with status := { s.status with step := s.status.step + 1 }, phase := .begin
                          cur := wordsShown s (s.status.step.toNat + 1) } := by
  rw [nextStep, beginStep_eq, step_succ]

/-- The end of a step: POST_DELAY, and the loop at the next index (R176). -/
theorem endStep_eq (t : Timing) (s : State) :
    endStep t s = { s with status := { s.status with step := s.status.step + 1 }, phase := .begin
                           cur := wordsShown s (s.status.step.toNat + 1)
                           trace := (delayEvents t.post).reverse ++ s.trace
                           clk := s.clk.hold t.post } := by
  rw [endStep, nextStep_eq, delay_eq]; rfl

/-- The end of a control step, from its latch disable on (R200). -/
theorem controlTail_spec (t : Timing) (s : State) : ∃ c,
    controlTail t s = { s with status := { s.status with step := s.status.step + 1 }, phase := .begin
                               cur := wordsShown s (s.status.step.toNat + 1)
                               pins := { s.pins with latch := .neutral }
                               trace := (tailEvents t).reverse ++ s.trace
                               clk := c } ∧ s.clk.Quiet c := by
  refine ⟨((((s.clk.hold t.ldPre).pass).hold t.ldPost).hold t.post), ?_, ?_⟩
  · rw [controlTail, endStep_eq, delay_eq, setLatch, delay_eq]
    simp [tailEvents, wordsShown]
  · exact (((Clk.hold_quiet _ _).trans (Clk.pass_quiet _)).trans (Clk.hold_quiet _ _)).trans (Clk.hold_quiet _ _)

/-- A control step's cycles, without its post-hook (R200). -/
theorem controlSend_spec (vs : List Half) (t : Timing) (s : State) : ∃ c,
    sendCycles s.dev.controlWidth t vs (setDir .write s) =
      { s with bytes := s.bytes + BitVec.ofNat 32 vs.length
               pins := Pins.afterWrites { s.pins with dir := .write } s.dev.controlWidth vs
               trace := (cycleEvents s.dev.controlWidth vs).reverse ++ s.trace
               clk := c } ∧ s.clk.Quiet c := by
  obtain ⟨c, he, hq⟩ := sendCycles_spec s.dev.controlWidth t vs (setDir .write s)
  refine ⟨c, ?_, (Clk.pass_quiet _).trans hq⟩
  rw [he]
  simp [setDir, cycleEvents]

/-- A control step up to its ready wait (R176, R200). -/
theorem controlLatched_spec (m : Latch) (t : Timing) (s : State) : ∃ c,
    controlLatched m t s = { s with pins := { s.pins with latch := m }
                                    trace := (headEvents m t).reverse ++ s.trace
                                    clk := c } ∧ s.clk.Quiet c := by
  refine ⟨((((s.clk.hold t.pre).hold t.lePre).pass).hold t.lePost), ?_, ?_⟩
  · rw [controlLatched, delay_eq, setLatch, delay_eq, delay_eq]
    simp [headEvents]
  · exact (((Clk.hold_quiet _ _).trans (Clk.hold_quiet _ _)).trans (Clk.pass_quiet _)).trans (Clk.hold_quiet _ _)

/-- The abort of a run whose wait failed (R209, R210). -/
theorem timeoutPath_spec (t : Timing) (s : State) : ∃ c,
    timeoutPath t s = { s with status := { s.status with resp := .timeout, done := true }
                               fsm := .idle, phase := .begin
                               pins := { s.pins with latch := .neutral }
                               trace := .finish .timeout s.bytes ::
                                 (.latch .neutral :: (delayEvents t.ldPre ++ delayEvents t.ldPost)).reverse ++ s.trace
                               clk := c } ∧ s.clk.Quiet c := by
  refine ⟨((((s.clk.pass).hold t.ldPre).hold t.ldPost).pass), ?_, ?_⟩
  · rw [timeoutPath, finish, delay_eq, delay_eq, setLatch]
    simp
  · exact (((Clk.pass_quiet _).trans (Clk.hold_quiet _ _)).trans (Clk.hold_quiet _ _)).trans (Clk.pass_quiet _)

end Sys2Proof.Machine
end

