-- ==== Sys2Proof/Laws/Control.lean ====
section
/-! SUPPORT. What a control step can do, in parts: up to its pre-hook point, from there to its post-hook point, and
to its end. -/

namespace Sys2Proof.Machine

/-- A control instruction is the common procedure with its latch mode and its cycles (R200). -/
theorem exec_control {i : Instr} {m : Latch} {vs : List Half} {t : Timing} {s : State}
    (h : controlForm s.dev i = some (m, vs, t)) : exec i s = .next (controlStep m vs t s) := by
  cases i <;> simp only [controlForm, Option.some.injEq, Prod.mk.injEq, reduceCtorEq] at h <;>
    obtain ⟨rfl, rfl, rfl⟩ := h <;> rfl

theorem controlStep_begin {m : Latch} {vs : List Half} {t : Timing} {s : State} (hp : s.phase = .begin) :
    controlStep m vs t s =
      if (stepWait t (controlLatched m t s)).1 then controlReady vs t (stepWait t (controlLatched m t s)).2
      else timeoutPath t (stepWait t (controlLatched m t s)).2 := by
  unfold controlStep; rw [hp]

/-- A control step whose wait answers OK, after its READY_POST delay (R200). -/
theorem controlReady_spec {m : Latch} {t : Timing} {s : State} (h : controlReadyWait m t s) : ∃ c,
    delay t.rdyPost (stepWait t (controlLatched m t s)).2 =
      { s with pins := { s.pins with latch := m }
               trace := (headEvents m t ++ readyEvents s t ++ delayEvents t.rdyPost).reverse ++ s.trace
               clk := c } ∧ s.clk.Quiet c := by
  obtain ⟨c1, e1, q1⟩ := controlLatched_spec m t s
  obtain ⟨c2, e2, q2⟩ := stepWait_ok h
  refine ⟨c2.hold t.rdyPost, ?_, ?_⟩
  · rw [e2, e1, delay_eq]; simp [readyEvents]
  · rw [e1] at q2; exact (q1.trans q2).trans (Clk.hold_quiet _ _)

/-- A control step from its beginning to its pre-hook point (R200, R211). -/
theorem controlStep_ready {m : Latch} {vs : List Half} {t : Timing} {s : State} (hp : s.phase = .begin)
    (hr : controlReadyWait m t s) : ∃ c, s.clk.Quiet c ∧
      ∀ z, z = { s with pins := { s.pins with latch := m }
                        trace := (headEvents m t ++ readyEvents s t ++ delayEvents t.rdyPost).reverse ++ s.trace
                        clk := c } →
        controlStep m vs t s = if s.eff.pre then enterHook .pre false 0 z else controlCycles vs t z := by
  obtain ⟨c1, e1, q1⟩ := controlReady_spec hr
  obtain ⟨c, e, -⟩ := stepWait_ok hr
  obtain ⟨c0, e0, -⟩ := controlLatched_spec m t s
  refine ⟨c1, q1, ?_⟩
  rintro z rfl
  rw [controlStep_begin hp, if_pos (show (stepWait t (controlLatched m t s)).1 = true from hr), controlReady, e1,
    show (stepWait t (controlLatched m t s)).2.eff = s.eff by rw [e, e0]]

/-- A control step's cycles, then its end (R200). -/
theorem controlCycles_tail (vs : List Half) (t : Timing) (s : State) : ∃ c,
    controlTail t (sendCycles s.dev.controlWidth t vs (setDir .write s)) =
      { s with status := { s.status with step := s.status.step + 1 }
               phase := .begin
               cur := wordsShown s (s.status.step.toNat + 1)
               bytes := s.bytes + BitVec.ofNat 32 vs.length
               pins := Pins.afterWrites { s.pins with latch := .neutral, dir := .write } s.dev.controlWidth vs
               trace := (cycleEvents s.dev.controlWidth vs ++ tailEvents t).reverse ++ s.trace
               clk := c } ∧ s.clk.Quiet c := by
  obtain ⟨c1, e1, q1⟩ := controlSend_spec vs t s
  rw [e1]
  obtain ⟨c2, e2, q2⟩ := controlTail_spec t
    { s with bytes := s.bytes + BitVec.ofNat 32 vs.length
             pins := Pins.afterWrites { s.pins with dir := .write } s.dev.controlWidth vs
             trace := (cycleEvents s.dev.controlWidth vs).reverse ++ s.trace
             clk := c1 }
  refine ⟨c2, ?_, q1.trans q2⟩
  rw [e2]
  simp [wordsShown, Pins.afterWrites]

/-- A control step's cycles, then its post-hook (R200, R212). -/
theorem controlCycles_hook (vs : List Half) (t : Timing) (s : State) : ∃ c,
    enterHook .post false 0 (sendCycles s.dev.controlWidth t vs (setDir .write s)) =
      { s with status := { s.status with hookPost := true, hookRaw := false }
               fsm := .hookWait
               phase := .afterPost
               bytes := s.bytes + BitVec.ofNat 32 vs.length
               pins := Pins.afterWrites { s.pins with dir := .write } s.dev.controlWidth vs
               trace := (cycleEvents s.dev.controlWidth vs ++
                 [Event.hook .post s.status.step false 0]).reverse ++ s.trace
               clk := c } ∧ s.clk.Quiet c := by
  obtain ⟨c1, e1, q1⟩ := controlSend_spec vs t s
  refine ⟨c1.pass, ?_, q1.trans (Clk.pass_quiet _)⟩
  rw [e1]
  simp [enterHook, HookKind.resumePhase]

/-- What `controlCycles` can do (R200): the post-hook where one is enabled, else the end. -/
theorem controlCycles_eq (vs : List Half) (t : Timing) (s : State) :
    controlCycles vs t s =
      if s.eff.post then enterHook .post false 0 (sendCycles s.dev.controlWidth t vs (setDir .write s))
      else controlTail t (sendCycles s.dev.controlWidth t vs (setDir .write s)) := rfl

end Sys2Proof.Machine
end

