-- ==== Sys2Proof/Laws/Memory.lean ====
section
/-! SUPPORT. The laws of the RAMs: what a read gives after a write, that every operation keeps the one
canonical form, and what a run of bytes and a word are in terms of single bytes. -/

namespace Sys2Proof.Machine

/-! ### One byte -/

theorem Memory.read_write_same (m : Memory) (a : Nat) (v : Byte) : (m.write a v).read a = some v := by
  induction m with
  | nil => simp [Memory.write, Memory.read]
  | cons c rest ih =>
    obtain ⟨b, w⟩ := c
    simp only [Memory.write]
    split
    · simp [Memory.read]
    · split
      · simp [Memory.read]
      · simp [Memory.read, *]

theorem Memory.read_write_other (m : Memory) {a b : Nat} (v : Byte) (h : b ≠ a) :
    (m.write a v).read b = m.read b := by
  induction m with
  | nil => simp [Memory.write, Memory.read, h]
  | cons c rest ih =>
    obtain ⟨x, w⟩ := c
    simp only [Memory.write]
    split
    · simp [Memory.read, h]
    · split
      · subst_vars; simp [Memory.read, h]
      · simp [Memory.read, ih]

theorem Memory.read_write (m : Memory) (a b : Nat) (v : Byte) :
    (m.write a v).read b = if b = a then some v else m.read b := by
  split
  · next h => rw [h, Memory.read_write_same]
  · next h => exact Memory.read_write_other m v h

/-! ### The canonical form -/

theorem Memory.wf_iff (m : Memory) : m.wf = true ↔ m.Pairwise (fun c d => c.1 < d.1) := by
  induction m with
  | nil => simp [Memory.wf]
  | cons c rest ih =>
    obtain ⟨a, v⟩ := c
    cases rest with
    | nil => simp [Memory.wf]
    | cons d rest =>
      obtain ⟨b, w⟩ := d
      simp only [Memory.wf, Bool.and_eq_true, decide_eq_true_eq, ih]
      constructor
      · rintro ⟨hab, hp⟩
        refine List.Pairwise.cons ?_ hp
        intro e he
        rcases List.mem_cons.mp he with rfl | he
        · exact hab
        · exact Nat.lt_trans hab (List.rel_of_pairwise_cons hp he)
      · intro hp
        exact ⟨(List.pairwise_cons.mp hp).1 (b, w) (by simp), hp.of_cons⟩

theorem Memory.mem_write (m : Memory) (a : Nat) (v : Byte) {c : Host.Cell} (h : c ∈ m.write a v) :
    c = (a, v) ∨ c ∈ m := by
  induction m with
  | nil => simpa [Memory.write] using h
  | cons d rest ih =>
    obtain ⟨b, w⟩ := d
    simp only [Memory.write] at h
    split at h
    · simpa using h
    · split at h
      · rcases List.mem_cons.mp h with h | h
        · exact .inl h
        · exact .inr (List.mem_cons_of_mem _ h)
      · rcases List.mem_cons.mp h with h | h
        · exact .inr (by simp [h])
        · rcases ih h with h | h
          · exact .inl h
          · exact .inr (List.mem_cons_of_mem _ h)

/-- A write of one byte keeps the canonical form. -/
theorem Memory.write_wf (m : Memory) (a : Nat) (v : Byte) (h : m.wf = true) : (m.write a v).wf = true := by
  rw [Memory.wf_iff] at *
  induction m with
  | nil => simp [Memory.write]
  | cons c rest ih =>
    obtain ⟨b, w⟩ := c
    obtain ⟨hb, hrest⟩ := List.pairwise_cons.mp h
    simp only [Memory.write]
    split
    · next hlt =>
      refine List.Pairwise.cons ?_ h
      intro e he
      rcases List.mem_cons.mp he with rfl | he
      · exact hlt
      · exact Nat.lt_trans hlt (hb e he)
    · split
      · next heq => subst heq; exact List.Pairwise.cons hb hrest
      · next h1 h2 =>
        refine List.Pairwise.cons ?_ (ih hrest)
        intro e he
        rcases Memory.mem_write rest a v he with rfl | he
        · show b < a
          omega
        · exact hb e he

/-- Storing a run of bytes keeps the canonical form. -/
theorem Memory.store_wf (bs : List Byte) : ∀ (m : Memory) (a : Nat), m.wf = true → (m.store a bs).wf = true := by
  induction bs with
  | nil => intro m a h; exact h
  | cons b bs ih => intro m a h; exact ih _ _ (m.write_wf a b h)

theorem Memory.reset_wf : State.reset.mem.wf = true := rfl

/-! ### Runs of bytes -/

/-- What every byte reads as after a run of bytes was stored. -/
theorem Memory.read_store (bs : List Byte) : ∀ (m : Memory) (a x : Nat),
    (m.store a bs).read x = if a ≤ x ∧ x < a + bs.length then bs[x - a]? else m.read x := by
  induction bs with
  | nil =>
    intro m a x
    have : ¬ (a ≤ x ∧ x < a + ([] : List Byte).length) := by simp
    rw [if_neg this]; rfl
  | cons b bs ih =>
    intro m a x
    rw [Memory.store, ih, Memory.read_write, List.length_cons]
    by_cases h1 : a + 1 ≤ x ∧ x < a + 1 + bs.length
    · rw [if_pos h1, if_pos (by omega)]
      obtain ⟨k, rfl⟩ : ∃ k, x = a + 1 + k := ⟨x - (a + 1), by omega⟩
      rw [show a + 1 + k - (a + 1) = k by omega, show a + 1 + k - a = k + 1 by omega, List.getElem?_cons_succ]
    · rw [if_neg h1]
      by_cases h2 : x = a
      · subst h2; simp
      · rw [if_neg h2, if_neg (by omega)]

theorem Memory.read_store_outside (m : Memory) (a x : Nat) (bs : List Byte) (h : x < a ∨ a + bs.length ≤ x) :
    (m.store a bs).read x = m.read x := by
  rw [Memory.read_store, if_neg (by omega)]

theorem Memory.read_store_inside (m : Memory) (a i : Nat) (bs : List Byte) (h : i < bs.length) :
    (m.store a bs).read (a + i) = some bs[i] := by
  rw [Memory.read_store, if_pos (by omega), show a + i - a = i by omega, List.getElem?_eq_getElem h]

theorem Memory.byte_eq_ok (m : Memory) (a : Nat) (b : Byte) : m.byte a = .ok b ↔ m.read a = some b := by
  unfold Memory.byte; cases m.read a <;> simp

theorem Memory.byte_of_read {m : Memory} {a : Nat} {b : Byte} (h : m.read a = some b) : m.byte a = .ok b :=
  (m.byte_eq_ok a b).mpr h

/-- Reading `n` bytes succeeds exactly with the `n` bytes that are there. -/
theorem Memory.bytes_eq_ok (m : Memory) (n : Nat) : ∀ (a : Nat) (bs : List Byte),
    m.bytes a n = .ok bs ↔ bs.length = n ∧ ∀ i, i < n → m.read (a + i) = bs[i]? := by
  induction n with
  | zero =>
    intro a bs
    simp only [Memory.bytes, Except.ok.injEq, List.length_eq_zero_iff]
    constructor
    · rintro rfl; exact ⟨rfl, fun i h => by omega⟩
    · rintro ⟨rfl, -⟩; rfl
  | succ n ih =>
    intro a bs
    simp only [Memory.bytes]
    cases hb : m.byte a with
    | error f =>
      simp only [bind, Except.bind, reduceCtorEq, false_iff, not_and]
      intro hl hr
      have h0 := hr 0 (by omega)
      cases bs with
      | nil => simp at hl
      | cons b bs => simp only [Nat.add_zero, List.getElem?_cons_zero, ← Memory.byte_eq_ok, hb, reduceCtorEq] at h0
    | ok b =>
      have hb' := (m.byte_eq_ok a b).mp hb
      simp only [bind, Except.bind]
      cases hrest : m.bytes (a + 1) n with
      | error f =>
        simp only [reduceCtorEq, false_iff, not_and]
        intro hl hr
        cases bs with
        | nil => simp at hl
        | cons c bs =>
          have := (ih (a + 1) bs).mpr ⟨by simpa using hl, fun i hi => by
            have := hr (i + 1) (by omega)
            rwa [List.getElem?_cons_succ, show a + (i + 1) = a + 1 + i by omega] at this⟩
          rw [hrest] at this; cases this
      | ok rest =>
        obtain ⟨hl, hr⟩ := (ih (a + 1) rest).mp hrest
        simp only [Except.ok.injEq]
        constructor
        · rintro rfl
          refine ⟨by simp [hl], fun i hi => ?_⟩
          cases i with
          | zero => simpa using hb'
          | succ i =>
            rw [List.getElem?_cons_succ, ← hr i (by omega), show a + (i + 1) = a + 1 + i by omega]
        · rintro ⟨hl', hr'⟩
          apply List.ext_getElem?
          intro i
          by_cases hi : i < n + 1
          · rw [← hr' i hi]
            cases i with
            | zero => simp [hb']
            | succ i => rw [List.getElem?_cons_succ, ← hr i (by omega), show a + (i + 1) = a + 1 + i by omega]
          · rw [List.getElem?_eq_none (by simp; omega), List.getElem?_eq_none (by omega)]

theorem Memory.bytes_length {m : Memory} {a n : Nat} {bs : List Byte} (h : m.bytes a n = .ok bs) : bs.length = n :=
  ((m.bytes_eq_ok n a bs).mp h).1

/-- Where all `n` bytes have been written, reading them succeeds. -/
theorem Memory.bytes_ok_of_written (m : Memory) (n : Nat) : ∀ a : Nat,
    (∀ i, i < n → (m.read (a + i)).isSome) → ∃ bs, m.bytes a n = .ok bs := by
  induction n with
  | zero => intro a _; exact ⟨[], rfl⟩
  | succ n ih =>
    intro a h
    obtain ⟨b, hb⟩ := Option.isSome_iff_exists.mp (h 0 (by omega))
    obtain ⟨bs, hbs⟩ := ih (a + 1) (fun i hi => by
      have := h (i + 1) (by omega); rwa [show a + (i + 1) = a + 1 + i by omega] at this)
    exact ⟨b :: bs, by
      rw [Memory.bytes, show m.byte a = .ok b from Memory.byte_of_read (by simpa using hb), hbs]; rfl⟩

/-- The only way reading bytes fails: one of them was never written since reset. -/
theorem Memory.bytes_error {m : Memory} {f : Fault} : ∀ {n a : Nat}, m.bytes a n = .error f →
    ∃ i, i < n ∧ m.read (a + i) = none ∧ f = .unwrittenRam (a + i) := by
  intro n
  induction n with
  | zero => intro a h; cases h
  | succ n ih =>
    intro a h
    rw [Memory.bytes] at h
    cases hr : m.read a with
    | none =>
      rw [show m.byte a = .error (.unwrittenRam a) by simp [Memory.byte, hr]] at h
      exact ⟨0, by omega, hr, by cases h; rfl⟩
    | some b =>
      rw [show m.byte a = .ok b from Memory.byte_of_read hr] at h
      simp only [bind, Except.bind] at h
      cases hb : m.bytes (a + 1) n with
      | ok bs => rw [hb] at h; cases h
      | error g =>
        rw [hb] at h
        cases h
        obtain ⟨i, hi, hn, hf⟩ := ih hb
        exact ⟨i + 1, by omega, by rwa [show a + (i + 1) = a + 1 + i by omega],
          by rwa [show a + (i + 1) = a + 1 + i by omega]⟩

/-- The bytes just stored read back. -/
theorem Memory.bytes_store (m : Memory) (a : Nat) (bs : List Byte) :
    (m.store a bs).bytes a bs.length = .ok bs := by
  rw [Memory.bytes_eq_ok]
  exact ⟨rfl, fun i hi => by rw [Memory.read_store_inside _ _ _ _ hi, List.getElem?_eq_getElem hi]⟩

/-! ### Words -/

theorem Memory.word_eq (m : Memory) (a : Nat) (b0 b1 b2 b3 : Byte) (h0 : m.read a = some b0)
    (h1 : m.read (a + 1) = some b1) (h2 : m.read (a + 2) = some b2) (h3 : m.read (a + 3) = some b3) :
    m.word a = .ok (wordOfBytes b0 b1 b2 b3) := by
  rw [Memory.word, Memory.byte_of_read h0, Memory.byte_of_read h1, Memory.byte_of_read h2, Memory.byte_of_read h3]
  rfl

/-- The four bytes of a word give the word (R81). -/
theorem wordOfBytes_byteOfWord (w : Word) :
    wordOfBytes (byteOfWord w 0) (byteOfWord w 1) (byteOfWord w 2) (byteOfWord w 3) = w := by
  apply BitVec.eq_of_getLsbD_eq
  intro i hi
  simp only [wordOfBytes, byteOfWord, BitVec.getLsbD_append, BitVec.getLsbD_extractLsb']
  by_cases h1 : i < 8
  · simp [h1]
  · by_cases h2 : i < 16
    · simp [h1, show i - 8 < 8 by omega, show 8 + (i - 8) = i by omega]
    · by_cases h3 : i < 24
      · simp [h1, show ¬ i - 8 < 8 by omega, show i - 8 - 8 < 8 by omega, show 16 + (i - 8 - 8) = i by omega]
      · simp [h1, show ¬ i - 8 < 8 by omega, show ¬ i - 8 - 8 < 8 by omega, show i - 8 - 8 - 8 < 8 by omega,
          show 24 + (i - 8 - 8 - 8) = i by omega]

/-- The bytes of a word of four bytes are those bytes (R81). -/
theorem byteOfWord_wordOfBytes (b0 b1 b2 b3 : Byte) :
    byteOfWord (wordOfBytes b0 b1 b2 b3) 0 = b0 ∧ byteOfWord (wordOfBytes b0 b1 b2 b3) 1 = b1 ∧
    byteOfWord (wordOfBytes b0 b1 b2 b3) 2 = b2 ∧ byteOfWord (wordOfBytes b0 b1 b2 b3) 3 = b3 := by
  refine ⟨?_, ?_, ?_, ?_⟩ <;>
  · apply BitVec.eq_of_getLsbD_eq
    intro i hi
    simp only [wordOfBytes, byteOfWord, BitVec.getLsbD_append, BitVec.getLsbD_extractLsb']
    interval_cases i <;> simp

theorem bytesOfWord_length (w : Word) : (bytesOfWord w).length = 4 := rfl

/-- A word at an offset where its bytes are stored. -/
theorem Memory.word_of_bytes {m : Memory} {a : Nat} {w : Word}
    (h : ∀ j, j < 4 → m.read (a + j) = some (byteOfWord w j)) : m.word a = .ok w := by
  rw [m.word_eq a _ _ _ _ (by simpa using h 0 (by omega)) (h 1 (by omega)) (h 2 (by omega)) (h 3 (by omega)),
    wordOfBytes_byteOfWord]

/-! ### RAM that was never written (R363) -/

/-- Reading bytes of which byte `j` is the first that was never written faults there (R363). -/
theorem Memory.bytes_unwritten {m : Memory} : ∀ {n a j : Nat}, j < n → written m a j → m.read (a + j) = none →
    m.bytes a n = .error (.unwrittenRam (a + j)) := by
  intro n
  induction n with
  | zero => intro a j h; omega
  | succ n ih =>
    intro a j hj hw hr
    rw [Memory.bytes]
    cases j with
    | zero => rw [Memory.byte, show m.read a = none from hr]; rfl
    | succ j =>
      obtain ⟨b, hb⟩ := Option.isSome_iff_exists.mp (hw 0 (by omega))
      rw [show m.byte a = .ok b from Memory.byte_of_read (by simpa using hb), ih (a := a + 1) (j := j) (by omega)
        (fun i hi => by have := hw (i + 1) (by omega); rwa [show a + (i + 1) = a + 1 + i by omega] at this)
        (by rwa [show a + 1 + j = a + (j + 1) by omega])]
      rw [show a + 1 + j = a + (j + 1) by omega]; rfl

/-- A word of which byte `j` is the first that was never written faults there (R363). -/
theorem Memory.word_unwritten {m : Memory} {a j : Nat} (hj : j < 4) (hw : written m a j)
    (hr : m.read (a + j) = none) : m.word a = .error (.unwrittenRam (a + j)) := by
  have hb : ∀ i, i < j → ∃ b, m.byte (a + i) = .ok b := fun i hi => by
    obtain ⟨b, hb⟩ := Option.isSome_iff_exists.mp (hw i hi)
    exact ⟨b, Memory.byte_of_read hb⟩
  have hn : m.byte (a + j) = .error (.unwrittenRam (a + j)) := by rw [Memory.byte, hr]
  have ok : ∀ {α : Type} (x : Byte) (g : Byte → Except Fault α), (Except.ok x >>= g) = g x := fun _ _ => rfl
  rw [Memory.word]
  interval_cases j
  · rw [show m.byte a = _ from hn]; rfl
  · obtain ⟨b0, h0⟩ := hb 0 (by omega)
    rw [show m.byte a = _ from h0, ok, hn]; rfl
  · obtain ⟨b0, h0⟩ := hb 0 (by omega)
    obtain ⟨b1, h1⟩ := hb 1 (by omega)
    rw [show m.byte a = _ from h0, ok, h1, ok, hn]; rfl
  · obtain ⟨b0, h0⟩ := hb 0 (by omega)
    obtain ⟨b1, h1⟩ := hb 1 (by omega)
    obtain ⟨b2, h2⟩ := hb 2 (by omega)
    rw [show m.byte a = _ from h0, ok, h1, ok, h2, ok, hn]; rfl

/-- What reads RAM can only fault at a byte that was never written (R363). -/
def ReadsOf {α : Type} (m : Memory) (r : Except Fault α) : Prop :=
  ∀ f, r = .error f → ∃ a, m.read a = none ∧ f = .unwrittenRam a

theorem ReadsOf.ok {α : Type} {m : Memory} (x : α) : ReadsOf m (.ok x) := fun f h => by cases h

theorem ReadsOf.bind {α β : Type} {m : Memory} {r : Except Fault α} {g : α → Except Fault β} (h : ReadsOf m r)
    (hg : ∀ x, ReadsOf m (g x)) : ReadsOf m (r >>= g) := by
  intro f hf
  cases r with
  | error e => cases hf; exact h _ rfl
  | ok x => exact hg x f hf

theorem Memory.byte_reads (m : Memory) (a : Nat) : ReadsOf m (m.byte a) := by
  intro f h
  unfold Memory.byte at h
  split at h
  · cases h
  · next hr => cases h; exact ⟨a, hr, rfl⟩

theorem Memory.word_reads (m : Memory) (a : Nat) : ReadsOf m (m.word a) := by
  unfold Memory.word
  exact (byte_reads m _).bind fun _ => (byte_reads m _).bind fun _ => (byte_reads m _).bind fun _ =>
    (byte_reads m _).bind fun _ => .ok _

/-- A word that reads has four bytes that were written. -/
theorem Memory.word_written {m : Memory} {a : Nat} {w : Word} (h : m.word a = .ok w) : written m a 4 := by
  have step : ∀ {α : Type} (x : Nat) (g : Byte → Except Fault α) (y : α), (m.byte x >>= g) = .ok y →
      (m.read x).isSome = true ∧ ∃ b, g b = .ok y := by
    intro α x g y h
    unfold Memory.byte at h
    cases hr : m.read x with
    | none => rw [hr] at h; cases h
    | some b => rw [hr] at h; exact ⟨rfl, b, h⟩
  rw [Memory.word] at h
  obtain ⟨h0, _, h⟩ := step _ _ _ h
  obtain ⟨h1, _, h⟩ := step _ _ _ h
  obtain ⟨h2, _, h⟩ := step _ _ _ h
  obtain ⟨h3, _, _⟩ := step _ _ _ h
  intro i hi
  interval_cases i
  exacts [h0, h1, h2, h3]

end Sys2Proof.Machine
end

