-- ==== Sys2Proof/Laws/Decoder.lean ====
section
/-! SUPPORT. The decoder unit's functions on bytes, each by what it computes, and what an operation can do. -/

namespace Sys2Proof.Machine

/-! ### Pairs and their fold -/

/-- The pairs of a run of bytes (R261). -/
theorem pairsEqual_iff : ∀ bs : List Byte,
    pairsEqual bs = true ↔ ∀ k, 2 * k + 1 < bs.length → bs[2 * k]? = bs[2 * k + 1]?
  | [] => by simp [pairsEqual]
  | [a] => by simp [pairsEqual]
  | a :: b :: rest => by
    rw [pairsEqual, Bool.and_eq_true, decide_eq_true_eq, pairsEqual_iff rest]
    constructor
    · rintro ⟨rfl, h⟩ k hk
      cases k with
      | zero => rfl
      | succ k => simpa [Nat.mul_add] using h k (by simp at hk; omega)
    · intro h
      refine ⟨by simpa using h 0 (by simp), fun k hk => ?_⟩
      simpa [Nat.mul_add] using h (k + 1) (by simp; omega)

/-- `ddr(B, N)` (R261). -/
theorem isDdr_iff (bs : List Byte) : isDdr bs = true ↔ IsDdr bs := by
  rw [isDdr, Bool.and_eq_true, pairsEqual_iff, IsDdr]
  refine and_congr ?_ Iff.rfl
  cases bs <;> simp

theorem evenBytes_length : ∀ bs : List Byte, (evenBytes bs).length = (bs.length + 1) / 2
  | [] => rfl
  | [_] => by simp [evenBytes]
  | _ :: _ :: rest => by rw [evenBytes, List.length_cons, evenBytes_length rest]; simp only [List.length_cons]; omega

/-- The even-indexed bytes (R262). -/
theorem evenBytes_get : ∀ (bs : List Byte) (j : Nat), (evenBytes bs)[j]? = bs[2 * j]?
  | [], j => by simp [evenBytes]
  | [a], j => by cases j <;> simp [evenBytes]
  | a :: b :: rest, j => by
    cases j with
    | zero => rfl
    | succ j => simpa [evenBytes, Nat.mul_add] using evenBytes_get rest j

theorem evenBytes_fold (bs : List Byte) : IsFoldOf (evenBytes bs) bs :=
  ⟨evenBytes_length bs, fun j _ => evenBytes_get bs j⟩

theorem foldDdr_length (filler : Byte) (bs : List Byte) : (foldDdr filler bs).length = bs.length := by
  have := evenBytes_length bs
  rw [foldDdr, List.length_append, List.length_replicate]; omega

/-! ### Pattern lengths -/

theorem tiles_iff (bs : List Byte) (p : Nat) : tiles bs p = true ↔ TilesBy bs p := by
  simp only [tiles, List.all_eq_true, List.mem_range, Bool.or_eq_true, decide_eq_true_eq, TilesBy]
  constructor
  · intro h j h1 h2; rcases h j h2 with h | h
    · omega
    · exact h
  · intro h j h2
    by_cases h1 : j < p
    · exact .inl h1
    · exact .inr (h j (by omega) h2)

theorem tilesBy_length (bs : List Byte) : TilesBy bs bs.length := fun j h1 h2 => by omega

/-- The candidates from `p` on: the first that tiles, or N (R263). -/
theorem patlenFrom_spec (bs : List Byte) : ∀ fuel p, bs.length ≤ p + fuel →
    (bs.length ≤ p → patlenFrom bs fuel p = bs.length) ∧
    (p < bs.length → p ≤ patlenFrom bs fuel p ∧ patlenFrom bs fuel p ≤ bs.length ∧
      TilesBy bs (patlenFrom bs fuel p) ∧ ∀ q, p ≤ q → q < patlenFrom bs fuel p → ¬ TilesBy bs q) := by
  intro fuel
  induction fuel with
  | zero => intro p h; exact ⟨fun _ => rfl, fun h' => by omega⟩
  | succ fuel ih =>
    intro p h
    rw [patlenFrom]
    by_cases h1 : bs.length ≤ p
    · rw [if_pos h1]; exact ⟨fun _ => rfl, fun h' => by omega⟩
    · rw [if_neg h1]
      refine ⟨fun h' => absurd h' h1, fun h' => ?_⟩
      by_cases h2 : tiles bs p = true
      · rw [if_pos h2]
        exact ⟨Nat.le_refl _, by omega, (tiles_iff bs p).mp h2, fun q h3 h4 => by omega⟩
      · rw [if_neg h2]
        have h3 : ¬ TilesBy bs p := fun hc => h2 ((tiles_iff bs p).mpr hc)
        obtain ⟨ia, ib⟩ := ih (p + 1) (by omega)
        by_cases h4 : bs.length ≤ p + 1
        · rw [ia h4]
          refine ⟨by omega, Nat.le_refl _, tilesBy_length bs, fun q h5 h6 => ?_⟩
          rw [show q = p by omega]; exact h3
        · obtain ⟨i1, i2, i3, i4⟩ := ib (by omega)
          refine ⟨by omega, i2, i3, fun q h5 h6 => ?_⟩
          by_cases h7 : q = p
          · rw [h7]; exact h3
          · exact i4 q (by omega) h6

/-- `patlen(B, N, m)` (R263). -/
theorem patlen_spec (bs : List Byte) (m : Nat) : IsPatternLength bs m (patlen bs m) :=
  patlenFrom_spec bs bs.length (max m 1) (by omega)

theorem patlen_le (bs : List Byte) (m : Nat) : patlen bs m ≤ bs.length := by
  obtain ⟨h1, h2⟩ := patlen_spec bs m
  by_cases h : bs.length ≤ max m 1
  · rw [h1 h]
  · exact (h2 (by omega)).2.1

/-! ### What IDEXT leaves -/

theorem idCandidate_length_le (bs : List Byte) : (idCandidate bs).length ≤ bs.length := by
  unfold idCandidate
  split
  · rw [evenBytes_length]; cases bs <;> simp; omega
  · exact Nat.le_refl _

theorem idLength_le (bs : List Byte) : idLength bs ≤ (idCandidate bs).length := patlen_le _ _

theorem idBytes_length (bs : List Byte) : (idBytes bs).length = bs.length := by
  have := idLength_le bs
  have := idCandidate_length_le bs
  rw [idBytes, List.length_append, List.length_replicate, List.length_take]; omega

/-- Byte `j` of what IDEXT leaves in the operand (R264). -/
theorem idBytes_get (bs : List Byte) {j : Nat} (h : j < bs.length) :
    (idBytes bs)[j]? = if j < idLength bs then (idCandidate bs)[j]? else some 0 := by
  have h1 := idLength_le bs
  have hl : ((idCandidate bs).take (idLength bs)).length = idLength bs := by rw [List.length_take]; omega
  rw [idBytes]
  split
  · rw [List.getElem?_append_left (by omega), List.getElem?_take_of_lt (by omega)]
  · rw [List.getElem?_append_right (by omega), hl, List.getElem?_replicate, if_pos (by omega)]

/-! ### The operations -/

/-- An operation whose bytes have all been written goes on with them (R260). -/
theorem withBytes_ok {s : State} {at_ n : Nat} (k : List Byte → State) (h : written s.mem at_ n) :
    ∃ bs, s.mem.bytes at_ n = .ok bs ∧ withBytes s at_ n k = .next (k bs) := by
  obtain ⟨bs, hb⟩ := s.mem.bytes_ok_of_written n at_ h
  exact ⟨bs, hb, by rw [withBytes, hb]⟩

/-- An operation that answers a next state read all its bytes (R363). -/
theorem withBytes_next {s u : State} {at_ n : Nat} {k : List Byte → State} (h : withBytes s at_ n k = .next u) :
    ∃ bs, s.mem.bytes at_ n = .ok bs ∧ u = k bs := by
  rw [withBytes] at h
  cases hb : s.mem.bytes at_ n with
  | error f => rw [hb] at h; cases h
  | ok bs => rw [hb] at h; cases h; exact ⟨bs, rfl, rfl⟩

/-- An operation of which byte `j` is the first that was never written faults there (R363). -/
theorem withBytes_unwritten {s : State} {at_ n j : Nat} (k : List Byte → State) (hj : j < n)
    (hw : written s.mem at_ j) (hr : s.mem.read (at_ + j) = none) :
    withBytes s at_ n k = .fault (.unwrittenRam (at_ + j)) := by
  rw [withBytes, Memory.bytes_unwritten hj hw hr]

end Sys2Proof.Machine
end

