-- ==== Sys2Proof/Laws/Run.lean ====
section
/-! SUPPORT. What START can do, in parts: the merge, the checks, the set-up. -/

namespace Sys2Proof.Machine

/-- The set-up and the loop's first index (R175, R176). -/
theorem enterLoop_spec (s : State) : ∃ c,
    enterLoop s = { s with
      status := { s.status with step := 0 }
      phase := .begin
      cur := if 0 < s.effLen.toNat then (s.eff.entry 0).cur else s.cur
      pins := { s.pins with cs := setLine s.pins.cs s.runCfg.lun.toNat true, wp := false, weAct := false
                            reAct := false }
      trace := .strobesIdle :: .wp false :: .cs s.runCfg.lun.toNat true :: s.trace
      clk := c } ∧ s.clk.Quiet c :=
  ⟨s.clk.pass.pass.pass.pass, by
    simp only [enterLoop, setupPins, setStrobesIdle, setWP, setCS, pass, beginStep]; rfl,
    (((Clk.pass_quiet _).trans (Clk.pass_quiet _)).trans (Clk.pass_quiet _)).trans (Clk.pass_quiet _)⟩

/-- A rejected run (R31, R320). -/
theorem rejectRun_spec (r : Resp) (s : State) : ∃ c,
    rejectRun r s = { s with
      status := { s.status with resp := r, done := true, step := 0 }
      bytes := 0
      fsm := .idle
      phase := .begin
      trace := .finish r 0 :: s.trace
      clk := c } ∧ s.clk.Quiet c := ⟨s.clk.pass, rfl, Clk.pass_quiet _⟩

/-- One entry of the merge, from the two it chooses between (R172). -/
theorem mergeEntry_ok {m : Memory} {p : RunPlan} {i : Nat} {e : StepEntry} (h : mergeEntry m p i = .ok e) :
    ∃ t o, stepOrZero m p.template (headerLength p.th) i = .ok t ∧
      (if p.overrideEn then stepOrZero m p.override (headerLength p.oh) i else .ok StepEntry.zero) = .ok o ∧
      e = p.choose i t o := by
  rw [mergeEntry] at h
  cases ht : stepOrZero m p.template (headerLength p.th) i with
  | error f => rw [ht] at h; cases h
  | ok t =>
    rw [ht] at h
    cases hen : p.overrideEn with
    | false =>
      simp only [hen, bind, Except.bind, Bool.false_eq_true, if_false] at h
      cases h
      exact ⟨t, _, rfl, rfl, rfl⟩
    | true =>
      simp only [hen, bind, Except.bind, if_true] at h
      cases ho : stepOrZero m p.override (headerLength p.oh) i with
      | error f => rw [ho] at h; cases h
      | ok o =>
        rw [ho] at h
        cases h
        exact ⟨t, o, rfl, by simp, rfl⟩

/-- A merge that reads all it needs gives one entry for each index (R172). -/
theorem mergeFrom_ok {m : Memory} {p : RunPlan} : ∀ {n i : Nat} {chain : List StepEntry},
    mergeFrom m p i n = .ok chain →
    chain.length = n ∧ ∀ j, j < n → ∃ e, mergeEntry m p (i + j) = .ok e ∧ chain[j]? = some e := by
  intro n
  induction n with
  | zero =>
    intro i chain h
    cases h
    exact ⟨rfl, fun j hj => by omega⟩
  | succ n ih =>
    intro i chain h
    rw [mergeFrom] at h
    cases he : mergeEntry m p i with
    | error f => rw [he] at h; cases h
    | ok e =>
      cases hes : mergeFrom m p (i + 1) n with
      | error f => rw [he, hes] at h; cases h
      | ok es =>
        rw [he, hes] at h
        cases h
        obtain ⟨hl, hg⟩ := ih hes
        refine ⟨by simp [hl], fun j hj => ?_⟩
        cases j with
        | zero => exact ⟨e, by simpa using he, rfl⟩
        | succ j =>
          obtain ⟨e', h1, h2⟩ := hg j (by omega)
          exact ⟨e', by rw [show i + (j + 1) = i + 1 + j by omega]; exact h1, by simpa using h2⟩

/-- What the checks of a START can answer (R171): no plan; a chain too long; a LUN that does not exist; or the
merged chain in EFF, with or without a step that no run may hold. -/
theorem validateAndMerge_cases {s s' : State} {r : Option Resp} (h : validateAndMerge s = .ok (r, s')) :
    (findPlan s.mem s.runCfg = .ok none ∧ r = some .cmdInvalid ∧ s' = s) ∨
    ∃ p, findPlan s.mem s.runCfg = .ok (some p) ∧
      ((Config.maxSteps < p.length ∧ r = some .chainTooLong ∧ s' = { s with effLen := BitVec.ofNat 8 p.length }) ∨
       (p.length ≤ Config.maxSteps ∧ s.dev.luns ≤ s.runCfg.lun.toNat ∧ r = some .cmdInvalid ∧
         s' = { s with effLen := BitVec.ofNat 8 p.length }) ∨
       (p.length ≤ Config.maxSteps ∧ s.runCfg.lun.toNat < s.dev.luns ∧
         ∃ chain, mergeFrom s.mem p 0 p.length = .ok chain ∧
           r = (if chain.all (stepAcceptable s.dev s.xfer) then none else some .cmdInvalid) ∧
           s' = { s with effLen := BitVec.ofNat 8 p.length, eff := fillEff p chain s.eff })) := by
  rw [validateAndMerge] at h
  cases hf : findPlan s.mem s.runCfg with
  | error f => rw [hf] at h; cases h
  | ok plan =>
    rw [hf] at h
    cases plan with
    | none => cases h; exact .inl ⟨rfl, rfl, rfl⟩
    | some p =>
      right
      refine ⟨p, rfl, ?_⟩
      change mergeAndCheck p s = _ at h
      rw [mergeAndCheck] at h
      by_cases h1 : Config.maxSteps < p.length
      · simp only [h1, if_true] at h
        cases h; exact .inl ⟨h1, rfl, rfl⟩
      · simp only [h1, if_false] at h
        by_cases h2 : s.dev.luns ≤ s.runCfg.lun.toNat
        · simp only [h2, if_true] at h
          cases h; exact .inr (.inl ⟨by omega, h2, rfl, rfl⟩)
        · simp only [h2, if_false] at h
          cases hm : mergeFrom s.mem p 0 p.length with
          | error f => rw [hm] at h; cases h
          | ok chain =>
            rw [hm] at h
            cases h
            exact .inr (.inr ⟨by omega, by omega, chain, rfl, rfl, rfl⟩)

/-- The checks of a START that finds no plan (R171). -/
theorem validateAndMerge_none {s : State} (h : findPlan s.mem s.runCfg = .ok none) :
    validateAndMerge s = .ok (some .cmdInvalid, s) := by rw [validateAndMerge, h]; rfl

/-- The checks of a START after the headers (R171). -/
theorem validateAndMerge_plan {s : State} {p : RunPlan} (h : findPlan s.mem s.runCfg = .ok (some p)) :
    validateAndMerge s = mergeAndCheck p s := by rw [validateAndMerge, h]; rfl

/-- START while no run exists, whose checks reject the run (R170, R171). -/
theorem execStart_rejected {s s' : State} {r : Resp} (hb : s.busy = false)
    (h : validateAndMerge (beginRun s) = .ok (some r, s')) : execStart s = .next (rejectRun r s') := by
  rw [execStart, hb, h]; rfl

/-- START while no run exists, whose checks accept the run (R170, R175). -/
theorem execStart_accepted {s s' : State} (hb : s.busy = false)
    (h : validateAndMerge (beginRun s) = .ok (none, s')) : execStart s = .next (enterLoop s') := by
  rw [execStart, hb, h]; rfl

/-! ### Descriptor RAM that was never written (R363) -/

theorem Memory.stepEntry_reads (m : Memory) (d i : Nat) : ReadsOf m (m.stepEntry d i) := by
  unfold Memory.stepEntry
  repeat' first
    | exact ReadsOf.ok _
    | refine ReadsOf.bind (Memory.word_reads m _) fun _ => ?_

theorem stepOrZero_reads (m : Memory) (slot len i : Nat) : ReadsOf m (stepOrZero m slot len i) := by
  unfold stepOrZero
  split
  · exact m.stepEntry_reads _ _
  · exact ReadsOf.ok _

theorem mergeEntry_reads (m : Memory) (p : RunPlan) (i : Nat) : ReadsOf m (mergeEntry m p i) := by
  unfold mergeEntry
  refine (stepOrZero_reads m _ _ i).bind fun t => ?_
  dsimp only
  split
  · exact (stepOrZero_reads m _ _ i).bind fun _ => .ok _
  · exact .ok _

/-- A merge can only fault at a byte of descriptor RAM that was never written (R363). -/
theorem mergeFrom_reads (m : Memory) (p : RunPlan) : ∀ n i : Nat, ReadsOf m (mergeFrom m p i n) := by
  intro n
  induction n with
  | zero => intro i; exact .ok _
  | succ n ih => intro i; exact (mergeEntry_reads m p i).bind fun _ => (ih (i + 1)).bind fun _ => .ok _

/-- A step entry that reads has every word but the two reserved ones written (R111, R363). -/
theorem Memory.stepEntry_written {m : Memory} {d i w : Nat} {e : StepEntry} (h : m.stepEntry d i = .ok e)
    (hw : w < 15) (h3 : w ≠ 3) : written m (descOffset d (16 * (i + 1) + w)) 4 := by
  have step : ∀ {α : Type} (x : Nat) (g : Word → Except Fault α) (y : α), (m.word x >>= g) = .ok y →
      written m x 4 ∧ ∃ b, g b = .ok y := by
    intro α x g y h
    cases hr : m.word x with
    | error f => rw [hr] at h; cases h
    | ok b => rw [hr] at h; exact ⟨Memory.word_written hr, b, h⟩
  rw [Memory.stepEntry] at h
  obtain ⟨h0, _, h⟩ := step _ _ _ h
  obtain ⟨h1, _, h⟩ := step _ _ _ h
  obtain ⟨h2, _, h⟩ := step _ _ _ h
  obtain ⟨h4, _, h⟩ := step _ _ _ h
  obtain ⟨h5, _, h⟩ := step _ _ _ h
  obtain ⟨h6, _, h⟩ := step _ _ _ h
  obtain ⟨h7, _, h⟩ := step _ _ _ h
  obtain ⟨h8, _, h⟩ := step _ _ _ h
  obtain ⟨h9, _, h⟩ := step _ _ _ h
  obtain ⟨h10, _, h⟩ := step _ _ _ h
  obtain ⟨h11, _, h⟩ := step _ _ _ h
  obtain ⟨h12, _, h⟩ := step _ _ _ h
  obtain ⟨h13, _, h⟩ := step _ _ _ h
  obtain ⟨h14, _, _⟩ := step _ _ _ h
  interval_cases w
  exacts [h0, h1, h2, absurd rfl h3, h4, h5, h6, h7, h8, h9, h10, h11, h12, h13, h14]

/-- A merge that reads all it needs has read the entries of both descriptors up to their LENGTHs (R172, R363). -/
theorem mergeFrom_written {m : Memory} {p : RunPlan} {chain : List StepEntry} {slot i w : Nat}
    (h : mergeFrom m p 0 p.length = .ok chain)
    (hs : (slot = p.template ∧ i < headerLength p.th) ∨
      (slot = p.override ∧ p.overrideEn = true ∧ i < headerLength p.oh))
    (hw : w < 15) (h3 : w ≠ 3) : written m (descOffset slot (16 * (i + 1) + w)) 4 := by
  have hi : i < p.length := by
    unfold RunPlan.length
    rcases hs with ⟨_, h⟩ | ⟨_, h1, h⟩
    · split <;> omega
    · rw [if_pos h1]; omega
  obtain ⟨e, he, _⟩ := (mergeFrom_ok h).2 i hi
  obtain ⟨t, o, h1, h2, _⟩ := mergeEntry_ok he
  rw [Nat.zero_add] at h1 h2
  rcases hs with ⟨rfl, hl⟩ | ⟨rfl, hen, hl⟩
  · rw [stepOrZero, if_pos hl] at h1; exact Memory.stepEntry_written h1 hw h3
  · rw [if_pos hen, stepOrZero, if_pos hl] at h2; exact Memory.stepEntry_written h2 hw h3

/-- START whose checks read what was never written faults (R363). -/
theorem execStart_fault {s : State} {f : Fault} (hb : s.busy = false)
    (h : validateAndMerge (beginRun s) = .error f) : execStart s = .fault f := by
  rw [execStart, hb, h]; rfl

/-- START whose header words do not read faults (R363). -/
theorem validateAndMerge_error {s : State} {f : Fault} (h : findPlan s.mem s.runCfg = .error f) :
    validateAndMerge s = .error f := by rw [validateAndMerge, h]; rfl

end Sys2Proof.Machine
end

