-- ==== Sys2Proof/Laws/Raw.lean ====
section
/-! SUPPORT. What a raw step can do, in parts: up to its streaming loop, one chunk in either direction, and the
loop. -/

namespace Sys2Proof.Machine

/-! ### Up to the loop -/

/-- A raw instruction is the common procedure with its direction and its record (R230). -/
theorem exec_raw {i : Instr} {d : Dir} {k : Fin Config.numXfer} {t : Timing} {s : State}
    (h : rawForm i = some (d, k, t)) : exec i s = rawStep d k t s := by
  cases i <;> simp only [rawForm, Option.map_eq_some_iff, Prod.mk.injEq, reduceCtorEq] at h
  · obtain ⟨j, hj, rfl, rfl, rfl⟩ := h
    show execRaww _ _ s = _
    rw [execRaww, hj]
  · obtain ⟨j, hj, rfl, rfl, rfl⟩ := h
    show execRawr _ _ s = _
    rw [execRawr, hj]

/-- A raw step once its size is resolved (R233). -/
theorem rawSized_eq (k : Fin Config.numXfer) (t : Timing) (s : State) :
    rawSized k (rawEntered k t s) =
      { s with hookXfer := BitVec.ofNat 3 k.val
               xfer := s.xfer.set k { s.xfer[k] with intended := resolveSize s.dev s.xfer[k] }
               trace := (delayEvents t.pre).reverse ++ s.trace
               clk := s.clk.hold t.pre } := by
  rw [rawSized, rawEntered, delay_eq]; rfl

/-- A raw step of non-zero size when its ready wait begins (R230, R235). -/
theorem rawAtWait_spec (k : Fin Config.numXfer) (t : Timing) (s : State) : ∃ c,
    rawAtWait k t s =
      { s with hookXfer := BitVec.ofNat 3 k.val
               xfer := s.xfer.set k { s.xfer[k] with
                 intended := resolveSize s.dev s.xfer[k], offset := 0, chunkSeq := 0 }
               pins := { s.pins with latch := .neutral }
               trace := (headEvents .neutral t).reverse ++ s.trace
               clk := c } ∧ s.clk.Quiet c := by
  refine ⟨(((s.clk.hold t.pre).hold t.lePre).pass).hold t.lePost, ?_, ?_⟩
  · rw [rawAtWait, rawLatched, rawSized_eq, delay_eq, setLatch, delay_eq]
    simp [rawCursors, State.setXfer, headEvents]
  · exact (((Clk.hold_quiet _ _).trans (Clk.hold_quiet _ _)).trans (Clk.pass_quiet _)).trans (Clk.hold_quiet _ _)

/-- The outcome of a result that depends on a condition. -/
theorem outcomeOf_ite (c : Prop) [Decidable c] (a b : Except Halt State) :
    outcomeOf (if c then a else b) = if c then outcomeOf a else outcomeOf b := by split <;> rfl

/-- What a raw step does from its beginning (R230, R234, R236, R247). -/
theorem rawRun_begin {d : Dir} {k : Fin Config.numXfer} {t : Timing} {s : State} (hp : s.phase = .begin) :
    rawRun d k t s =
      if pageOn16Bit s.dev s.xfer[k] then .error ⟨.inr .pageSizeOn16BitBus, rawEntered k t s⟩
      else if resolveSize s.dev s.xfer[k] = 0 then .ok (endStep t (rawSized k (rawEntered k t s)))
      else if (stepWait t (rawAtWait k t s)).1 then
        streamFrom d k t (delay t.rdyPost (stepWait t (rawAtWait k t s)).2)
      else .ok (timeoutPath t (stepWait t (rawAtWait k t s)).2) := by
  have hsz : (rawSized k (rawEntered k t s)).xfer[k].intended = resolveSize s.dev s.xfer[k] := by
    rw [rawSized_eq]; simp
  rw [← hsz]
  unfold rawRun
  rw [hp]
  rfl

/-- The outcome of a raw step from its beginning. -/
theorem rawStep_begin {d : Dir} {k : Fin Config.numXfer} {t : Timing} {s : State} (hp : s.phase = .begin) :
    rawStep d k t s =
      if pageOn16Bit s.dev s.xfer[k] then .refused .pageSizeOn16BitBus
      else if resolveSize s.dev s.xfer[k] = 0 then .next (endStep t (rawSized k (rawEntered k t s)))
      else if (stepWait t (rawAtWait k t s)).1 then
        outcomeOf (streamFrom d k t (delay t.rdyPost (stepWait t (rawAtWait k t s)).2))
      else .next (timeoutPath t (stepWait t (rawAtWait k t s)).2) := by
  rw [rawStep, rawRun_begin hp]
  simp only [outcomeOf_ite]
  rfl

/-- A raw step from its pre-hook on goes into the loop body (R237, R339). -/
theorem rawStep_afterPre {d : Dir} {k : Fin Config.numXfer} {t : Timing} {s : State} (hp : s.phase = .afterPre) :
    rawStep d k t s = outcomeOf (chunkBody (streamFrom d k t) d k t s) := by
  rw [rawStep, rawRun, hp]

/-- A raw step from its post-hook on counts the chunk and goes on with the loop (R237, R339). -/
theorem rawStep_afterPost {d : Dir} {k : Fin Config.numXfer} {t : Timing} {s : State} (hp : s.phase = .afterPost) :
    rawStep d k t s = outcomeOf (streamFrom d k t (bumpSeq k s)) := by
  rw [rawStep, rawRun, hp]

/-- A raw step whose wait answers OK, where its loop begins (R230). -/
theorem rawReady_spec {k : Fin Config.numXfer} {t : Timing} {s : State} (h : rawReadyWait k t s) : ∃ c,
    delay t.rdyPost (stepWait t (rawAtWait k t s)).2 =
      { s with hookXfer := BitVec.ofNat 3 k.val
               xfer := s.xfer.set k { s.xfer[k] with
                 intended := resolveSize s.dev s.xfer[k], offset := 0, chunkSeq := 0 }
               pins := { s.pins with latch := .neutral }
               trace := (headEvents .neutral t ++ readyEvents s t ++ delayEvents t.rdyPost).reverse ++ s.trace
               clk := c } ∧ s.clk.Quiet c := by
  obtain ⟨c1, e1, q1⟩ := rawAtWait_spec k t s
  obtain ⟨c2, e2, q2⟩ := stepWait_ok h
  refine ⟨c2.hold t.rdyPost, ?_, ?_⟩
  · rw [e2, e1, delay_eq]; simp [readyEvents]
  · rw [e1] at q2; exact (q1.trans q2).trans (Clk.hold_quiet _ _)

/-- A raw step of non-zero size whose wait answers OK goes into its loop (R230). -/
theorem rawStep_ready {d : Dir} {k : Fin Config.numXfer} {t : Timing} {s : State} (hp : s.phase = .begin)
    (hpg : pageOn16Bit s.dev s.xfer[k] = false) (hz : resolveSize s.dev s.xfer[k] ≠ 0) (hr : rawReadyWait k t s) :
    ∃ c, s.clk.Quiet c ∧ ∀ z, z = { s with
        hookXfer := BitVec.ofNat 3 k.val
        xfer := s.xfer.set k { s.xfer[k] with
          intended := resolveSize s.dev s.xfer[k], offset := 0, chunkSeq := 0 }
        pins := { s.pins with latch := .neutral }
        trace := (headEvents .neutral t ++ readyEvents s t ++ delayEvents t.rdyPost).reverse ++ s.trace
        clk := c } →
      rawStep d k t s = outcomeOf (streamFrom d k t z) := by
  obtain ⟨c, e, q⟩ := rawReady_spec hr
  refine ⟨c, q, ?_⟩
  rintro z rfl
  rw [rawStep_begin hp, hpg, if_neg hz, if_pos (show (stepWait t (rawAtWait k t s)).1 = true from hr), e]
  rfl

/-- A raw step of size 0 (R234). -/
theorem rawStep_zero {d : Dir} {k : Fin Config.numXfer} {t : Timing} {s : State} (hp : s.phase = .begin)
    (hpg : pageOn16Bit s.dev s.xfer[k] = false) (hz : resolveSize s.dev s.xfer[k] = 0) :
    rawStep d k t s = .next (endStep t (rawSized k (rawEntered k t s))) := by
  rw [rawStep_begin hp, hpg, if_pos hz]; rfl

/-- A raw step whose wait times out (R236). -/
theorem rawStep_timeout {d : Dir} {k : Fin Config.numXfer} {t : Timing} {s : State} (hp : s.phase = .begin)
    (hpg : pageOn16Bit s.dev s.xfer[k] = false) (hz : resolveSize s.dev s.xfer[k] ≠ 0) (hr : ¬ rawReadyWait k t s) :
    rawStep d k t s = .next (timeoutPath t (stepWait t (rawAtWait k t s)).2) := by
  rw [rawStep_begin hp, hpg, if_neg hz, if_neg (show ¬ (stepWait t (rawAtWait k t s)).1 = true from hr)]; rfl

/-! ### Elements -/

theorem elemsOfBytes_w8 (bs : List Byte) : elemsOfBytes .w8 bs = bs.map (·.setWidth 16) := by
  induction bs with
  | nil => rfl
  | cons b bs ih =>
    cases bs with
    | nil => rfl
    | cons c rest => rw [elemsOfBytes, ih]; rfl

theorem elemsOfBytes_w16_get (n : Nat) : ∀ (bs : List Byte), bs.length = 2 * n →
    (elemsOfBytes .w16 bs).length = n ∧
    ∀ j, j < n → ∃ lo hi, bs[2 * j]? = some lo ∧ bs[2 * j + 1]? = some hi ∧
      (elemsOfBytes .w16 bs)[j]? = some (hi ++ lo) := by
  induction n with
  | zero =>
    intro bs h
    have : bs = [] := List.length_eq_zero_iff.mp (by omega)
    subst this
    exact ⟨rfl, fun j hj => by omega⟩
  | succ n ih =>
    intro bs h
    match bs, h with
    | b :: c :: rest, h =>
      obtain ⟨hl, hg⟩ := ih rest (by simp at h; omega)
      refine ⟨by simp [elemsOfBytes, hl], fun j hj => ?_⟩
      cases j with
      | zero => exact ⟨b, c, rfl, rfl, rfl⟩
      | succ j =>
        obtain ⟨lo, hi, h1, h2, h3⟩ := hg j (by omega)
        refine ⟨lo, hi, ?_, ?_, ?_⟩
        · rw [show 2 * (j + 1) = 2 * j + 1 + 1 by omega]; simpa using h1
        · rw [show 2 * (j + 1) + 1 = 2 * j + 1 + 1 + 1 by omega]; simpa using h2
        · simpa [elemsOfBytes] using h3

/-- As many elements as the bytes hold (R84). -/
theorem elemsOfBytes_length (w : Width) (n : Nat) (bs : List Byte) (h : bs.length = w.bytes * n) :
    (elemsOfBytes w bs).length = n := by
  cases w
  · rw [elemsOfBytes_w8]; simpa [Width.bytes] using h
  · exact (elemsOfBytes_w16_get n bs h).1

theorem elemBytes_length (w : Width) (v : Half) : (elemBytes w v).length = w.bytes := by cases w <;> rfl

theorem flatMap_elemBytes_length (w : Width) (vs : List Half) :
    (vs.flatMap (elemBytes w)).length = w.bytes * vs.length := by
  induction vs with
  | nil => simp
  | cons v vs ih => rw [List.flatMap_cons, List.length_append, ih, elemBytes_length, List.length_cons]; ring

/-- Where all the bytes of the elements were written, they read. -/
theorem readElems_ok (m : Memory) (base : BitVec 16) (w : Width) (n : Nat)
    (h : written m (Config.bufBase + base.toNat) (w.bytes * n)) :
    ∃ bs, m.bytes (Config.bufBase + base.toNat) (w.bytes * n) = .ok bs ∧
      readElems m base w n = .ok (elemsOfBytes w bs) ∧ (elemsOfBytes w bs).length = n := by
  obtain ⟨bs, hbs⟩ := m.bytes_ok_of_written _ _ h
  refine ⟨bs, hbs, ?_, elemsOfBytes_length w n bs (Memory.bytes_length hbs)⟩
  have h0 : elemOffset base w 0 = Config.bufBase + base.toNat := by simp [elemOffset]
  rw [readElems, h0, hbs]

/-- Storing elements changes no byte outside theirs (R244). -/
theorem storeElems_outside (m : Memory) (base : BitVec 16) (w : Width) (vs : List Half) (a : Nat)
    (h : a < Config.bufBase + base.toNat ∨ Config.bufBase + base.toNat + w.bytes * vs.length ≤ a) :
    (storeElems m base w vs).read a = m.read a := by
  apply Memory.read_store_outside
  rw [flatMap_elemBytes_length, show elemOffset base w 0 = Config.bufBase + base.toNat by simp [elemOffset]]
  exact h

theorem storeElems_wf {m : Memory} (base : BitVec 16) (w : Width) (vs : List Half) (h : m.wf = true) :
    (storeElems m base w vs).wf = true := Memory.store_wf _ _ _ h

/-! ### One chunk -/

/-- A chunk of RAWW, its elements being readable (R231, R237). -/
theorem writeChunk_spec {k : Fin Config.numXfer} {t : Timing} {s : State} {vs : List Half}
    (h : readElems s.mem s.xfer[k].bufBase s.dev.dataWidth s.xfer[k].chunk = .ok vs) : ∃ c,
    writeChunk k t s = .ok { s with
      bytes := s.bytes + BitVec.ofNat 32 vs.length
      xfer := s.xfer.set k { s.xfer[k] with offset := s.xfer[k].offset + BitVec.ofNat 32 s.xfer[k].chunk }
      pins := Pins.afterWrites { s.pins with dir := .write } s.dev.dataWidth vs
      trace := (cycleEvents s.dev.dataWidth vs).reverse ++ s.trace
      clk := c } ∧ s.clk.Quiet c := by
  obtain ⟨c, he, hq⟩ := sendCycles_spec s.dev.dataWidth t vs (setDir .write s)
  refine ⟨c, ?_, (Clk.pass_quiet _).trans hq⟩
  rw [writeChunk, h]
  simp only
  rw [he]
  simp [advanceOffset, State.setXfer, cycleEvents]

/-- A chunk of RAWR (R232, R237, R242). -/
theorem readChunk_spec (k : Fin Config.numXfer) (t : Timing) (s : State) : ∃ c vs,
    readChunk k t s = { s with
      bytes := s.bytes + BitVec.ofNat 32 s.xfer[k].chunk
      xfer := s.xfer.set k { s.xfer[k] with
        offset := s.xfer[k].offset + BitVec.ofNat 32 s.xfer[k].chunk
        lastChunk := BitVec.ofNat 32 s.xfer[k].chunk }
      pins := { s.pins with dir := .read, reAct := if s.xfer[k].chunk = 0 then s.pins.reAct else false }
      mem := storeElems s.mem s.xfer[k].bufBase s.dev.dataWidth vs
      trace := (Event.dir .read :: vs.map (fun v => Event.rcyc s.dev.dataWidth v)).reverse ++ s.trace
      clk := c } ∧ s.clk.Later c ∧ vs.length = s.xfer[k].chunk ∧ (∀ v ∈ vs, s.dev.dataWidth.clip v = v) ∧
    (∀ answers rest, s.clk.env.dq = answers ++ rest → answers.length = s.xfer[k].chunk →
      vs = answers.map s.dev.dataWidth.clip ∧ c.env.dq = rest) := by
  obtain ⟨c, he, hq, hlen, hclip, hans⟩ := receiveCycles_spec s.dev.dataWidth t s.xfer[k].chunk (setDir .read s)
  refine ⟨c, _, ?_, (Clk.pass_quiet _).toLater.trans hq, hlen, hclip, fun answers rest h hl =>
    hans answers rest ((Clk.pass_quiet s.clk).dq.trans h) hl⟩
  simp only [readChunk]
  rw [he]
  simp [advanceOffset, State.setXfer, setDir]

theorem elemsInside_le {base : BitVec 16} {w : Width} {n m : Nat} (h : elemsInside base w m = true) (hn : n ≤ m) :
    elemsInside base w n = true := by
  simp only [elemsInside, decide_eq_true_eq] at *
  exact Nat.le_trans (Nat.add_le_add_left (Nat.mul_le_mul_left _ hn) _) h

theorem bufferFits_inside {d : Device} {x : XferRec} (h : bufferFits d x = true) :
    elemsInside x.bufBase d.dataWidth x.bufCap.toNat = true := by
  simp only [bufferFits, Bool.and_eq_true] at h; exact h.1

/-- A chunk never passes the buffer (R238). -/
theorem chunk_inside {d : Device} {x : XferRec} (h : elemsInside x.bufBase d.dataWidth x.bufCap.toNat = true) :
    elemsInside x.bufBase d.dataWidth x.chunk = true := elemsInside_le h (Nat.min_le_left _ _)

theorem moveChunk_write {k : Fin Config.numXfer} {t : Timing} {s : State}
    (h : elemsInside s.xfer[k].bufBase s.dev.dataWidth s.xfer[k].bufCap.toNat = true) :
    moveChunk .write k t s = writeChunk k t s := by
  rw [moveChunk, if_pos (chunk_inside h)]

theorem moveChunk_read {k : Fin Config.numXfer} {t : Timing} {s : State}
    (h : elemsInside s.xfer[k].bufBase s.dev.dataWidth s.xfer[k].bufCap.toNat = true) :
    moveChunk .read k t s = .ok (readChunk k t s) := by
  rw [moveChunk, if_pos (chunk_inside h)]

/-! ### The loop without hooks -/

theorem exhausted_iff (x : XferRec) :
    x.exhausted = true ↔ x.bufCap.toNat = 0 ∨ x.intended.toNat - x.offset.toNat = 0 := by
  simp only [XferRec.exhausted, Bool.or_eq_true, decide_eq_true_eq]
  constructor
  · rintro (h | h)
    · left; rw [h]; rfl
    · right; omega
  · rintro (h | h)
    · left; exact BitVec.eq_of_toNat_eq (by simpa using h)
    · right; omega

/-- The chunks still to come of a transfer of which `left` elements are left (R238). -/
def chunksLeft (cap left : Nat) : List Nat := if left = 0 then [] else chunkLengths cap left

theorem chunksLeft_zero (cap : Nat) : chunksLeft cap 0 = [] := rfl

/-- The next chunk, and the chunks after it (R238). -/
theorem chunksLeft_succ {cap left : Nat} (hc : 0 < cap) (hl : 0 < left) :
    chunksLeft cap left = min cap left :: chunksLeft cap (left - min cap left) := by
  unfold chunksLeft chunkLengths
  rw [if_neg (by omega)]
  by_cases h : left ≤ cap
  · have h0 : (left - 1) / cap = 0 := Nat.div_eq_of_lt (by omega)
    simp [h0, Nat.min_eq_right h]
  · have h1 : (left - 1) / cap = (left - cap - 1) / cap + 1 := by
      rw [show left - 1 = (left - cap - 1) + cap by omega, Nat.add_div_right _ hc]
    rw [Nat.min_eq_left (by omega), if_neg (by omega), h1, List.replicate_succ, List.cons_append, Nat.mul_add]
    congr 3
    omega

theorem chunksLeft_sum {cap : Nat} (hc : 0 < cap) : ∀ (n left : Nat), left ≤ n →
    (chunksLeft cap left).sum = left := by
  intro n
  induction n with
  | zero => intro left h; rw [show left = 0 by omega]; rfl
  | succ n ih =>
    intro left h
    rcases Nat.eq_zero_or_pos left with rfl | hl
    · rfl
    · rw [chunksLeft_succ hc hl, List.sum_cons, ih _ (by omega)]; omega

theorem Pins.afterWrites_append (p : Pins) (w : Width) (vs ws : List Half) :
    (p.afterWrites w vs).afterWrites w ws = p.afterWrites w (vs ++ ws) := by
  cases ws with
  | nil => simp [Pins.afterWrites]
  | cons v ws =>
    obtain ⟨y, hy⟩ : ∃ y, (v :: ws).getLast? = some y := ⟨_, List.getLast?_eq_getLast_of_ne_nil (by simp)⟩
    simp [Pins.afterWrites, List.getLast?_append, hy]

theorem elemsOfBytes_take (w : Width) (n n' : Nat) (bs : List Byte) (hn : n' ≤ n) (h : bs.length = w.bytes * n) :
    elemsOfBytes w (bs.take (w.bytes * n')) = (elemsOfBytes w bs).take n' := by
  cases w
  · simp [elemsOfBytes_w8, Width.bytes]
  · have hl : (bs.take (2 * n')).length = 2 * n' := by rw [List.length_take]; simp [Width.bytes] at h; omega
    obtain ⟨h1, g1⟩ := elemsOfBytes_w16_get n bs h
    obtain ⟨h2, g2⟩ := elemsOfBytes_w16_get n' _ hl
    apply List.ext_getElem?
    intro j
    by_cases hj : j < n'
    · obtain ⟨lo, hi, a1, a2, a3⟩ := g1 j (by omega)
      obtain ⟨lo', hi', b1, b2, b3⟩ := g2 j hj
      rw [List.getElem?_take_of_lt (by omega)] at b1 b2
      rw [show Width.w16.bytes * n' = 2 * n' from rfl, b3, List.getElem?_take_of_lt hj, a3]
      rw [a1] at b1; rw [a2] at b2; cases b1; cases b2; rfl
    · rw [List.getElem?_eq_none (by rw [show Width.w16.bytes * n' = 2 * n' from rfl]; omega),
        List.getElem?_eq_none (by rw [List.length_take]; omega)]

/-- The first elements of a buffer that reads. -/
theorem readElems_take {m : Memory} {base : BitVec 16} {w : Width} {n n' : Nat} {vs : List Half}
    (h : readElems m base w n = .ok vs) (hn : n' ≤ n) : readElems m base w n' = .ok (vs.take n') := by
  unfold readElems at *
  cases hb : m.bytes (elemOffset base w 0) (w.bytes * n) with
  | error f => rw [hb] at h; cases h
  | ok bs =>
    rw [hb] at h
    cases h
    obtain ⟨hl, hr⟩ := (m.bytes_eq_ok _ _ _).mp hb
    have hle : w.bytes * n' ≤ w.bytes * n := Nat.mul_le_mul_left _ hn
    have : m.bytes (elemOffset base w 0) (w.bytes * n') = .ok (bs.take (w.bytes * n')) := by
      rw [Memory.bytes_eq_ok]
      refine ⟨by rw [List.length_take]; omega, fun i hi => ?_⟩
      rw [hr i (by omega), List.getElem?_take_of_lt hi]
    rw [this]
    simp only [Except.ok.injEq]
    exact elemsOfBytes_take w n n' bs hn hl

theorem readElems_length {m : Memory} {base : BitVec 16} {w : Width} {n : Nat} {vs : List Half}
    (h : readElems m base w n = .ok vs) : vs.length = n := by
  unfold readElems at h
  cases hb : m.bytes (elemOffset base w 0) (w.bytes * n) with
  | error f => rw [hb] at h; cases h
  | ok bs => rw [hb] at h; cases h; exact elemsOfBytes_length w n bs (Memory.bytes_length hb)

theorem set_self (xs : Vector XferRec Config.numXfer) (k : Fin Config.numXfer) (x : XferRec) (h : x = xs[k]) :
    xs.set k x = xs := by subst h; simp

/-- The streaming loop of RAWW without hooks, from any cursor (R237, R238). -/
theorem stream_write {k : Fin Config.numXfer} {t : Timing} {w : Width} {cap n : Nat} {vs : List Half} :
    ∀ (fuel left : Nat) (s : State),
    s.eff.pre = false → s.eff.post = false → w = s.dev.dataWidth → cap = s.xfer[k].bufCap.toNat → 0 < cap →
    elemsInside s.xfer[k].bufBase w cap = true → s.xfer[k].offset.toNat + left = s.xfer[k].intended.toNat →
    left < fuel → readElems s.mem s.xfer[k].bufBase w n = .ok vs → min cap left ≤ n →
    ∃ c, stream .write k t fuel s = .ok { s with
      status := { s.status with step := s.status.step + 1 }
      phase := .begin
      cur := wordsShown s (s.status.step.toNat + 1)
      bytes := s.bytes + BitVec.ofNat 32 left
      xfer := s.xfer.set k { s.xfer[k] with
        offset := s.xfer[k].intended
        chunkSeq := s.xfer[k].chunkSeq + BitVec.ofNat 32 (chunksLeft cap left).length }
      pins := Pins.afterWrites { s.pins with dir := if left = 0 then s.pins.dir else .write } w
        ((chunksLeft cap left).flatMap (fun n => vs.take n))
      trace := ((chunksLeft cap left).flatMap (fun n => cycleEvents w (vs.take n)) ++
        delayEvents t.post).reverse ++ s.trace
      clk := c } ∧ s.clk.Quiet c := by
  intro fuel
  induction fuel with
  | zero => intro left s _ _ _ _ _ _ _ h; omega
  | succ fuel ih =>
    intro left s h1 h2 hw hcap hpos hin hoff hfuel hvs hn
    rw [stream]
    rcases Nat.eq_zero_or_pos left with rfl | hl
    · have hex : s.xfer[k].exhausted = true := (exhausted_iff _).mpr (.inr (by omega))
      have hoi : s.xfer[k].offset = s.xfer[k].intended := BitVec.eq_of_toNat_eq (by omega)
      refine ⟨s.clk.hold t.post, ?_, Clk.hold_quiet _ _⟩
      rw [if_pos hex, endStep_eq, set_self _ _ _ (by rw [← hoi]; simp [chunksLeft_zero])]
      simp [chunksLeft_zero, Pins.afterWrites]
    · have hex : ¬ s.xfer[k].exhausted = true := by
        rw [exhausted_iff]; omega
      have hch : s.xfer[k].chunk = min cap left := by
        rw [XferRec.chunk, ← hcap]; congr 1; omega
      have hlt := s.xfer[k].intended.isLt
      have htk := readElems_take hvs hn
      obtain ⟨c1, e1, q1⟩ := writeChunk_spec (k := k) (t := t) (s := s) (vs := vs.take (min cap left))
        (by rw [hch, ← hw]; exact htk)
      have hlen := readElems_length htk
      have hoff' : (s.xfer[k].offset + BitVec.ofNat 32 s.xfer[k].chunk).toNat + (left - min cap left) =
          s.xfer[k].intended.toNat := by
        rw [hch, BitVec.toNat_add, BitVec.toNat_ofNat]; omega
      obtain ⟨c2, e2, q2⟩ := ih (left - min cap left)
        (bumpSeq k { s with
          bytes := s.bytes + BitVec.ofNat 32 (vs.take (min cap left)).length
          xfer := s.xfer.set k { s.xfer[k] with offset := s.xfer[k].offset + BitVec.ofNat 32 s.xfer[k].chunk }
          pins := Pins.afterWrites { s.pins with dir := .write } s.dev.dataWidth (vs.take (min cap left))
          trace := (cycleEvents s.dev.dataWidth (vs.take (min cap left))).reverse ++ s.trace
          clk := c1 })
        (by simp [bumpSeq, h1]) (by simp [bumpSeq, h2]) (by simpa [bumpSeq] using hw)
        (by simpa [bumpSeq, State.setXfer] using hcap) hpos (by simpa [bumpSeq, State.setXfer] using hin)
        (by simpa [bumpSeq, State.setXfer] using hoff') (by omega)
        (by simpa [bumpSeq, State.setXfer] using hvs) (by omega)
      refine ⟨c2, ?_, q1.trans (by simpa [bumpSeq] using q2)⟩
      rw [if_neg hex, h1]
      simp only [Bool.false_eq_true, if_false]
      rw [chunkBody, if_neg (by omega), moveChunk_write (by rw [← hw, ← hcap]; exact hin), e1]
      simp only [h2, Bool.false_eq_true, if_false]
      rw [e2, chunksLeft_succ hpos hl]
      have hbytes : s.bytes + BitVec.ofNat 32 (vs.take (min cap left)).length + BitVec.ofNat 32 (left - min cap left) =
          s.bytes + BitVec.ofNat 32 left := by
        rw [hlen, BitVec.add_assoc, ← BitVec.ofNat_add]; congr 2; omega
      have hpins : Pins.afterWrites { Pins.afterWrites { s.pins with dir := .write } w (vs.take (min cap left)) with
            dir := if left - min cap left = 0 then
              (Pins.afterWrites { s.pins with dir := .write } w (vs.take (min cap left))).dir else .write } w
            ((chunksLeft cap (left - min cap left)).flatMap (fun n => vs.take n)) =
          Pins.afterWrites { s.pins with dir := .write } w
            (vs.take (min cap left) ++ (chunksLeft cap (left - min cap left)).flatMap (fun n => vs.take n)) := by
        rw [← Pins.afterWrites_append]
        congr 1
        simp [Pins.afterWrites]
      simp only [bumpSeq, State.setXfer, ← hw, hbytes, hpins]
      simp [List.flatMap_cons, wordsShown, Nat.ne_of_gt hl, BitVec.add_assoc, BitVec.ofNat_add,
        BitVec.add_comm (BitVec.ofNat 32 _) 1#32]

theorem chunksLeft_getLast {cap left : Nat} (hl : 0 < left) :
    (chunksLeft cap left).getLast? = some (left - cap * ((left - 1) / cap)) := by
  unfold chunksLeft chunkLengths
  rw [if_neg (by omega)]
  simp

/-- The streaming loop of RAWR without hooks, from any cursor (R237, R238, R242). -/
theorem stream_read {k : Fin Config.numXfer} {t : Timing} {w : Width} {cap : Nat} :
    ∀ (fuel left : Nat) (s : State),
    s.eff.pre = false → s.eff.post = false → w = s.dev.dataWidth → cap = s.xfer[k].bufCap.toNat → 0 < cap →
    elemsInside s.xfer[k].bufBase w cap = true → s.xfer[k].offset.toNat + left = s.xfer[k].intended.toNat →
    left < fuel →
    ∃ c vs, stream .read k t fuel s = .ok { s with
      status := { s.status with step := s.status.step + 1 }
      phase := .begin
      cur := wordsShown s (s.status.step.toNat + 1)
      bytes := s.bytes + BitVec.ofNat 32 left
      xfer := s.xfer.set k { s.xfer[k] with
        offset := s.xfer[k].intended
        chunkSeq := s.xfer[k].chunkSeq + BitVec.ofNat 32 (chunksLeft cap left).length
        lastChunk := ((chunksLeft cap left).getLast?.map (BitVec.ofNat 32)).getD s.xfer[k].lastChunk }
      pins := { s.pins with dir := if left = 0 then s.pins.dir else .read
                            reAct := if left = 0 then s.pins.reAct else false }
      mem := (cutInto (chunksLeft cap left) vs).foldl (fun m c => storeElems m s.xfer[k].bufBase w c) s.mem
      trace := ((cutInto (chunksLeft cap left) vs).flatMap (fun c => Event.dir .read :: c.map (fun v => Event.rcyc w v)) ++
        delayEvents t.post).reverse ++ s.trace
      clk := c } ∧ s.clk.Later c ∧ vs.length = left ∧ (∀ v ∈ vs, w.clip v = v) ∧
    (∀ answers rest, s.clk.env.dq = answers ++ rest → answers.length = left →
      vs = answers.map w.clip ∧ c.env.dq = rest) := by
  intro fuel
  induction fuel with
  | zero => intro left s _ _ _ _ _ _ _ h; omega
  | succ fuel ih =>
    intro left s h1 h2 hw hcap hpos hin hoff hfuel
    rw [stream]
    rcases Nat.eq_zero_or_pos left with rfl | hl
    · have hex : s.xfer[k].exhausted = true := (exhausted_iff _).mpr (.inr (by omega))
      have hoi : s.xfer[k].offset = s.xfer[k].intended := BitVec.eq_of_toNat_eq (by omega)
      refine ⟨s.clk.hold t.post, [], ?_, (Clk.hold_quiet _ _).toLater, rfl, by simp, ?_⟩
      · rw [if_pos hex, endStep_eq, set_self _ _ _ (by rw [← hoi]; simp [chunksLeft_zero])]
        simp [chunksLeft_zero, cutInto]
      · intro answers rest h hlen
        have : answers = [] := List.length_eq_zero_iff.mp hlen
        subst this
        exact ⟨rfl, (Clk.hold_quiet _ _).dq.trans (by simpa using h)⟩
    · have hex : ¬ s.xfer[k].exhausted = true := by
        rw [exhausted_iff]; omega
      have hch : s.xfer[k].chunk = min cap left := by
        rw [XferRec.chunk, ← hcap]; congr 1; omega
      have hlt := s.xfer[k].intended.isLt
      obtain ⟨c1, vs1, e1, q1, hlen1, hclip1, hans1⟩ := readChunk_spec k t s
      have hoff' : (s.xfer[k].offset + BitVec.ofNat 32 s.xfer[k].chunk).toNat + (left - min cap left) =
          s.xfer[k].intended.toNat := by
        rw [hch, BitVec.toNat_add, BitVec.toNat_ofNat]; omega
      have hn0 : s.xfer[k].chunk ≠ 0 := by omega
      rw [← hw] at e1 hclip1 hans1
      obtain ⟨c2, vs2, e2, q2, hlen2, hclip2, hans2⟩ := ih (left - min cap left)
        (bumpSeq k { s with
          bytes := s.bytes + BitVec.ofNat 32 s.xfer[k].chunk
          xfer := s.xfer.set k { s.xfer[k] with
            offset := s.xfer[k].offset + BitVec.ofNat 32 s.xfer[k].chunk
            lastChunk := BitVec.ofNat 32 s.xfer[k].chunk }
          pins := { s.pins with dir := .read, reAct := if s.xfer[k].chunk = 0 then s.pins.reAct else false }
          mem := storeElems s.mem s.xfer[k].bufBase w vs1
          trace := (Event.dir .read :: vs1.map (fun v => Event.rcyc w v)).reverse ++ s.trace
          clk := c1 })
        (by simp [bumpSeq, h1]) (by simp [bumpSeq, h2]) (by simpa [bumpSeq] using hw)
        (by simpa [bumpSeq, State.setXfer] using hcap) hpos (by simpa [bumpSeq, State.setXfer] using hin)
        (by simpa [bumpSeq, State.setXfer] using hoff') (by omega)
      have hcut : cutInto (min cap left :: chunksLeft cap (left - min cap left)) (vs1 ++ vs2) =
          vs1 :: cutInto (chunksLeft cap (left - min cap left)) vs2 := by
        rw [cutInto, ← hch, ← hlen1, List.take_left, List.drop_left]
      refine ⟨c2, vs1 ++ vs2, ?_, q1.trans (by simpa [bumpSeq] using q2), ?_, ?_, ?_⟩
      · rw [if_neg hex, h1]
        simp only [Bool.false_eq_true, if_false]
        rw [chunkBody, if_neg (by omega), moveChunk_read (by rw [← hw, ← hcap]; exact hin), e1]
        simp only [h2, Bool.false_eq_true, if_false]
        rw [e2, chunksLeft_succ hpos hl, hcut]
        have hbytes : s.bytes + BitVec.ofNat 32 s.xfer[k].chunk + BitVec.ofNat 32 (left - min cap left) =
            s.bytes + BitVec.ofNat 32 left := by
          rw [hch, BitVec.add_assoc, ← BitVec.ofNat_add]; congr 2; omega
        have hlast : ((chunksLeft cap (left - min cap left)).getLast?.map (BitVec.ofNat 32)).getD
              (BitVec.ofNat 32 s.xfer[k].chunk) =
            ((min cap left :: chunksLeft cap (left - min cap left)).getLast?.map (BitVec.ofNat 32)).getD
              s.xfer[k].lastChunk := by
          rw [hch]
          cases chunksLeft cap (left - min cap left) with
          | nil => rfl
          | cons a l =>
            rw [List.getLast?_cons_cons]
            obtain ⟨y, hy⟩ : ∃ y, (a :: l).getLast? = some y := ⟨_, List.getLast?_eq_getLast_of_ne_nil (by simp)⟩
            rw [hy]; rfl
        rw [← hlast]
        simp only [bumpSeq, State.setXfer, hbytes]
        simp [List.flatMap_cons, wordsShown, Nat.ne_of_gt hl, BitVec.add_assoc, BitVec.ofNat_add,
          BitVec.add_comm (BitVec.ofNat 32 _) 1#32]
        exact fun _ h => absurd h hn0
      · rw [List.length_append, hlen1, hlen2, hch]; omega
      · intro v hv
        rcases List.mem_append.mp hv with hv | hv
        · exact hclip1 v hv
        · exact hclip2 v hv
      · intro answers rest h hlen
        have hle : min cap left ≤ answers.length := by omega
        obtain ⟨a1, d1⟩ := hans1 (answers.take (min cap left)) (answers.drop (min cap left) ++ rest)
          (by rw [← List.append_assoc, List.take_append_drop]; exact h) (by rw [List.length_take, hch]; omega)
        obtain ⟨a2, d2⟩ := hans2 (answers.drop (min cap left)) rest (by simpa [bumpSeq] using d1)
          (by rw [List.length_drop]; omega)
        exact ⟨by rw [a1, a2, ← List.map_append, List.take_append_drop], d2⟩

/-- No chunk stores outside the buffer's used part (R244). -/
theorem foldl_storeElems_outside (base : BitVec 16) (w : Width) (n a : Nat)
    (h : a < Config.bufBase + base.toNat ∨ Config.bufBase + base.toNat + w.bytes * n ≤ a) :
    ∀ (cs : List (List Half)) (m : Memory), (∀ c ∈ cs, c.length ≤ n) →
      (cs.foldl (fun m c => storeElems m base w c) m).read a = m.read a := by
  intro cs
  induction cs with
  | nil => intro m _; rfl
  | cons c cs ih =>
    intro m hc
    rw [List.foldl_cons, ih _ (fun c' h' => hc c' (List.mem_cons_of_mem _ h'))]
    apply storeElems_outside
    have : w.bytes * c.length ≤ w.bytes * n := Nat.mul_le_mul_left _ (hc c (by simp))
    omega

theorem cutInto_le {α : Type} {n : Nat} : ∀ (ns : List Nat) (xs : List α), (∀ m ∈ ns, m ≤ n) →
    ∀ c ∈ cutInto ns xs, c.length ≤ n := by
  intro ns
  induction ns with
  | nil => intro xs _ c hc; cases hc
  | cons m ns ih =>
    intro xs h c hc
    rcases List.mem_cons.mp hc with rfl | hc
    · rw [List.length_take]; exact Nat.le_trans (Nat.min_le_left _ _) (h m (by simp))
    · exact ih _ (fun m' h' => h m' (List.mem_cons_of_mem _ h')) c hc

theorem chunksLeft_le {cap : Nat} (hc : 0 < cap) : ∀ (n left : Nat), left ≤ n →
    ∀ m ∈ chunksLeft cap left, m ≤ min cap left := by
  intro n
  induction n with
  | zero => intro left h m hm; rw [show left = 0 by omega, chunksLeft_zero] at hm; cases hm
  | succ n ih =>
    intro left h m hm
    rcases Nat.eq_zero_or_pos left with rfl | hl
    · cases hm
    · rw [chunksLeft_succ hc hl] at hm
      rcases List.mem_cons.mp hm with rfl | hm
      · exact Nat.le_refl _
      · have := ih _ (by omega) m hm; omega

/-! ### Elements and chunks, from outside -/

/-- The elements read from RAM are the bytes that stand there, the low byte of each first (R84, R85). -/
theorem readElems_get {m : Memory} {base : BitVec 16} {w : Width} {n : Nat} {vs : List Half}
    (h : readElems m base w n = .ok vs) {j : Nat} (hj : j < n) :
    ∃ lo, m.read (Config.bufBase + base.toNat + w.bytes * j) = some lo ∧
      (w = .w8 → vs[j]? = some (lo.setWidth 16)) ∧
      (w = .w16 → ∃ hi, m.read (Config.bufBase + base.toNat + 2 * j + 1) = some hi ∧ vs[j]? = some (hi ++ lo)) := by
  have h0 : elemOffset base w 0 = Config.bufBase + base.toNat := by simp [elemOffset]
  rw [readElems, h0] at h
  cases hb : m.bytes (Config.bufBase + base.toNat) (w.bytes * n) with
  | error f => rw [hb] at h; cases h
  | ok bs =>
    rw [hb] at h; cases h
    have hlb := Memory.bytes_length hb
    have hr := ((Memory.bytes_eq_ok _ _ _ _).mp hb).2
    cases w with
    | w8 =>
      have hj' : j < bs.length := by rw [hlb]; simpa [Width.bytes] using hj
      refine ⟨bs[j], ?_, fun _ => ?_, fun h => by cases h⟩
      · rw [show Width.w8.bytes * j = j by simp [Width.bytes], hr j (by rw [← hlb]; exact hj'),
          List.getElem?_eq_getElem hj']
      · rw [elemsOfBytes_w8, List.getElem?_map, List.getElem?_eq_getElem hj']; rfl
    | w16 =>
      obtain ⟨lo, hi, h1, h2, h3⟩ := (elemsOfBytes_w16_get n bs (by simpa [Width.bytes] using hlb)).2 j hj
      refine ⟨lo, ?_, fun h => (by cases h), fun _ => ⟨hi, ?_, h3⟩⟩
      · rw [← h1]; exact hr (2 * j) (by simp [Width.bytes]; omega)
      · rw [← h2]; exact hr (2 * j + 1) (by simp [Width.bytes]; omega)

/-- Element `j` of stored elements, the low byte first (R84, R85). -/
theorem storeElems_get (m : Memory) (base : BitVec 16) (w : Width) (vs : List Half) {j : Nat} {v : Half}
    (h : vs[j]? = some v) :
    (storeElems m base w vs).read (Config.bufBase + base.toNat + w.bytes * j) = some (v.setWidth 8) ∧
      (w = .w16 → (storeElems m base w vs).read (Config.bufBase + base.toNat + 2 * j + 1) =
        some ((v >>> 8).setWidth 8)) := by
  have h0 : elemOffset base w 0 = Config.bufBase + base.toNat := by simp [elemOffset]
  have hj : j < vs.length := by
    by_contra hc
    rw [List.getElem?_eq_none (by omega)] at h; cases h
  have key : ∀ i, i < w.bytes → (vs.flatMap (elemBytes w))[w.bytes * j + i]? = (elemBytes w v)[i]? := by
    clear h0
    induction vs generalizing j with
    | nil => simp at hj
    | cons a vs ih =>
      intro i hi
      rw [List.flatMap_cons]
      cases j with
      | zero =>
        simp at h; subst h
        rw [List.getElem?_append_left (by rw [elemBytes_length]; omega)]; simp
      | succ j =>
        rw [List.getElem?_append_right (by rw [elemBytes_length, Nat.mul_succ]; omega), elemBytes_length,
          ← ih (by simpa using h) (by simpa using hj) i hi]
        congr 1; rw [Nat.mul_succ]; omega
  have hlen := flatMap_elemBytes_length w vs
  have hmul : w.bytes * j + w.bytes ≤ w.bytes * vs.length := by
    rw [← Nat.mul_succ]; exact Nat.mul_le_mul_left _ hj
  have rd : ∀ i, i < w.bytes → (storeElems m base w vs).read (Config.bufBase + base.toNat + (w.bytes * j + i)) =
      (elemBytes w v)[i]? := by
    intro i hi
    rw [storeElems, h0, Memory.read_store_inside _ _ _ _ (by omega), ← key i hi, List.getElem?_eq_getElem]
  constructor
  · have := rd 0 (by cases w <;> decide)
    rw [Nat.add_zero] at this
    rw [this]; cases w <;> rfl
  · rintro rfl
    exact rd 1 (by decide)

/-- What a chunk leaves alone, in either direction (R237). -/
theorem moveChunk_frame {d : Dir} {k : Fin Config.numXfer} {t : Timing} {s y : State} (h : moveChunk d k t s = .ok y) :
    y.status = s.status ∧ y.eff = s.eff ∧ y.effLen = s.effLen ∧ y.phase = s.phase ∧ y.dev = s.dev ∧ y.fsm = s.fsm ∧
      y.cur = s.cur ∧ y.xfer[k].chunkSeq = s.xfer[k].chunkSeq := by
  unfold moveChunk at h
  split at h
  · cases d
    · simp only at h
      cases hr : readElems s.mem s.xfer[k].bufBase s.dev.dataWidth s.xfer[k].chunk with
      | error f => rw [writeChunk, hr] at h; cases h
      | ok vs =>
        obtain ⟨c, e, q⟩ := writeChunk_spec (t := t) hr
        rw [e] at h; cases h; simp
    · simp only at h
      obtain ⟨c, vs, e, _⟩ := readChunk_spec k t s
      rw [e] at h; cases h; simp
  · cases h

/-! ### The loop with hooks -/

/-- The loop ends where no buffer is or the whole size has moved (R237, R241). -/
theorem streamFrom_exhausted {d : Dir} {k : Fin Config.numXfer} {t : Timing} {s : State}
    (h : s.xfer[k].exhausted = true) : streamFrom d k t s = .ok (endStep t s) := by
  rw [streamFrom, stream, if_pos h]

/-- The loop stops in its pre-hook before the chunk (R237). -/
theorem streamFrom_pre {d : Dir} {k : Fin Config.numXfer} {t : Timing} {s : State}
    (h : s.xfer[k].exhausted = false) (hp : s.eff.pre = true) :
    streamFrom d k t s = .ok (enterHook .pre true s.xfer[k].chunkSeq s) := by
  rw [streamFrom, stream, if_neg (by simpa using h), if_pos hp]

/-- The loop body after its pre-hook point, for a chunk that moves (R237). -/
theorem chunkBody_moved {again : State → Except Halt State} {d : Dir} {k : Fin Config.numXfer} {t : Timing}
    {s y : State} (h : s.xfer[k].offset.toNat < s.xfer[k].intended.toNat) (hy : moveChunk d k t s = .ok y) :
    chunkBody again d k t s =
      if s.eff.post then .ok (enterHook .post true y.xfer[k].chunkSeq y) else again (bumpSeq k y) := by
  rw [chunkBody, if_neg (by omega), hy]
  simp only
  rw [(moveChunk_frame hy).2.1]

/-- The loop without a pre-hook stops in the post-hook of its first chunk (R237). -/
theorem streamFrom_post {d : Dir} {k : Fin Config.numXfer} {t : Timing} {s y : State}
    (h : s.xfer[k].exhausted = false) (hp : s.eff.pre = false) (hq : s.eff.post = true)
    (hy : moveChunk d k t s = .ok y) : streamFrom d k t s = .ok (enterHook .post true y.xfer[k].chunkSeq y) := by
  have hlt : s.xfer[k].offset.toNat < s.xfer[k].intended.toNat := by
    simp only [XferRec.exhausted, Bool.or_eq_false_iff, decide_eq_false_iff_not] at h; omega
  rw [streamFrom, stream, if_neg (by simpa using h), if_neg (by simpa using hp), chunkBody_moved hlt hy, if_pos hq]

/-! ### A buffer that was never written (R363) -/

theorem elemsOfBytes_first (w : Width) (bs : List Byte) (h : w.bytes ≤ bs.length) :
    elemsOfBytes w bs = elemsOfBytes w (bs.take w.bytes) ++ elemsOfBytes w (bs.drop w.bytes) := by
  cases w
  · rw [elemsOfBytes_w8, elemsOfBytes_w8, elemsOfBytes_w8, ← List.map_append, List.take_append_drop]
  · match bs, h with
    | _ :: _ :: _, _ => rfl

/-- The elements read before an unwritten one are those that read, in their order (R244). -/
theorem writtenElems_eq {m : Memory} {base : BitVec 16} {w : Width} : ∀ {i n j : Nat} {bs : List Byte}, i < n →
    (∃ f, m.bytes (elemOffset base w (j + i)) w.bytes = .error f) →
    m.bytes (elemOffset base w j) (w.bytes * i) = .ok bs → writtenElems m base w j n = elemsOfBytes w bs := by
  intro i
  induction i with
  | zero =>
    rintro (_ | n) j bs hi ⟨f, he⟩ hb
    · omega
    · cases hb
      rw [writtenElems, show elemOffset base w j = elemOffset base w (j + 0) from rfl, he]; rfl
  | succ i ih =>
    rintro (_ | n) j bs hi ⟨f, he⟩ hb
    · omega
    · obtain ⟨hl, hr⟩ := (m.bytes_eq_ok _ _ _).mp hb
      rw [Nat.mul_succ] at hl hr
      have hj : elemOffset base w (j + 1) = elemOffset base w j + w.bytes := by
        simp only [elemOffset, Nat.mul_succ]; omega
      have h1 : m.bytes (elemOffset base w j) w.bytes = .ok (bs.take w.bytes) := by
        rw [Memory.bytes_eq_ok]
        refine ⟨by rw [List.length_take]; omega, fun x hx => ?_⟩
        rw [hr x (by omega), List.getElem?_take_of_lt hx]
      have h2 : m.bytes (elemOffset base w (j + 1)) (w.bytes * i) = .ok (bs.drop w.bytes) := by
        rw [Memory.bytes_eq_ok]
        refine ⟨by rw [List.length_drop]; omega, fun x hx => ?_⟩
        rw [hj, Nat.add_assoc, hr _ (by omega), List.getElem?_drop]
      rw [writtenElems, h1, elemsOfBytes_first w bs (by omega)]
      simp only
      rw [ih (by omega) ⟨f, by rwa [show j + 1 + i = j + (i + 1) by omega]⟩ h2]

/-- A RAWW chunk of which byte `m` of the buffer is the first that was never written faults there (R363), with the
elements before it sent (R244). -/
theorem moveChunk_unwritten {k : Fin Config.numXfer} {t : Timing} {s : State} {m : Nat}
    (hf : bufferFits s.dev s.xfer[k] = true) (hm : m < s.dev.dataWidth.bytes * s.xfer[k].chunk)
    (hw : written s.mem s.xfer[k].bufferAt m) (hr : s.mem.read (s.xfer[k].bufferAt + m) = none) :
    ∃ vs, readElems s.mem s.xfer[k].bufBase s.dev.dataWidth (m / s.dev.dataWidth.bytes) = .ok vs ∧
      moveChunk .write k t s = .error ⟨.inl (.unwrittenRam (s.xfer[k].bufferAt + m)),
        sendCycles s.dev.dataWidth t vs (setDir .write s)⟩ := by
  have h0 : ∀ j, elemOffset s.xfer[k].bufBase s.dev.dataWidth j = s.xfer[k].bufferAt + s.dev.dataWidth.bytes * j :=
    fun _ => rfl
  have hpos : 0 < s.dev.dataWidth.bytes := by cases s.dev.dataWidth <;> decide
  have hdiv := Nat.div_add_mod m s.dev.dataWidth.bytes
  have hmod := Nat.mod_lt m hpos
  obtain ⟨bs, hbs, hok, -⟩ := readElems_ok s.mem s.xfer[k].bufBase s.dev.dataWidth (m / s.dev.dataWidth.bytes)
    (fun i hi => hw i (by omega))
  have hsent : writtenElems s.mem s.xfer[k].bufBase s.dev.dataWidth 0 s.xfer[k].chunk =
      elemsOfBytes s.dev.dataWidth bs := by
    have he := Memory.bytes_unwritten (m := s.mem) (n := s.dev.dataWidth.bytes) (j := m % s.dev.dataWidth.bytes)
      (a := s.xfer[k].bufferAt + s.dev.dataWidth.bytes * (m / s.dev.dataWidth.bytes)) hmod (fun i hi => by
        rw [Nat.add_assoc]; exact hw _ (by omega)) (by rwa [Nat.add_assoc, hdiv])
    exact writtenElems_eq (i := m / s.dev.dataWidth.bytes) ((Nat.div_lt_iff_lt_mul hpos).mpr
      (by rwa [Nat.mul_comm])) ⟨_, by rw [h0, Nat.zero_add]; exact he⟩ hbs
  refine ⟨_, hok, ?_⟩
  rw [moveChunk_write (bufferFits_inside hf), writeChunk, readElems, h0, Nat.mul_zero, Nat.add_zero,
    Memory.bytes_unwritten hm hw hr]
  simp only
  rw [hsent]

/-- A RAWW loop whose next chunk does so faults there (R363). -/
theorem chunkBody_unwritten {again : State → Except Halt State} {k : Fin Config.numXfer} {t : Timing} {s : State}
    {m : Nat} (hf : bufferFits s.dev s.xfer[k] = true) (hm : m < s.dev.dataWidth.bytes * s.xfer[k].chunk)
    (hw : written s.mem s.xfer[k].bufferAt m) (hr : s.mem.read (s.xfer[k].bufferAt + m) = none) :
    ∃ z, chunkBody again .write k t s = .error ⟨.inl (.unwrittenRam (s.xfer[k].bufferAt + m)), z⟩ := by
  have hc : 0 < s.xfer[k].chunk := by
    rcases Nat.eq_zero_or_pos s.xfer[k].chunk with h | h
    · rw [h] at hm; omega
    · exact h
  unfold XferRec.chunk at hc
  obtain ⟨vs, -, h⟩ := moveChunk_unwritten (t := t) hf hm hw hr
  exact ⟨_, by rw [chunkBody, if_neg (by omega), h]⟩

theorem streamFrom_unwritten {k : Fin Config.numXfer} {t : Timing} {s : State} {m : Nat} (hp : s.eff.pre = false)
    (hf : bufferFits s.dev s.xfer[k] = true) (hm : m < s.dev.dataWidth.bytes * s.xfer[k].chunk)
    (hw : written s.mem s.xfer[k].bufferAt m) (hr : s.mem.read (s.xfer[k].bufferAt + m) = none) :
    ∃ z, streamFrom .write k t s = .error ⟨.inl (.unwrittenRam (s.xfer[k].bufferAt + m)), z⟩ := by
  have hc : ¬ s.xfer[k].exhausted = true := by
    intro h
    have : s.xfer[k].chunk = 0 := by
      unfold XferRec.chunk
      rcases (exhausted_iff _).mp h with h | h <;> rw [h] <;> omega
    rw [this] at hm; omega
  obtain ⟨z, h⟩ := chunkBody_unwritten (again := fun s' => stream .write k t s.xfer[k].intended.toNat s') (t := t)
    hf hm hw hr
  exact ⟨z, by rw [streamFrom, stream, if_neg hc, hp, if_neg (by simp), h]⟩

end Sys2Proof.Machine
end

