-- ==== Sys2Proof/Laws/Step.lean ====
section
/-! SUPPORT. What a step of the chain can do, said once: what it leaves as it was, and the three ways it ends in a
next state. -/

namespace Sys2Proof.Machine

/-! ### What a step leaves alone -/

/-- What every primitive of a step leaves as it was, and how it moves the rest: the strobes rest, the records keep
their buffers, time passes, the RAMs keep their form and descriptor RAM its bytes, and BYTES counts the cycles
recorded. -/
structure Frame (s u : State) : Prop where
  irqEn : u.irqEn = s.irqEn := by rfl
  runCfg : u.runCfg = s.runCfg := by rfl
  effLen : u.effLen = s.effLen := by rfl
  shadow : u.timeHiShadow = s.timeHiShadow := by rfl
  dev : u.dev = s.dev := by rfl
  onfi : u.onfi = s.onfi := by rfl
  dec : u.dec = s.dec := by rfl
  vid : u.vid = s.vid := by rfl
  eff : u.eff = s.eff := by rfl
  resetIn : u.resetIn = s.resetIn := by rfl
  port : u.port = s.port := by rfl
  rdata : u.rdata = s.rdata := by rfl
  cs : u.pins.cs = s.pins.cs := by rfl
  wp : u.pins.wp = s.pins.wp := by rfl
  rest : strobesAtRest s → strobesAtRest u := by exact id
  xfer : ∀ k : Fin Config.numXfer, u.xfer[k].hint = s.xfer[k].hint ∧ u.xfer[k].bufBase = s.xfer[k].bufBase ∧
    u.xfer[k].bufCap = s.xfer[k].bufCap := by exact fun _ => ⟨rfl, rfl, rfl⟩
  clk : s.clk.Later u.clk
  wf : s.mem.wf = true → u.mem.wf = true := by exact id
  desc : ∀ a, a < Config.bufBase → u.mem.read a = s.mem.read a := by exact fun _ _ => rfl
  count : ∃ new, u.trace = new ++ s.trace ∧ u.bytes = s.bytes + BitVec.ofNat 32 (new.countP Event.isCycle)

theorem Frame.refl (s : State) : Frame s s :=
  { clk := Clk.Later.refl _, count := ⟨[], rfl, by simp⟩ }

theorem Frame.trans {a b c : State} (h : Frame a b) (g : Frame b c) : Frame a c where
  irqEn := g.irqEn.trans h.irqEn
  runCfg := g.runCfg.trans h.runCfg
  effLen := g.effLen.trans h.effLen
  shadow := g.shadow.trans h.shadow
  dev := g.dev.trans h.dev
  onfi := g.onfi.trans h.onfi
  dec := g.dec.trans h.dec
  vid := g.vid.trans h.vid
  eff := g.eff.trans h.eff
  resetIn := g.resetIn.trans h.resetIn
  port := g.port.trans h.port
  rdata := g.rdata.trans h.rdata
  cs := g.cs.trans h.cs
  wp := g.wp.trans h.wp
  rest := g.rest ∘ h.rest
  xfer k := ⟨(g.xfer k).1.trans (h.xfer k).1, (g.xfer k).2.1.trans (h.xfer k).2.1, (g.xfer k).2.2.trans (h.xfer k).2.2⟩
  clk := h.clk.trans g.clk
  wf := g.wf ∘ h.wf
  desc a ha := (g.desc a ha).trans (h.desc a ha)
  count := by
    obtain ⟨n1, t1, b1⟩ := h.count
    obtain ⟨n2, t2, b2⟩ := g.count
    refine ⟨n2 ++ n1, by rw [t2, t1, List.append_assoc], ?_⟩
    rw [b2, b1, List.countP_append, Nat.add_comm, BitVec.ofNat_add, BitVec.add_assoc]

/-- `Frame`, and the sequencer where it was: inside a step. -/
structure During (s u : State) : Prop extends Frame s u where
  status : u.status = s.status := by rfl
  fsm : u.fsm = s.fsm := by rfl
  phase : u.phase = s.phase := by rfl
  cur : u.cur = s.cur := by rfl
  hookXfer : u.hookXfer = s.hookXfer := by rfl

theorem During.refl (s : State) : During s s := { Frame.refl s with }

theorem During.trans {a b c : State} (h : During a b) (g : During b c) : During a c :=
  { h.toFrame.trans g.toFrame with
    status := g.status.trans h.status, fsm := g.fsm.trans h.fsm, phase := g.phase.trans h.phase
    cur := g.cur.trans h.cur, hookXfer := g.hookXfer.trans h.hookXfer }

/-! ### The primitives -/

theorem countP_delayEvents (t : Word) : (delayEvents t).countP Event.isCycle = 0 := by
  unfold delayEvents; split <;> rfl

theorem countP_okWaits (plan : List (Nat × Word)) : (okWaits plan).countP Event.isCycle = 0 := by
  simp [okWaits, List.countP_eq_zero, Event.isCycle]

/-- Events that count no cycle, time passing, and nothing else. -/
theorem During.events {s u : State} {es : List Event} {c : Clk} (e : u = { s with trace := es ++ s.trace, clk := c })
    (q : s.clk.Later c) (h : es.countP Event.isCycle = 0) : During s u := by
  subst e
  exact { clk := q, count := ⟨es, rfl, by simp [h]⟩ }

theorem delay_during (t : Word) (s : State) : During s (delay t s) := by
  refine During.events (delay_eq t s) (Clk.hold_quiet _ _).toLater ?_
  rw [List.countP_reverse, countP_delayEvents]

theorem setLatch_during (m : Latch) (s : State) : During s (setLatch m s) :=
  { clk := (Clk.pass_quiet _).toLater, count := ⟨[.latch m], rfl, by simp [Event.isCycle, setLatch]⟩ }

theorem setDir_during (d : Dir) (s : State) : During s (setDir d s) :=
  { clk := (Clk.pass_quiet _).toLater, count := ⟨[.dir d], rfl, by simp [Event.isCycle, setDir]⟩ }

theorem waitEach_events (t : Word) : ∀ (ls : List Nat) (s : State), During s (waitEach t ls s).2 := by
  intro ls
  induction ls with
  | nil => exact During.refl
  | cons l ls ih =>
    intro s
    have h : During s (waitOne l t s).2 :=
      { clk := (Clk.waitOne_quiet l t s.clk).toLater
        count := ⟨[.wait l t (s.clk.waitOne l t).1], rfl, by simp [Event.isCycle, waitOne]⟩ }
    rw [waitEach]
    split
    · exact h.trans (ih _)
    · exact h

theorem waitReady_during (lun : Nat) (t1 t2 : Word) (s : State) : During s (waitReady lun t1 t2 s).2 := by
  have h : During s (waitTarget lun t1 s).2 := by
    unfold waitTarget
    split
    · exact During.refl s
    · have := waitEach_events t1 [lun] s
      rw [waitEach] at this
      split at this
      · exact this
      · exact this
  unfold waitReady
  split
  · refine h.trans ?_
    unfold waitOthers
    split
    · exact During.refl _
    · exact waitEach_events _ _ _
  · exact h

theorem stepWait_during (t : Timing) (s : State) : During s (stepWait t s).2 := waitReady_during _ _ _ s

theorem countP_wcyc (w : Width) (vs : List Half) :
    (vs.map (fun v => Event.wcyc w (w.clip v))).reverse.countP Event.isCycle = vs.length := by
  rw [List.countP_reverse, List.countP_map]
  simp [Function.comp_def, Event.isCycle]

theorem countP_rcyc (w : Width) (vs : List Half) :
    (vs.map (fun v => Event.rcyc w v)).reverse.countP Event.isCycle = vs.length := by
  rw [List.countP_reverse, List.countP_map]
  simp [Function.comp_def, Event.isCycle]

theorem sendCycles_during (w : Width) (t : Timing) (vs : List Half) (s : State) : During s (sendCycles w t vs s) := by
  obtain ⟨c, e, q⟩ := sendCycles_spec w t vs s
  rw [e]
  exact { clk := q.toLater
          rest := fun h => ⟨by simp only [Pins.afterWrites]; split; exact h.1; rfl, h.2⟩
          count := ⟨_, rfl, by rw [countP_wcyc]⟩ }

theorem receiveCycles_during (w : Width) (t : Timing) (n : Nat) (s : State) :
    During s (receiveCycles w t n s).2 := by
  obtain ⟨c, e, q, hl, -⟩ := receiveCycles_spec w t n s
  rw [e]
  exact { clk := q
          rest := fun h => ⟨h.1, by dsimp only; split; exact h.2; rfl⟩
          count := ⟨_, rfl, by rw [countP_rcyc, hl]⟩ }

/-- A change of a record's size or cursors (R233, R235, R237). -/
theorem setXfer_during (k : Fin Config.numXfer) (f : XferRec → XferRec) (s : State)
    (hf : ∀ x, (f x).hint = x.hint ∧ (f x).bufBase = x.bufBase ∧ (f x).bufCap = x.bufCap) :
    During s (s.setXfer k f) :=
  { clk := Clk.Later.refl _
    count := ⟨[], rfl, by simp [State.setXfer]⟩
    xfer := fun j => by
      by_cases h : k.val = j.val
      · have : k = j := Fin.ext h
        subst this
        simpa [State.setXfer] using hf s.xfer[k]
      · simp [State.setXfer, h] }

theorem storeElems_during (base : BitVec 16) (w : Width) (vs : List Half) (s : State) :
    During s { s with mem := storeElems s.mem base w vs } :=
  { clk := Clk.Later.refl _
    count := ⟨[], rfl, by simp⟩
    wf := storeElems_wf base w vs
    desc := fun a ha => storeElems_outside _ _ _ _ a (.inl (by omega)) }

/-! ### A chunk and the loop -/

theorem readChunk_during (k : Fin Config.numXfer) (t : Timing) (s : State) : During s (readChunk k t s) := by
  have h := ((setDir_during .read s).trans (receiveCycles_during s.dev.dataWidth t s.xfer[k].chunk _)).trans
    (storeElems_during s.xfer[k].bufBase s.dev.dataWidth
      (receiveCycles s.dev.dataWidth t s.xfer[k].chunk (setDir .read s)).1 _)
  simp only [readChunk, advanceOffset]
  refine During.trans (During.trans h (setXfer_during k _ _ ?_)) (setXfer_during k _ _ ?_)
  · intro x; exact ⟨rfl, rfl, rfl⟩
  · intro x; exact ⟨rfl, rfl, rfl⟩

theorem writeChunk_halt {k : Fin Config.numXfer} {t : Timing} {s : State} {h : Halt}
    (he : writeChunk k t s = .error h) : During s h.reached := by
  unfold writeChunk at he
  split at he
  · cases he
  · cases he
    exact (setDir_during _ _).trans (sendCycles_during _ _ _ _)

/-- Where a chunk stops, the step has done no more than a step may (R237). -/
theorem moveChunk_halt {d : Dir} {k : Fin Config.numXfer} {t : Timing} {s : State} {h : Halt}
    (he : moveChunk d k t s = .error h) : During s h.reached := by
  unfold moveChunk at he
  split at he
  · cases d
    · exact writeChunk_halt he
    · cases he
  · cases he
    exact During.refl s

theorem moveChunk_during {d : Dir} {k : Fin Config.numXfer} {t : Timing} {s u : State}
    (h : moveChunk d k t s = .ok u) : During s u := by
  unfold moveChunk at h
  split at h
  · cases d
    · simp only [writeChunk] at h
      cases hr : readElems s.mem s.xfer[k].bufBase s.dev.dataWidth s.xfer[k].chunk with
      | error f => rw [hr] at h; cases h
      | ok vs =>
        rw [hr] at h
        cases h
        refine ((setDir_during _ _).trans (sendCycles_during _ _ _ _)).trans (setXfer_during _ _ _ ?_)
        exact fun x => ⟨rfl, rfl, rfl⟩
    · cases h
      exact readChunk_during k t s
  · cases h

theorem bumpSeq_during (k : Fin Config.numXfer) (s : State) : During s (bumpSeq k s) :=
  setXfer_during _ _ _ (fun _ => ⟨rfl, rfl, rfl⟩)

/-- The loop ends the step, or stops in a raw hook that is enabled (R237). -/
def RawEnds (s u : State) : Prop :=
  ∃ m, During s m ∧ (u = nextStep m ∨
    ∃ kind chunk, s.eff.hookEnabled kind = true ∧ u = enterHook kind true chunk m)

theorem RawEnds.after {s m u : State} (h : During s m) (g : RawEnds m u) : RawEnds s u := by
  obtain ⟨z, hz, hu⟩ := g
  refine ⟨z, h.trans hz, ?_⟩
  rw [h.eff] at hu
  exact hu

theorem chunkBody_ends {again : State → Except Halt State} {d : Dir} {k : Fin Config.numXfer} {t : Timing}
    {s u : State} (hag : ∀ m u, again m = .ok u → RawEnds m u) (h : chunkBody again d k t s = .ok u) :
    RawEnds s u := by
  unfold chunkBody at h
  split at h
  · cases h; exact ⟨_, delay_during _ _, .inl rfl⟩
  · cases hm : moveChunk d k t s with
    | error f => rw [hm] at h; cases h
    | ok moved =>
      rw [hm] at h
      have hd := moveChunk_during hm
      simp only at h
      split at h
      · next hpost =>
        cases h
        exact ⟨_, hd, .inr ⟨.post, _, by rw [← hd.eff]; exact hpost, rfl⟩⟩
      · exact (hag _ _ h).after (hd.trans (bumpSeq_during _ _))

theorem stream_ends {d : Dir} {k : Fin Config.numXfer} {t : Timing} : ∀ (fuel : Nat) (s u : State),
    stream d k t fuel s = .ok u → RawEnds s u := by
  intro fuel
  induction fuel with
  | zero => intro s u h; cases h; exact ⟨_, delay_during _ _, .inl rfl⟩
  | succ n ih =>
    intro s u h
    rw [stream] at h
    split at h
    · cases h; exact ⟨_, delay_during _ _, .inl rfl⟩
    · split at h
      · next hpre => cases h; exact ⟨_, During.refl _, .inr ⟨.pre, _, hpre, rfl⟩⟩
      · exact chunkBody_ends ih h

/-! ### A loop that stops -/

theorem chunkBody_halt {again : State → Except Halt State} {d : Dir} {k : Fin Config.numXfer} {t : Timing}
    {s : State} {h : Halt} (hag : ∀ m, again m = .error h → During m h.reached)
    (he : chunkBody again d k t s = .error h) : During s h.reached := by
  unfold chunkBody at he
  split at he
  · cases he
  · cases hm : moveChunk d k t s with
    | error h' => rw [hm] at he; cases he; exact moveChunk_halt hm
    | ok moved =>
      rw [hm] at he
      simp only at he
      split at he
      · cases he
      · exact ((moveChunk_during hm).trans (bumpSeq_during _ _)).trans (hag _ he)

theorem stream_halt {d : Dir} {k : Fin Config.numXfer} {t : Timing} {h : Halt} : ∀ (fuel : Nat) (s : State),
    stream d k t fuel s = .error h → During s h.reached := by
  intro fuel
  induction fuel with
  | zero => intro s he; cases he
  | succ n ih =>
    intro s he
    rw [stream] at he
    split at he
    · cases he
    · split at he
      · cases he
      · exact chunkBody_halt ih he

/-! ### A whole step -/

/-- How a step of the chain ends in a next state: at the next index, in an enabled hook, or with the run over after
a timeout (R178, R182, R209). `m` is the state as the step leaves it for that end. -/
def StepEnds (raw : Bool) (s m u : State) : Prop :=
  u = nextStep m ∨ (∃ kind chunk, s.eff.hookEnabled kind = true ∧ u = enterHook kind raw chunk m) ∨
    u = finish .timeout m.bytes m

theorem timeoutPath_ends (t : Timing) (s : State) : ∃ m, During s m ∧ timeoutPath t s = finish .timeout m.bytes m :=
  ⟨_, ((setLatch_during .neutral s).trans (delay_during t.ldPre _)).trans (delay_during t.ldPost _), rfl⟩

theorem controlStep_ends (l : Latch) (vs : List Half) (t : Timing) (s : State) :
    ∃ m, During s m ∧ StepEnds false s m (controlStep l vs t s) := by
  have tail : ∀ z, During s z → ∃ m, During s m ∧ StepEnds false s m (controlTail t z) := fun z hz =>
    ⟨_, (((hz.trans (delay_during _ _)).trans (setLatch_during _ _)).trans (delay_during _ _)).trans
      (delay_during _ _), .inl rfl⟩
  have cycles : ∀ z, During s z → ∃ m, During s m ∧ StepEnds false s m (controlCycles vs t z) := by
    intro z hz
    have hs : During s (sendCycles z.dev.controlWidth t vs (setDir .write z)) :=
      (hz.trans (setDir_during _ _)).trans (sendCycles_during _ _ _ _)
    unfold controlCycles
    split
    · next hpost => exact ⟨_, hs, .inr (.inl ⟨.post, 0, by rw [← hz.eff]; exact hpost, rfl⟩)⟩
    · exact tail _ hs
  unfold controlStep
  split
  · have hl : During s (controlLatched l t s) :=
      (((delay_during _ _).trans (delay_during _ _)).trans (setLatch_during _ _)).trans (delay_during _ _)
    have hw := hl.trans (stepWait_during t (controlLatched l t s))
    split
    · have hr := hw.trans (delay_during t.rdyPost _)
      unfold controlReady
      split
      · next hpre => exact ⟨_, hr, .inr (.inl ⟨.pre, 0, by rw [← hw.eff]; exact hpre, rfl⟩)⟩
      · exact cycles _ hr
    · obtain ⟨m, hm, e⟩ := timeoutPath_ends t (stepWait t (controlLatched l t s)).2
      exact ⟨m, hw.trans hm, .inr (.inr e)⟩
  · exact cycles _ (During.refl _)
  · exact tail _ (During.refl _)

theorem outcomeOf_next {r : Except Halt State} {u : State} (h : outcomeOf r = .next u) : r = .ok u := by
  unfold outcomeOf at h
  split at h <;> cases h
  rfl

theorem RawEnds.step {s s' u : State} (he : s'.eff = s.eff) (h : RawEnds s' u) :
    ∃ m, During s' m ∧ StepEnds true s m u := by
  obtain ⟨m, hm, hu⟩ := h
  rw [he] at hu
  refine ⟨m, hm, ?_⟩
  rcases hu with hu | hu
  · exact .inl hu
  · obtain ⟨kind, chunk, h1, h2⟩ := hu
    exact .inr (.inl ⟨kind, chunk, h1, h2⟩)

theorem rawCursors_during (k : Fin Config.numXfer) (s : State) : During s (rawCursors k s) := by
  unfold rawCursors
  exact setXfer_during _ _ _ (by intro x; exact ⟨rfl, rfl, rfl⟩)

/-- A raw step from its beginning names its record in HOOK_XFER (R183, R230). -/
theorem rawStep_ends_begin {d : Dir} {k : Fin Config.numXfer} {t : Timing} {s u : State} (hp : s.phase = .begin)
    (h : rawStep d k t s = .next u) :
    ∃ m, During { s with hookXfer := BitVec.ofNat 3 k.val } m ∧ StepEnds true s m u := by
  rw [rawStep_begin hp] at h
  have hs : During { s with hookXfer := BitVec.ofNat 3 k.val } (rawSized k (rawEntered k t s)) := by
    have e : rawEntered k t s = delay t.pre { s with hookXfer := BitVec.ofNat 3 k.val } := rfl
    have h1 : During { s with hookXfer := BitVec.ofNat 3 k.val } (rawEntered k t s) := by
      rw [e]; exact delay_during _ _
    refine h1.trans ?_
    unfold rawSized
    exact setXfer_during _ _ _ (by intro x; exact ⟨rfl, rfl, rfl⟩)
  have hl : During { s with hookXfer := BitVec.ofNat 3 k.val } (rawAtWait k t s) :=
    (((hs.trans (rawCursors_during k _)).trans (delay_during _ _)).trans (setLatch_during _ _)).trans
      (delay_during _ _)
  have hw := hl.trans (stepWait_during t _)
  have hd := hw.trans (delay_during t.rdyPost _)
  split at h
  · cases h
  · split at h
    · cases h; exact ⟨_, hs.trans (delay_during t.post _), .inl rfl⟩
    · split at h
      · obtain ⟨m, hm, hu⟩ := RawEnds.step hd.eff (stream_ends _ _ _ (outcomeOf_next h))
        exact ⟨m, hd.trans hm, hu⟩
      · cases h
        obtain ⟨m, hm, e⟩ := timeoutPath_ends t (stepWait t (rawAtWait k t s)).2
        exact ⟨m, hw.trans hm, .inr (.inr e)⟩

/-- A raw step from one of its hooks on (R339). -/
theorem rawStep_ends_resumed {d : Dir} {k : Fin Config.numXfer} {t : Timing} {s u : State} (hp : s.phase ≠ .begin)
    (h : rawStep d k t s = .next u) : ∃ m, During s m ∧ StepEnds true s m u := by
  have hph : s.phase = .afterPre ∨ s.phase = .afterPost := by
    revert hp; cases s.phase <;> simp
  rcases hph with hp | hp
  · rw [rawStep_afterPre hp] at h
    exact RawEnds.step rfl (chunkBody_ends (fun m u hm => stream_ends _ m u hm) (outcomeOf_next h))
  · rw [rawStep_afterPost hp] at h
    have hb := bumpSeq_during k s
    obtain ⟨m, hm, hu⟩ := RawEnds.step hb.eff (stream_ends _ _ _ (outcomeOf_next h))
    exact ⟨m, hb.trans hm, hu⟩

theorem nextStep_frame (s : State) : Frame s (nextStep s) :=
  { clk := Clk.Later.refl _, count := ⟨[], rfl, by simp [nextStep, beginStep]⟩ }

theorem enterHook_frame (kind : HookKind) (raw : Bool) (chunk : Word) (s : State) :
    Frame s (enterHook kind raw chunk s) :=
  { clk := (Clk.pass_quiet _).toLater
    count := ⟨[.hook kind s.status.step raw chunk], rfl, by simp [enterHook, Event.isCycle]⟩ }

theorem finish_frame (r : Resp) (s : State) : Frame s (finish r s.bytes s) :=
  { clk := (Clk.pass_quiet _).toLater, count := ⟨[.finish r s.bytes], rfl, by simp [finish, Event.isCycle]⟩ }

/-- A loop that ends has done no more than a step may (R237). -/
theorem RawEnds.frame {s u : State} (h : RawEnds s u) : Frame s u := by
  obtain ⟨m, hm, rfl | ⟨_, _, _, rfl⟩⟩ := h
  · exact hm.toFrame.trans (nextStep_frame _)
  · exact hm.toFrame.trans (enterHook_frame _ _ _ _)

/-- What a raw step whose wait answers OK brings about after it, up to its end, its next hook or its stop (R230). -/
theorem rawRun_ready {d : Dir} {k : Fin Config.numXfer} {t : Timing} {s : State} (hp : s.phase = .begin)
    (hpg : pageOn16Bit s.dev s.xfer[k] = false) (hz : resolveSize s.dev s.xfer[k] ≠ 0) (hr : rawReadyWait k t s) :
    (∀ u, rawRun d k t s = .ok u → Frame (delay t.rdyPost (stepWait t (rawAtWait k t s)).2) u) ∧
    (∀ h, rawRun d k t s = .error h → Frame (delay t.rdyPost (stepWait t (rawAtWait k t s)).2) h.reached) := by
  rw [rawRun_begin hp, hpg, if_neg (by simp), if_neg hz, if_pos (show (stepWait t (rawAtWait k t s)).1 = true from hr)]
  exact ⟨fun u h => (stream_ends _ _ _ h).frame, fun h he => (stream_halt _ _ he).toFrame⟩

theorem StepEnds.frame {raw : Bool} {s m u : State} (h : StepEnds raw s m u) : Frame m u := by
  rcases h with rfl | ⟨_, _, _, rfl⟩ | rfl
  · exact nextStep_frame _
  · exact enterHook_frame _ _ _ _
  · exact finish_frame _ _

end Sys2Proof.Machine
end

