-- ==== Sys2Proof/Laws/Exec.lean ====
section
/-! SUPPORT. What exec can do, said once: the kinds of instruction, and for each kind what a next state holds. -/

namespace Sys2Proof.Machine

/-! ### Steps of the chain -/

/-- What a step entry's words decode to (R122). -/
theorem decodeStep_kinds (w0 w1 w2 : Word) (t : Timing) :
    decodeStep w0 w1 w2 t = .hole ∨ decodeStep w0 w1 w2 t = .illegalKind7 ∨
    (∀ d, (controlForm d (decodeStep w0 w1 w2 t)).isSome = true) ∨
    ∃ k t', decodeStep w0 w1 w2 t = .raww k t' ∨ decodeStep w0 w1 w2 t = .rawr k t' := by
  unfold decodeStep
  split
  · exact .inl rfl
  · split
    · exact .inr (.inr (.inl fun d => rfl))
    · exact .inr (.inr (.inl fun d => rfl))
    · exact .inr (.inr (.inl fun d => rfl))
    · exact .inr (.inr (.inl fun d => rfl))
    · exact .inr (.inr (.inl fun d => rfl))
    · exact .inr (.inr (.inr ⟨_, _, .inl rfl⟩))
    · exact .inr (.inr (.inr ⟨_, _, .inr rfl⟩))
    · exact .inr (.inl rfl)

theorem controlForm_notRaw {d : Device} {i : Instr} (h : (controlForm d i).isSome = true) : recordNamed i = none := by
  cases i <;> simp [controlForm] at h <;> rfl

theorem rawForm_named {i : Instr} {d : Dir} {k : Fin Config.numXfer} {t : Timing} (h : rawForm i = some (d, k, t)) :
    recordNamed i = some (BitVec.ofNat 3 k.val) := by
  cases i <;> simp [rawForm, recordIndex] at h
  all_goals
    obtain ⟨_, ⟨_, rfl⟩, _⟩ := h
    simp [recordNamed]

/-- A step of the chain: as inside a step, but that a raw step names its record in HOOK_XFER at its beginning, and
then one of the three ends. -/
theorem exec_step_ends {i : Instr} {s u : State}
    (hi : (controlForm s.dev i).isSome = true ∨ (rawForm i).isSome = true ∨ i = .hole) (h : exec i s = .next u) :
    ∃ hx m, During { s with hookXfer := hx } m ∧ StepEnds (recordNamed i).isSome s m u ∧
      (∀ k, recordNamed i = some k → s.phase = .begin → hx = k) ∧
      ((recordNamed i = none ∨ s.phase ≠ .begin) → hx = s.hookXfer) := by
  rcases hi with hi | hi | rfl
  · obtain ⟨⟨m, vs, t⟩, hf⟩ := Option.isSome_iff_exists.mp hi
    rw [exec_control hf] at h
    cases h
    obtain ⟨m', hm, hu⟩ := controlStep_ends m vs t s
    have hr := controlForm_notRaw hi
    refine ⟨s.hookXfer, m', hm, by rw [hr]; exact hu, ?_, fun _ => rfl⟩
    intro k hk; rw [hr] at hk; cases hk
  · obtain ⟨⟨d, k, t⟩, hf⟩ := Option.isSome_iff_exists.mp hi
    rw [exec_raw hf] at h
    have hr := rawForm_named hf
    by_cases hp : s.phase = .begin
    · obtain ⟨m, hm, hu⟩ := rawStep_ends_begin hp h
      refine ⟨_, m, hm, by rw [hr]; exact hu, fun k' hk _ => ?_, fun h => ?_⟩
      · rw [hr] at hk; cases hk; rfl
      · rcases h with h | h
        · rw [hr] at h; cases h
        · exact absurd hp h
    · obtain ⟨m, hm, hu⟩ := rawStep_ends_resumed hp h
      exact ⟨s.hookXfer, m, hm, by rw [hr]; exact hu, fun _ _ h => absurd h hp, fun _ => rfl⟩
  · cases h
    refine ⟨s.hookXfer, s, During.refl s, .inl rfl, ?_, fun _ => rfl⟩
    intro k hk; cases hk

/-- HOOK_XFER is no part of a frame. -/
theorem hookXfer_frame {s : State} {hx : BitVec 3} : Frame s { s with hookXfer := hx } :=
  { clk := Clk.Later.refl _, count := ⟨[], rfl, by simp⟩ }

/-- What a step of the chain leaves alone, all its ends taken together. -/
theorem exec_step_frame {i : Instr} {s u : State}
    (hi : (controlForm s.dev i).isSome = true ∨ (rawForm i).isSome = true ∨ i = .hole) (h : exec i s = .next u) :
    Frame s u := by
  obtain ⟨hx, m, hm, hu, -, -⟩ := exec_step_ends hi h
  exact (hookXfer_frame.trans hm.toFrame).trans hu.frame

/-- The kinds of instruction. -/
theorem exec_kinds (i : Instr) (d : Device) :
    (controlForm d i).isSome = true ∨ (rawForm i).isSome = true ∨ i = .hole ∨
    (i = .illegalKind7 ∨ ∃ k t, (i = .raww k t ∨ i = .rawr k t) ∧ recordIndex k = none) ∨
    (∃ op, decoderOp i = some op) ∨ i = .start ∨ i = .hookAck ∨ i = .doneClr := by
  cases i with
  | raww k t => 
    cases h : recordIndex k with
    | none => exact .inr (.inr (.inr (.inl (.inr ⟨k, t, .inl rfl, h⟩))))
    | some j => right; left; simp [rawForm, h]
  | rawr k t => 
    cases h : recordIndex k with
    | none => exact .inr (.inr (.inr (.inl (.inr ⟨k, t, .inr rfl, h⟩))))
    | some j => right; left; simp [rawForm, h]
  | _ => simp [controlForm, rawForm, decoderOp]

/-- A step that no chain may hold ends the run (R118). -/
theorem exec_illegal {i : Instr} {s : State}
    (h : i = .illegalKind7 ∨ ∃ k t, (i = .raww k t ∨ i = .rawr k t) ∧ recordIndex k = none) :
    exec i s = .next (rejectRun .cmdInvalid s) := by
  rcases h with rfl | ⟨k, t, rfl | rfl, hk⟩
  · rfl
  · show execRaww k t s = _; rw [execRaww, hk]
  · show execRawr k t s = _; rw [execRawr, hk]

/-! ### The decoder unit -/

/-- What every decoder operation leaves as it was, and more of it while a run exists (R260, R267). -/
structure DecFrame (s u : State) : Prop where
  status : u.status = s.status := by rfl
  fsm : u.fsm = s.fsm := by rfl
  phase : u.phase = s.phase := by rfl
  irqEn : u.irqEn = s.irqEn := by rfl
  runCfg : u.runCfg = s.runCfg := by rfl
  bytes : u.bytes = s.bytes := by rfl
  effLen : u.effLen = s.effLen := by rfl
  cur : u.cur = s.cur := by rfl
  pins : u.pins = s.pins := by rfl
  eff : u.eff = s.eff := by rfl
  xfer : u.xfer = s.xfer := by rfl
  hookXfer : u.hookXfer = s.hookXfer := by rfl
  resetIn : u.resetIn = s.resetIn := by rfl
  port : u.port = s.port := by rfl
  trace : u.trace = s.trace := by rfl
  timeHiShadow : u.timeHiShadow = s.timeHiShadow := by rfl
  clk : s.clk.Quiet u.clk := by exact Clk.pass_quiet _
  state : u.dev.state = s.dev.state := by rfl
  wf : s.mem.wf = true → u.mem.wf = true := by exact id
  desc : ∀ a, a < Config.bufBase → u.mem.read a = s.mem.read a := by exact fun _ _ => rfl
  busy : s.busy = true → u.dev = s.dev ∧ u.onfi = s.onfi ∧ u.vid = s.vid ∧ u.mem = s.mem := by
    exact fun _ => ⟨rfl, rfl, rfl, rfl⟩

theorem refuseOp_frame (op : BitVec 3) (s : State) : DecFrame s (refuseOp op s) := {}

theorem completeOp_frame (op : BitVec 3) (r : Word) (s : State) : DecFrame s (completeOp op r s) := {}

/-- An operation that is performed finds the machine idle (R260). -/
theorem not_busy_of_performed {s : State} (h : s.decRefused = false) (hb : s.busy = true) : False := by
  simp [State.decRefused, hb] at h

theorem ddrchk_frame {s u : State} (h : execDdrchk s = .next u) : DecFrame s u := by
  unfold execDdrchk at h
  split at h
  · cases h; exact refuseOp_frame _ _
  · obtain ⟨bs, hb, rfl⟩ := withBytes_next h
    exact completeOp_frame _ _ _

theorem ddrfold_frame {f : Byte} {s u : State} (h : execDdrfold f s = .next u) : DecFrame s u := by
  unfold execDdrfold at h
  split at h
  · cases h; exact refuseOp_frame _ _
  · next hr =>
    obtain ⟨bs, hb, rfl⟩ := withBytes_next h
    exact { wf := Memory.store_wf _ _ _
            desc := fun a ha => Memory.read_store_outside _ _ _ _ (.inl (by unfold State.operandAt; omega))
            busy := fun hb => (not_busy_of_performed (by simpa using hr) hb).elim }

theorem patlen_frame {m : Byte} {s u : State} (h : execPatlen m s = .next u) : DecFrame s u := by
  unfold execPatlen at h
  split at h
  · cases h; exact refuseOp_frame _ _
  · obtain ⟨bs, hb, rfl⟩ := withBytes_next h
    exact completeOp_frame _ _ _

theorem idext_frame {d : Bool} {s u : State} (h : execIdext d s = .next u) : DecFrame s u := by
  unfold execIdext at h
  split at h
  · cases h; exact refuseOp_frame _ _
  · next hr =>
    obtain ⟨bs, hb, rfl⟩ := withBytes_next h
    generalize idLength bs = len, idBytes bs = out
    exact { wf := Memory.store_wf _ _ _
            desc := fun a ha => Memory.read_store_outside _ _ _ _ (.inl (by unfold State.operandAt; omega))
            busy := fun hb => (not_busy_of_performed (by simp at hr; exact hr.1) hb).elim
            state := by simp only [completeOp, storeId]; split <;> rfl }

theorem onfidec_frame {s u : State} (h : execOnfidec s = .next u) : DecFrame s u := by
  unfold execOnfidec at h
  split at h
  · cases h; exact refuseOp_frame _ _
  · next hr =>
    obtain ⟨bs, hb, rfl⟩ := withBytes_next h
    exact { busy := fun hb => (not_busy_of_performed (by simp at hr; exact hr.1.1) hb).elim }

theorem viddec_frame {s u : State} (h : execViddec s = .next u) : DecFrame s u := by
  unfold execViddec at h
  split at h
  · cases h; exact refuseOp_frame _ _
  · next hr =>
    obtain ⟨bs, hb, rfl⟩ := withBytes_next h
    exact { busy := fun hb => (not_busy_of_performed (by simp at hr; exact hr.1) hb).elim }

theorem exec_dec {i : Instr} {op} {s u : State} (hi : decoderOp i = some op) (h : exec i s = .next u) : DecFrame s u := by
  cases i <;> simp only [decoderOp, Option.some.injEq, reduceCtorEq] at hi <;> subst hi
  · cases h; exact refuseOp_frame _ _
  · exact ddrchk_frame h
  · exact ddrfold_frame h
  · exact patlen_frame h
  · exact idext_frame h
  · exact onfidec_frame h
  · exact viddec_frame h
  · cases h; exact refuseOp_frame _ _

/-! ### The CTRL commands -/

theorem start_busy {s : State} (h : s.busy = true) : exec .start s = .next s := by
  show execStart s = _; rw [execStart, h]; rfl

/-- What START can do while no run exists (R170, R171). -/
theorem start_next {s u : State} (hb : s.busy = false) (h : exec .start s = .next u) :
    ∃ r s', validateAndMerge (beginRun s) = .ok (r, s') ∧
      ((∃ x, r = some x ∧ u = rejectRun x s') ∨ (r = none ∧ u = enterLoop s')) := by
  change execStart s = _ at h
  rw [execStart, hb] at h
  simp only [Bool.false_eq_true, if_false] at h
  cases hv : validateAndMerge (beginRun s) with
  | error f => rw [hv] at h; cases h
  | ok p =>
    obtain ⟨r, s'⟩ := p
    rw [hv] at h
    refine ⟨r, s', rfl, ?_⟩
    cases r with
    | none => cases h; exact .inr ⟨rfl, rfl⟩
    | some x => cases h; exact .inl ⟨x, rfl, rfl⟩

/-- What HOOK_ACK can do (R185). -/
theorem hookAck_next {s u : State} (h : exec .hookAck s = .next u) :
    (s.fsm = .hookWait ∧ u = { s with fsm := .running }) ∨ (s.fsm ≠ .hookWait ∧ u = s) := by
  change execHookAck s = _ at h
  unfold execHookAck State.hookPending at h
  split at h
  · next hh => cases h; exact .inl ⟨by simpa using hh, rfl⟩
  · next hh => cases h; exact .inr ⟨by simpa using hh, rfl⟩

/-- What DONE_CLR can do (R26). -/
theorem doneClr_next {s u : State} (h : exec .doneClr s = .next u) :
    u = s ∨ (s.busy = false ∧ u = { s with status := { s.status with done := false } }) := by
  change execDoneClr s = _ at h
  unfold execDoneClr at h
  split at h
  · cases h; exact .inl rfl
  · next hh => cases h; exact .inr ⟨by simpa using hh, rfl⟩

end Sys2Proof.Machine
end

