-- ==== Sys2Proof/Laws/Registers.lean ====
section
/-! SUPPORT. The lines of a PIN_CTRL write, words stored in RAM, and where the window's offsets lie. -/

namespace Sys2Proof.Machine

/-! ### Lines -/

/-- A line set is at its level, and the others are as before. -/
theorem setLine_getLsbD (v : Half) (l : Nat) (e : Bool) (x : Nat) :
    (setLine v l e).getLsbD x = if x = l ∧ x < 16 then e else v.getLsbD x := by
  unfold setLine
  by_cases hx : x < 16
  · by_cases hxl : x = l
    · subst hxl
      cases e <;> simp [hx]
    · cases e <;> simp [hx, hxl]
      · intro h
        by_cases hl : x < l
        · exact .inl hl
        · exact .inr (by omega)
      · intro h1 h2; omega
  · have h0 : v.getLsbD x = false := BitVec.getLsbD_of_ge _ _ (by omega)
    have h1 : (v ||| 1#16 <<< l).getLsbD x = false := BitVec.getLsbD_of_ge _ _ (by omega)
    have h2 : (v &&& ~~~(1#16 <<< l)).getLsbD x = false := BitVec.getLsbD_of_ge _ _ (by omega)
    cases e <;> simp only [h0, h1, h2, hx, and_false, if_false, Bool.false_eq_true, if_true]

/-- Setting a line of a LUN that exists drives no line of one that does not (R35). -/
theorem setLine_exists {v : Half} {l : Nat} (e : Bool) (h : v &&& ~~~lunMask = 0) (hl : l < Config.numLunMax) :
    setLine v l e &&& ~~~lunMask = 0 := by
  apply BitVec.eq_of_getLsbD_eq
  intro i hi
  have hi' := congrArg (fun w => w.getLsbD i) h
  simp only [BitVec.getLsbD_and] at hi' ⊢
  rw [setLine_getLsbD]
  split
  · next hc =>
    have hm : (~~~lunMask).getLsbD i = false := by
      obtain ⟨rfl, _⟩ := hc
      simp only [Config.numLunMax] at hl
      interval_cases i <;> decide
    simp [hm]
  · exact hi'

/-- The chip selects of a PIN_CTRL write: the ones that change, each an event, and no other line (R35). -/
theorem driveEach_spec (v : Word) : ∀ (ls : List Nat) (s : State), ls.Nodup → ∃ c, s.clk.Quiet c ∧
    driveEach v ls s = { s with
      pins := { s.pins with
        cs := ls.foldl (fun w l => if w.getLsbD l = v.getLsbD l then w else setLine w l (v.getLsbD l)) s.pins.cs }
      trace := ((ls.filter (fun l => s.pins.cs.getLsbD l ≠ v.getLsbD l)).map
        (fun l => Event.cs l (v.getLsbD l))).reverse ++ s.trace
      clk := c } := by
  intro ls
  induction ls with
  | nil => intro s _; exact ⟨s.clk, Clk.Quiet.refl _, rfl⟩
  | cons l ls ih =>
    intro s hnd
    rw [driveEach]
    have hl : l ∉ ls := (List.nodup_cons.mp hnd).1
    obtain ⟨c, q, e⟩ := ih (driveCS v l s) (List.nodup_cons.mp hnd).2
    by_cases h : s.pins.cs.getLsbD l = v.getLsbD l
    · have hd : driveCS v l s = s := by rw [driveCS, if_pos h]
      rw [hd] at e q ⊢
      refine ⟨c, q, ?_⟩
      rw [e]
      simp [h]
    · have hd : driveCS v l s = setCS l (v.getLsbD l) s := by rw [driveCS, if_neg h]
      rw [hd] at e q ⊢
      refine ⟨c, (Clk.pass_quiet _).trans q, ?_⟩
      rw [e]
      have hf : ls.filter (fun l' => (setCS l (v.getLsbD l) s).pins.cs.getLsbD l' ≠ v.getLsbD l') =
          ls.filter (fun l' => s.pins.cs.getLsbD l' ≠ v.getLsbD l') := by
        apply List.filter_congr
        intro x hx
        have hxl : x ≠ l := fun hh => hl (hh ▸ hx)
        show decide ((setLine s.pins.cs l (v.getLsbD l)).getLsbD x ≠ v.getLsbD x) = _
        rw [setLine_getLsbD, if_neg (fun hc => hxl hc.1)]
      rw [hf]
      simp [h, setCS]

/-- A PIN_CTRL write moves chip selects and write protect, records events and takes time, and drives no line of a LUN
that does not exist (R35). -/
theorem drivePins_spec (v : Word) (s : State) : ∃ p c tr,
    drivePins v s = { s with pins := p, clk := c, trace := tr } ∧ s.clk.Quiet c ∧
    p = { s.pins with cs := p.cs, wp := p.wp } ∧ (s.pins.cs &&& ~~~lunMask = 0 → p.cs &&& ~~~lunMask = 0) := by
  obtain ⟨c, q, e⟩ := driveEach_spec v (List.range Config.numLunMax) s List.nodup_range
  have hcs : ∀ (ls : List Nat) (w : Half), (∀ l ∈ ls, l < Config.numLunMax) → w &&& ~~~lunMask = 0 →
      (ls.foldl (fun w l => if w.getLsbD l = v.getLsbD l then w else setLine w l (v.getLsbD l)) w) &&& ~~~lunMask = 0 := by
    intro ls
    induction ls with
    | nil => intro w _ h; exact h
    | cons l ls ih =>
      intro w hl h
      rw [List.foldl_cons]
      apply ih
      · exact fun l' h' => hl l' (List.mem_cons_of_mem _ h')
      · split
        · exact h
        · exact setLine_exists _ h (hl l (by simp))
  rw [drivePins, e, driveWP]
  split
  · exact ⟨_, _, _, rfl, q, rfl, fun h => hcs _ _ (fun l hl => List.mem_range.mp hl) h⟩
  · exact ⟨_, _, _, rfl, q.trans (Clk.pass_quiet _), rfl, fun h => hcs _ _ (fun l hl => List.mem_range.mp hl) h⟩

/-! ### Words in RAM -/

/-- The words of a run of their bytes (R81). -/
theorem wordsOfBytes_flatMap (ws : List Word) : wordsOfBytes (ws.flatMap bytesOfWord) = ws := by
  induction ws with
  | nil => rfl
  | cons w ws ih =>
    rw [List.flatMap_cons]
    simp only [bytesOfWord, List.cons_append, List.nil_append, wordsOfBytes, wordOfBytes_byteOfWord]
    congr 1

theorem flatMap_bytesOfWord_length (ws : List Word) : (ws.flatMap bytesOfWord).length = 4 * ws.length := by
  induction ws with
  | nil => rfl
  | cons w ws ih => rw [List.flatMap_cons, List.length_append, ih, bytesOfWord_length, List.length_cons]; omega

/-- Byte `i` of word `j` of a run of words (R81). -/
theorem flatMap_bytesOfWord_get {i : Nat} (hi : i < 4) {w : Word} : ∀ (ws : List Word) (j : Nat),
    ws[j]? = some w → (ws.flatMap bytesOfWord)[4 * j + i]? = some (byteOfWord w i) := by
  intro ws
  induction ws with
  | nil => intro j h; simp at h
  | cons a ws ih =>
    intro j h
    rw [List.flatMap_cons]
    cases j with
    | zero =>
      simp at h; subst h
      rw [List.getElem?_append_left (by rw [bytesOfWord_length]; omega)]
      interval_cases i <;> rfl
    | succ j =>
      rw [List.getElem?_append_right (by rw [bytesOfWord_length]; omega), bytesOfWord_length,
        ← ih j (by simpa using h)]
      congr 1; omega

/-- A word of a run of stored words reads back. -/
theorem Memory.word_store_words (m : Memory) (a : Nat) {ws : List Word} {j : Nat} {w : Word} (h : ws[j]? = some w) :
    (m.store a (ws.flatMap bytesOfWord)).word (a + 4 * j) = .ok w := by
  have hj : j < ws.length := by
    by_contra hc
    rw [List.getElem?_eq_none (by omega)] at h; cases h
  have hl := flatMap_bytesOfWord_length ws
  apply Memory.word_of_bytes
  intro i hi
  rw [show a + 4 * j + i = a + (4 * j + i) by omega, Memory.read_store_inside _ _ _ _ (by omega),
    ← flatMap_bytesOfWord_get hi ws j h, List.getElem?_eq_getElem]

/-! ### The window -/

/-- Both RAMs lie inside the window (R69, R70, R80). -/
theorem placeAt_ram {off : Nat} (h : placeAt off = .descRam ∨ placeAt off = .bufRam) : off < Config.windowBytes := by
  by_contra hc
  have h1 : ¬ off < Config.descBase := by simp only [Config.windowBytes, Config.descBase] at *; omega
  have h2 : inDescRam off = false := by
    simp only [inDescRam, Bool.and_eq_false_iff, decide_eq_false_iff_not, Config.windowBytes, Config.descBase,
      Config.descStride, Config.numDesc] at *
    omega
  have h3 : inBufRam off = false := by
    simp only [inBufRam, Bool.and_eq_false_iff, decide_eq_false_iff_not, Config.windowBytes, Config.bufBase,
      Config.bufBytes] at *
    omega
  simp [placeAt, h1, h2, h3] at h

/-- An aligned word access inside the window is not stopped by its shape (R80, R88). -/
theorem guardAccess_ok {off : Nat} (o : Host.Outcome State Fault Refusal) (ha : off % 4 = 0)
    (h : off < Config.windowBytes) : guardAccess 4 off o = o := by
  rw [guardAccess, if_neg (by simp [alignedWord, ha]), if_neg (by omega)]

/-! ### The window -/

theorem placeAt_reg (r : Reg) : placeAt r.offset = .reg r := by
  cases r with
  | xfer k f => fin_cases k <;> cases f <;> rfl
  | _ => rfl

theorem Reg.offset_aligned (r : Reg) : r.offset % 4 = 0 ∧ r.offset < Config.windowBytes := by
  cases r with
  | xfer k f => fin_cases k <;> cases f <;> decide
  | _ => decide

/-- An offset below descriptor RAM at which the map has a register is that register's (R22, R61). -/
theorem regAt_offset {off : Nat} {r : Reg} (h4 : off % 4 = 0) (hb : off < Config.descBase) (h : regAt off = some r) :
    off = r.offset := by
  obtain ⟨w, rfl⟩ : ∃ w, off = 4 * w := ⟨off / 4, by omega⟩
  unfold regAt at h
  split at h
  · have key : ∀ w : Fin 64, ∀ r, regMap.lookup (4 * w.val) = some r → 4 * w.val = r.offset := by
      intro w r h
      fin_cases w <;> cases h <;> rfl
    exact key ⟨w, by omega⟩ r h
  · unfold xferReg at h
    split at h
    · next hk =>
      have e : w = 64 + 8 * ((4 * w - 0x100) / 4 / 8) + (4 * w - 0x100) / 4 % 8 := by omega
      rcases Option.map_eq_some_iff.mp h with ⟨f, hf, rfl⟩
      have hm : (4 * w - 0x100) / 4 % 8 < 8 := Nat.mod_lt _ (by omega)
      generalize (4 * w - 0x100) / 4 % 8 = m at *
      simp only [Reg.offset]
      interval_cases m <;> simp only [xferField, Option.some.injEq, reduceCtorEq] at hf <;> subst hf <;>
        simp only [XferField.place] <;> omega
    · cases h

theorem placeAt_slots {off : Nat} (h : inSlots off) : placeAt off = .descRam := by
  obtain ⟨d, hd, h1, h2⟩ := h
  simp only [Config.numDesc, Config.maxSteps] at hd h2
  unfold placeAt
  rw [if_neg (by simp only [Config.descBase]; omega), if_pos]
  simp only [inDescRam, Config.descBase, Config.descStride, Config.numDesc, Config.descMapped, Config.maxSteps,
    Bool.and_eq_true, decide_eq_true_eq]
  omega

theorem inDescRam_slots {off : Nat} (h : inDescRam off = true) : inSlots off := by
  simp only [inDescRam, Config.descBase, Config.descStride, Config.numDesc, Config.descMapped, Config.maxSteps,
    Bool.and_eq_true, decide_eq_true_eq] at h
  refine ⟨(off - 0x1000) / 0x400, ?_, by omega, ?_⟩ <;> simp only [Config.numDesc, Config.maxSteps] <;> omega

theorem placeAt_buffer {off : Nat} (h : inBuffer off) : placeAt off = .bufRam := by
  obtain ⟨h1, h2⟩ := h
  simp only [Config.bufBytes] at h2
  unfold placeAt
  rw [if_neg (by simp only [Config.descBase]; omega), if_neg, if_pos]
  · simp only [inBufRam, Config.bufBase, Config.bufBytes, Bool.and_eq_true, decide_eq_true_eq]; omega
  · intro hd
    simp only [inDescRam, Config.descBase, Config.descStride, Config.numDesc, Config.descMapped, Config.maxSteps,
      Bool.and_eq_true, decide_eq_true_eq] at hd
    omega

theorem placeAt_unmapped {off : Nat} (h4 : off % 4 = 0) (hr : ∀ r : Reg, off ≠ r.offset) (hs : ¬ inSlots off)
    (hb : ¬ inBuffer off) : placeAt off = .unmapped := by
  unfold placeAt
  split
  · next hd =>
    cases h : regAt off with
    | none => rfl
    | some r => exact absurd (regAt_offset h4 hd h) (hr r)
  · rw [if_neg (fun h => hs (inDescRam_slots h)), if_neg]
    intro h
    simp only [inBufRam, Bool.and_eq_true, decide_eq_true_eq] at h
    exact hb h

/-- A host write at a register's offset is a write of that register (R22). -/
theorem hostAccess_write_reg (r : Reg) (v : Word) (s : State) :
    hostAccess (.write 4 r.offset v) s = writeReg r v s := by
  show guardAccess 4 r.offset (hostWrite r.offset v s) = _
  rw [guardAccess_ok _ r.offset_aligned.1 r.offset_aligned.2, hostWrite, placeAt_reg]

/-- A host read at a register's offset is a read of that register (R22). -/
theorem hostAccess_read_reg (r : Reg) (s : State) :
    hostAccess (.read 4 r.offset) s = .next { afterReadReg s r with rdata := readReg s r } := by
  show guardAccess 4 r.offset (hostRead r.offset s) = _
  rw [guardAccess_ok _ r.offset_aligned.1 r.offset_aligned.2, hostRead, placeAt_reg]

/-! ### What the host may write -/

/-- The model's test is R23's and R75's conditions. -/
theorem writable_iff {s : State} {r : Reg} (hw : r.code ≠ .wo) : writable s r = true ↔ mayWrite s r := by
  constructor
  · intro h
    simp only [writable, Bool.or_eq_true] at h
    rcases h with h | h
    · cases hc : r.code <;> simp [hc, AccessCode.permits] at h hw
      · exact .inl hc
      · exact .inr (.inl ⟨hc, h⟩)
      · exact .inr (.inr (.inl ⟨hc, h⟩))
    · unfold hookWritable at h
      split at h
      · next k => simp at h; exact .inr (.inr (.inr ⟨k, rfl, h.1.1, h.1.2, h.2⟩))
      · cases h
  · rintro (h | ⟨h, h'⟩ | ⟨h, h', h''⟩ | ⟨k, rfl, h1, h2, h3⟩)
    · simp [writable, h, AccessCode.permits]
    · simp [writable, h, AccessCode.permits, h']
    · simp [writable, h, AccessCode.permits, h', h'']
    · simp [writable, hookWritable, h1, h2, h3]

end Sys2Proof.Machine
end

