-- ==== Sys2Proof/Laws/Host.lean ====
section
/-! SUPPORT. What a host access and a step of the machine can do, said once. -/

namespace Sys2Proof.Machine

/-- A decoder word is a decoder operation (R120). -/
theorem decodeDec_op (v : Word) : ∃ op, decoderOp (decodeDec v) = some op := by
  unfold decodeDec
  split <;> exact ⟨_, rfl⟩

/-- A CTRL word's instructions are CTRL commands (R26). -/
theorem decodeCtrl_commands (v : Word) : ∀ i ∈ decodeCtrl v, i = .start ∨ i = .hookAck ∨ i = .doneClr := by
  intro i hi
  unfold decodeCtrl at hi
  simp only [List.mem_append] at hi
  rcases hi with hi | hi | hi <;> split at hi <;> simp at hi <;> simp [hi]

/-- What a host access can do (R91): CTRL commands, a decoder operation, a register that stores, a RAM word, or a
read. -/
inductive HostEffect (s u : State) : Prop
  | commands (is : List Instr) (h : ∀ i ∈ is, i = .start ∨ i = .hookAck ∨ i = .doneClr) (e : execAll is s = .next u)
  | decoder (i : Instr) (op : BitVec 3) (h : decoderOp i = some op) (e : exec i s = .next u)
  | register (r : Reg) (v : Word) (h : writable s r = true) (h1 : r.code ≠ .ro) (h2 : r.code ≠ .wo)
      (e : u = putReg r v s)
  | ram (off : Nat) (v : Word) (h : placeAt off = .descRam ∨ placeAt off = .bufRam) (e : u = writeRam off v s)
  | quiet (e : u = { s with rdata := u.rdata, timeHiShadow := u.timeHiShadow })

theorem writeReg_effect {r : Reg} {v : Word} {s u : State} (h : writeReg r v s = .next u) : HostEffect s u := by
  have other : r.code ≠ .wo → (if writable s r then putReg r v s else s) = u → HostEffect s u := by
    rintro h2 rfl
    by_cases hw : writable s r = true
    · refine .register r v hw ?_ h2 (if_pos hw)
      intro hc
      cases r <;> simp [Reg.code] at hc <;> simp [writable, AccessCode.permits, Reg.code, hookWritable] at hw
    · rw [if_neg hw]; exact .quiet rfl
  cases r with
  | ctrl => exact .commands _ (decodeCtrl_commands v) h
  | decCtrl => obtain ⟨op, ho⟩ := decodeDec_op v; exact .decoder _ op ho h
  | _ => exact other (by simp [Reg.code]) (Host.Outcome.next.inj h)

theorem readRam_next {off : Nat} {s u : State} (h : readRam off s = .next u) : u = { s with rdata := u.rdata } := by
  unfold readRam at h
  split at h
  · cases h; rfl
  · cases h

/-- What a host access that answers a next state has done. -/
theorem hostAccess_effect {a : HostAccess} {s u : State} (h : hostAccess a s = .next u) : HostEffect s u := by
  have guard : ∀ n off o, guardAccess n off o = .next u → o = .next u := by
    intro n off o hg
    unfold guardAccess at hg
    split at hg
    · cases hg
    · split at hg
      · cases hg
      · exact hg
  cases a with
  | read n off =>
    have h := guard _ _ _ h
    unfold hostRead at h
    split at h
    · next r hp =>
      have h := Host.Outcome.next.inj h
      rw [← h]
      exact .quiet (by cases r <;> rfl)
    · rw [readRam_next h]; exact .quiet rfl
    · split at h
      · cases h
      · rw [readRam_next h]; exact .quiet rfl
    · cases h; exact .quiet rfl
  | write n off v =>
    have h := guard _ _ _ h
    unfold hostWrite at h
    split at h
    · exact writeReg_effect h
    · next hp => cases h; exact .ram off v (.inl hp) rfl
    · next hp =>
      split at h
      · cases h
      · cases h; exact .ram off v (.inr hp) rfl
    · cases h; exact .quiet rfl

/-- What a register write while a run exists can be (R74, R75): IRQ_EN, the operand of the decoder, or
INTENDED_SIZE of the record of a raw hook. -/
theorem putReg_busy {r : Reg} {v : Word} {s : State} (hb : s.busy = true) (hw : writable s r = true)
    (h1 : r.code ≠ .ro) (h2 : r.code ≠ .wo) :
    putReg r v s = { s with irqEn := (putReg r v s).irqEn, dec := (putReg r v s).dec } ∨
    ∃ k, putReg r v s = s.setXfer k (fun x => { x with intended := v }) := by
  cases r with
  | irqEn => exact .inl rfl
  | decSrc => exact .inl rfl
  | decLen => exact .inl rfl
  | xfer k f =>
    cases f with
    | intended => exact .inr ⟨k, rfl⟩
    | _ => simp [writable, AccessCode.permits, Reg.code, hookWritable, hb] at hw
  | _ => first
    | simp [Reg.code] at h1; done
    | simp [Reg.code] at h2; done
    | simp [writable, AccessCode.permits, Reg.code, hookWritable, hb] at hw

/-- What a step that is no reset can do: a host access one clock edge later, an edge with nothing else, a step of
the chain, or the end of the loop. `z` is the state but for what is still to arrive. -/
theorem step_cases {s u : State} (hn : noReset s) (h : step s = .next u) : ∃ port, ∀ z, z = { s with port := port } →
    (HostEffect (tickOnce z) u ∨ (s.fsm ≠ .running ∧ u = tickOnce z) ∨
      (s.fsm = .running ∧ s.status.step.toNat < s.effLen.toNat ∧ exec s.fetched.instr z = .next u) ∨
      (s.fsm = .running ∧ s.effLen.toNat ≤ s.status.step.toNat ∧ u = endRun z)) := by
  have agent : ∀ z : State, (∃ port, z = { s with port := port }) → agentStep z = .next u →
      ((s.fsm ≠ .running ∧ u = tickOnce z) ∨
      (s.fsm = .running ∧ s.status.step.toNat < s.effLen.toNat ∧ exec s.fetched.instr z = .next u) ∨
      (s.fsm = .running ∧ s.effLen.toNat ≤ s.status.step.toNat ∧ u = endRun z)) := by
    rintro z ⟨port, rfl⟩ ha
    unfold agentStep at ha
    split at ha
    · next hf =>
      change s.fsm = .running at hf
      unfold sequencerStep at ha
      split at ha
      · next hl => exact .inr (.inl ⟨hf, hl, ha⟩)
      · next hl => cases ha; exact .inr (.inr ⟨hf, Nat.le_of_not_lt hl, rfl⟩)
    · next hf =>
      change s.fsm = .idle at hf
      cases ha; exact .inl ⟨by rw [hf]; simp, rfl⟩
    · next hf =>
      change s.fsm = .hookWait at hf
      cases ha; exact .inl ⟨by rw [hf]; simp, rfl⟩
  unfold step machineStep at h
  rw [if_neg (by rw [hn.1]; simp)] at h
  split at h
  · next hp =>
    refine ⟨[], ?_⟩
    rintro z rfl
    have e : { s with port := [] } = s := by rw [← hp]
    rw [e]
    exact .inr (agent s ⟨s.port, rfl⟩ h)
  · next a rest hp =>
    refine ⟨rest, ?_⟩
    rintro z rfl
    exact .inl (hostAccess_effect h)
  · next after rest hp => exact absurd hp (hn.2 after rest)
  · next rest hp =>
    refine ⟨rest, ?_⟩
    rintro z rfl
    exact .inr (agent _ ⟨_, rfl⟩ h)
  · next n i rest hp =>
    refine ⟨(n, i) :: rest, ?_⟩
    rintro z rfl
    exact .inr (agent _ ⟨_, rfl⟩ h)

/-! ### RESET -/

/-- The instruction of a step entry leaves what is still to arrive from outside (R111, R118). -/
theorem exec_entry_port {e : StepEntry} {s u : State} (h : exec e.instr s = .next u) : u.port = s.port := by
  change exec (decodeStep e.w0 e.w1 e.w2 e.t) s = _ at h
  rcases decodeStep_kinds e.w0 e.w1 e.w2 e.t with h' | h' | h' | ⟨k, t, h'⟩
  · exact (exec_step_frame (.inr (.inr h')) h).port
  · rw [exec_illegal (.inl h')] at h; cases h; rfl
  · exact (exec_step_frame (.inl (h' _)) h).port
  · cases hk : recordIndex k with
    | none => rw [exec_illegal (.inr ⟨k, t, h', hk⟩)] at h; cases h; rfl
    | some j =>
      refine (exec_step_frame (.inr (.inl ?_)) h).port
      rcases h' with h' | h' <;> (rw [h']; simp [rawForm, hk])

/-- Where a raw instruction stops is where its step does (R230). -/
theorem haltedAt_raw {i : Instr} {d : Dir} {k : Fin Config.numXfer} {t : Timing} {s : State}
    (h : rawForm i = some (d, k, t)) : haltedAt i s = rawHaltedAt d k t s := by
  cases i <;> simp only [rawForm, Option.map_eq_some_iff, Prod.mk.injEq, reduceCtorEq] at h
  · obtain ⟨j, hj, rfl, rfl, rfl⟩ := h
    rw [haltedAt, hj]; rfl
  · obtain ⟨j, hj, rfl, rfl, rfl⟩ := h
    rw [haltedAt, hj]; rfl

/-- A running sequencer's step is the next action where no access arrives (R176). -/
theorem nextAction_exec {s : State} (hf : s.fsm = .running) (hl : s.status.step.toNat < s.effLen.toNat)
    (ha : ∀ a others, s.port ≠ (0, .access a) :: others) :
    nextAction s = exec s.fetched.instr s ∧ stoppedAt s = (haltedAt s.fetched.instr s).getD s := by
  refine ⟨?_, ?_⟩
  · unfold nextAction
    split
    · next a others h => exact absurd h (ha a others)
    · simp only [agentStep, hf, sequencerStep]
      rw [if_pos hl]
  · unfold stoppedAt
    split
    · next a others h => exact absurd h (ha a others)
    · rw [if_pos hf]

/-- What RESET in the middle of an action can do (R361): cut the action short, or cut it short before its stop. -/
theorem takeReset_cases {n : Nat} {s u : State} (h : takeReset (n + 1) s = .next u) :
    (∃ x, nextAction s = .next x ∧ u = resetEdge (cutAfter (n + 1) s x)) ∨
    ((∀ x, nextAction s ≠ .next x) ∧ s.trace.length + (n + 1) ≤ (stoppedAt s).trace.length ∧
      u = resetEdge (cutAfter (n + 1) s (stoppedAt s))) := by
  rw [takeReset] at h
  split at h
  · next x hx => cases h; exact .inl ⟨x, hx, rfl⟩
  · next hx =>
    split at h
    · next hl => cases h; exact .inr ⟨hx, hl, rfl⟩
    · exact absurd h (hx u)

/-- RESET before a stop that has `n + 1` events before it leaves a reset state, whatever the action (R361). -/
theorem takeReset_before {n : Nat} {s : State}
    (h : (∀ x, nextAction s ≠ .next x) → s.trace.length + (n + 1) ≤ (stoppedAt s).trace.length) :
    ∃ z, takeReset (n + 1) s = .next (resetEdge (cutAfter (n + 1) s z)) ∧
      (nextAction s = .next z ∨ z = stoppedAt s) := by
  rw [takeReset]
  split
  · next x hx => exact ⟨x, rfl, .inl hx⟩
  · next hx => exact ⟨_, if_pos (h hx), .inr rfl⟩

/-- What is left of the trace when RESET cuts an action short: the first of its events. -/
theorem cutAfter_trace {n : Nat} {s z : State} {new : List Event} (h : z.trace = new ++ s.trace) :
    (cutAfter n s z).trace = new.drop (new.length - n) ++ s.trace := by
  have e : (cutAfter n s z).trace = z.trace.drop (z.trace.length - (s.trace.length + n)) := rfl
  rw [e, h, List.length_append]
  by_cases hn : n ≤ new.length
  · rw [show new.length + s.trace.length - (s.trace.length + n) = new.length - n by omega,
      List.drop_append_of_le_length (by omega)]
  · rw [show new.length + s.trace.length - (s.trace.length + n) = 0 by omega,
      show new.length - n = 0 by omega]
    rfl

/-- A step at which RESET is asserted leaves a reset state, or, where it is de-asserted, that state one clock edge
later (R361). -/
theorem reset_cases {s u : State} (hn : ¬ noReset s) (h : step s = .next u) :
    ∃ z, u = resetEdge z ∨ u = { tickOnce (resetEdge z) with resetIn := false } := by
  unfold step machineStep at h
  by_cases hr : s.resetIn = true
  · rw [if_pos hr] at h
    cases h
    unfold heldStep
    split
    · exact ⟨_, .inl rfl⟩
    · exact ⟨_, .inr rfl⟩
    · exact ⟨_, .inl rfl⟩
    · exact ⟨_, .inl rfl⟩
  · rw [if_neg hr] at h
    have hp : ∃ after rest, s.port = (0, .reset after) :: rest := by
      by_contra hc
      exact hn ⟨by simpa using hr, fun after rest he => hc ⟨after, rest, he⟩⟩
    obtain ⟨after, rest, hp⟩ := hp
    rw [hp] at h
    change takeReset after { s with port := rest } = .next u at h
    cases after with
    | zero => cases h; exact ⟨_, .inl rfl⟩
    | succ n =>
      rcases takeReset_cases h with ⟨x, -, e⟩ | ⟨-, -, e⟩
      · exact ⟨_, .inl e⟩
      · exact ⟨_, .inl e⟩

/-- What RESET brings about (R361). -/
theorem resetEdge_inReset (s : State) : inReset (resetEdge s) := by
  refine ⟨rfl, rfl, ?_, fun _ => rfl⟩
  intro r
  cases r <;> rfl

end Sys2Proof.Machine
end

