-- ==== Sys2Proof/Laws/PerInstr.lean ====
section
/-! SUPPORT. What holds of every instruction as text, made one lemma per constructor. -/

namespace Sys2Proof.Laws.EncodedForm

/-- The encoder fills the whole place of an instruction and no more: a step entry is 16 words with W3 and W15 written
0 (R119, R124); a DEC_CTRL or CTRL word is one word (R125, R26). -/
def Statement (i : Instr) : Prop :=
  match (encode i).1 with
  | .stepEntry => (encode i).2.length = 16 ∧ (encode i).2[3]? = some 0 ∧ (encode i).2[15]? = some 0
  | .decCtrl => (encode i).2.length = 1
  | .ctrl => (encode i).2.length = 1

theorem cmd (byte : Byte) (t : Timing) : Statement (.cmd byte t) := ⟨rfl, rfl, rfl⟩
theorem addr (col row : Word) (t : Timing) : Statement (.addr col row t) := ⟨rfl, rfl, rfl⟩
theorem addrc (col : Word) (t : Timing) : Statement (.addrc col t) := ⟨rfl, rfl, rfl⟩
theorem addrr (row : Word) (t : Timing) : Statement (.addrr row t) := ⟨rfl, rfl, rfl⟩
theorem addr1 (byte : Byte) (t : Timing) : Statement (.addr1 byte t) := ⟨rfl, rfl, rfl⟩
theorem raww (xfer : BitVec 3) (t : Timing) : Statement (.raww xfer t) := ⟨rfl, rfl, rfl⟩
theorem rawr (xfer : BitVec 3) (t : Timing) : Statement (.rawr xfer t) := ⟨rfl, rfl, rfl⟩
theorem illegalKind7 : Statement (.illegalKind7) := ⟨rfl, rfl, rfl⟩
theorem hole : Statement (.hole) := ⟨rfl, rfl, rfl⟩
theorem decRsvd0 : Statement (.decRsvd0) := Eq.refl 1
theorem ddrchk : Statement (.ddrchk) := Eq.refl 1
theorem ddrfold (filler : Byte) : Statement (.ddrfold filler) := Eq.refl 1
theorem patlen (minPeriod : Byte) : Statement (.patlen minPeriod) := Eq.refl 1
theorem idext (dest : Bool) : Statement (.idext dest) := Eq.refl 1
theorem onfidec : Statement (.onfidec) := Eq.refl 1
theorem viddec : Statement (.viddec) := Eq.refl 1
theorem decRsvd7 : Statement (.decRsvd7) := Eq.refl 1
theorem start : Statement (.start) := Eq.refl 1
theorem hookAck : Statement (.hookAck) := Eq.refl 1
theorem doneClr : Statement (.doneClr) := Eq.refl 1

end Sys2Proof.Laws.EncodedForm
end

