-- ==== Sys2Proof/WellFormed.lean ====
section
/-! DEFINITION. Which instructions use no reserved encoding: the checks of spec/30_encoding.md R118 and
R120 that an instruction meets or fails on its own text. An instruction that fails one still decodes and
still has the meaning the spec gives it (a run rejected CmdInvalid, a refused decoder operation). -/

namespace Sys2Proof

/-- A raw step names a transfer record that exists (R114, R118). -/
def Instr.recordExists : Instr → Bool
  | .raww k _ => k.toNat < Config.numXfer
  | .rawr k _ => k.toNat < Config.numXfer
  | _ => true

/-- A step's KIND is not the reserved value 7 (R113, R118). -/
def Instr.kindAssigned : Instr → Bool
  | .illegalKind7 => false
  | _ => true

/-- A decoder operation's OP is not reserved (R120). -/
def Instr.opAssigned : Instr → Bool
  | .decRsvd0 => false
  | .decRsvd7 => false
  | _ => true

/-- Every check holds. -/
def Instr.wellFormed (i : Instr) : Bool := i.recordExists && i.kindAssigned && i.opAssigned

end Sys2Proof
end

