-- ==== Sys2Proof/Tests/Slice0.lean ====
section
/-! SUPPORT. The model's own tests: the checks of WellFormed, words of the spec's encodings, one step of each
instruction on a small state with the values of the spec's own examples, and, for each obligation with hypotheses, a
state and operands that meet them all. -/

namespace Sys2Proof.Tests

open Sys2Proof.Machine

/-! ### WellFormed: one ill-formed term for each check -/

theorem test_wf_raww_record : Instr.recordExists (.raww 4 Timing.zero) = false := by decide
theorem test_wf_rawr_record : Instr.recordExists (.rawr 7 Timing.zero) = false := by decide
theorem test_wf_kind7 : Instr.kindAssigned .illegalKind7 = false := by decide
theorem test_wf_op0 : Instr.opAssigned .decRsvd0 = false := by decide
theorem test_wf_op7 : Instr.opAssigned .decRsvd7 = false := by decide
theorem test_wf_refuses : Instr.wellFormed (.raww 4 Timing.zero) = false ∧ Instr.wellFormed .illegalKind7 = false ∧
    Instr.wellFormed .decRsvd0 = false ∧ Instr.wellFormed (.rawr 3 Timing.zero) = true := by decide

/-! ### Decoding: words written out from R111 to R115, R120, R26, R55

A step entry's bits: W0[3] DEFINED, W0[2:0] KIND; W1 and W2 the payload; W4 to W14 the timing words T0 to T10. -/

/-- The timing words 1 to 11, so that each field has a value of its own. -/
def t11 : Timing := ⟨1, 2, 3, 4, 5, 6, 7, 8, 9, 10, 11⟩

/-- Sixteen words of a step entry with those timing words, W3 and W15 with every bit set: ignored (R111). -/
def entry11 (w0 w1 w2 : Word) : List Byte :=
  [w0, w1, w2, 0xFFFFFFFF, 1, 2, 3, 4, 5, 6, 7, 8, 9, 10, 11, 0xFFFFFFFF].flatMap bytesOfWord

theorem test_decode_cmd : decode .stepEntry (entry11 0b1000 0x190 0) = .ok (.cmd 0x90 t11) := by decide
theorem test_decode_addr : decode .stepEntry (entry11 0b1001 0x804 0x12345) = .ok (.addr 0x804 0x12345 t11) := by decide
theorem test_decode_addrc : decode .stepEntry (entry11 0b1010 0x804 0x12345) = .ok (.addrc 0x804 t11) := by decide
theorem test_decode_addrr : decode .stepEntry (entry11 0b1011 0x40 0x12345) = .ok (.addrr 0x40 t11) := by decide
theorem test_decode_addr1 : decode .stepEntry (entry11 0b1100 0xFFFFFF20 0) = .ok (.addr1 0x20 t11) := by decide
theorem test_decode_raww : decode .stepEntry (entry11 0b1101 0b1010 0) = .ok (.raww 2 t11) := by decide
theorem test_decode_rawr : decode .stepEntry (entry11 0b1110 0b0111 0) = .ok (.rawr 7 t11) := by decide
theorem test_decode_kind7 : decode .stepEntry (entry11 0xFFFFFFFF 0 0) = .ok .illegalKind7 := by decide
theorem test_decode_hole : decode .stepEntry (entry11 0xFFFFFFF7 0 0) = .ok .hole := by decide
theorem test_decode_short : decode .stepEntry (bytesOfWord 8) = .error .notSixteenWords := by decide
theorem test_decode_dec :
    decode .decCtrl [0b00001000, 0xFF, 0xFF, 0xFF] = .ok .decRsvd0 ∧
    decode .decCtrl [0b00000001, 0, 0, 0] = .ok .ddrchk ∧
    decode .decCtrl [0b00000010, 0xA5, 0x5A, 0] = .ok (.ddrfold 0xA5) ∧
    decode .decCtrl [0b00000011, 0x5A, 0x04, 0xFF] = .ok (.patlen 4) ∧
    decode .decCtrl [0b00000100, 0, 0, 0] = .ok (.idext false) ∧
    decode .decCtrl [0b11111100, 0, 0, 0] = .ok (.idext true) ∧
    decode .decCtrl [0b00000101, 0, 0, 0] = .ok .onfidec ∧
    decode .decCtrl [0b00000110, 0, 0, 0] = .ok .viddec ∧
    decode .decCtrl [0b00000111, 0, 0, 0] = .ok .decRsvd7 := by decide
theorem test_decode_ctrl :
    decode .ctrl [0b11111001, 0xFF, 0, 0] = .ok .start ∧ decode .ctrl [0b00000010, 0, 0, 0] = .ok .hookAck ∧
    decode .ctrl [0b00000100, 0, 0, 0] = .ok .doneClr ∧ decode .ctrl [0b11111000, 0, 0, 0] = .error .noCommand ∧
    decode .ctrl [0b00000011, 0, 0, 0] = .error .severalCommands := by decide

/-- The three command bits of one CTRL write, in their order (R26). -/
theorem test_decodeCtrl_order : decodeCtrl 0x7 = [.doneClr, .hookAck, .start] := by decide

/-- The table's own words: W0 of each defined step, and the DEC_CTRL words. -/
theorem test_table_words :
    (decodeTableWord 8 0x8 = some (.cmd 0 Timing.zero)) ∧ (decodeTableWord 8 0xF = some .illegalKind7) ∧
    (decodeTableWord 8 0x1 = some .ddrchk) ∧ (decodeTableWord 32 0xFF02 = some (.ddrfold 0xFF)) := by decide

/-! ### A small state -/

/-- The NCS idle, with two LUNs, 2 column and 3 row cycles, every line ready, a tick of 10 ns, no extra clocks, and
the device answering 0xEC then 0xF1. -/
def idle : State :=
  { State.reset with
    dev := { Device.reset with rowCycles := 3, colCycles := 2, lunCount := 2 }
    clk := { time := 0, deadline := 0, rbFirst := 0xF, rbSync := 0xF, tickPred := 9,
             env := { dq := [0xEC, 0xF1], rb := [0xF], lat := [0], draws := 0 } } }

/-- The same, RUNNING at step 0 of a chain of the one entry `e`. -/
def running (e : StepEntry) (pre post : Bool) : State :=
  beginStep 0 { idle with fsm := .running, effLen := 1
                          eff := { steps := e :: List.replicate 9 StepEntry.zero, pre, post } }

/-- A step entry without delays. -/
def entryOf (w0 w1 : Word) : StepEntry := ⟨w0, w1, 0, 0, Timing.zero, 0⟩

/-- A CMD step, and a chain of it RUNNING without hooks. -/
def cmdRun : State := running (entryOf 0x8 0x70) false false

/-- RUNNING with transfer record 0 of the given size and capacity, buffer bytes 0x11 0x22 0x33 (R231). -/
def rawRun (w0 : Word) (size : Word) (cap : BitVec 17) (pre post : Bool) : State :=
  { running (entryOf w0 0) pre post with
    xfer := State.reset.xfer.set 0 { XferRec.zero with intended := size, bufCap := cap }
    mem := Memory.store [] Config.bufBase [0x11, 0x22, 0x33] }

/-- Idle with the operand `bs` at the start of buffer RAM. -/
def withOperandBytes (bs : List Byte) : State :=
  { idle with dec := { idle.dec with src := 0, len := BitVec.ofNat 17 bs.length }
              mem := Memory.store [] Config.bufBase bs }

/-- The same state machine stopped in a hook. -/
def hooked (s : State) (phase : Phase) (raw : Bool) : State :=
  { s with fsm := .hookWait, phase, status := { s.status with hookPost := decide (phase = .afterPost), hookRaw := raw } }

/-- One field of the next state, where there is one. -/
def nextField {α : Type} (o : Host.Outcome State Fault Refusal) (f : State → α) : Option α :=
  match o with
  | .next s => some (f s)
  | _ => none

/-- Is the outcome a next state? -/
def answers (o : Host.Outcome State Fault Refusal) : Bool := (nextField o (fun _ => ())).isSome

/-- The bytes of buffer RAM from its start. -/
def bufferBytes (n : Nat) (s : State) : List (Option Byte) :=
  (List.range n).map (fun i => s.mem.read (Config.bufBase + i))

/-! ### One step of each instruction; the expected values are the examples of the rules named -/

/-- R201: `cmd 0x70`. -/
theorem test_cmd_events : nextField (exec (.cmd 0x70 Timing.zero) cmdRun) (fun u => (u.trace.reverse, u.bytes)) =
    some ([.latch .cmd, .dir .write, .wcyc .w8 0x70, .latch .neutral], 1) := by decide

/-- R202: col = 0, row = 0x012345, COL = 2, ROW = 3. -/
theorem test_addr_cycles : nextField (exec (.addr 0 0x012345 Timing.zero) cmdRun)
    (fun u => (u.trace.reverse.filter Event.isCycle, u.bytes)) =
    some ([.wcyc .w8 0, .wcyc .w8 0, .wcyc .w8 0x45, .wcyc .w8 0x23, .wcyc .w8 0x01], 5) := by decide

/-- R204: col = 0x0804, COL = 2. -/
theorem test_addrc_cycles : nextField (exec (.addrc 0x0804 Timing.zero) cmdRun)
    (fun u => u.trace.reverse.filter Event.isCycle) = some [.wcyc .w8 0x04, .wcyc .w8 0x08] := by decide

/-- R205: row = 0x40, ROW = 3. -/
theorem test_addrr_cycles : nextField (exec (.addrr 0x40 Timing.zero) cmdRun)
    (fun u => u.trace.reverse.filter Event.isCycle) = some [.wcyc .w8 0x40, .wcyc .w8 0, .wcyc .w8 0] := by decide

/-- R206: `addr1 0x00`. -/
theorem test_addr1_events : nextField (exec (.addr1 0 Timing.zero) cmdRun) (fun u => u.trace.reverse) =
    some [.latch .addr, .dir .write, .wcyc .w8 0, .latch .neutral] := by decide

/-- R231: three elements through a buffer of 16. -/
theorem test_raww_events : nextField (exec (.raww 0 Timing.zero) (rawRun 0xD 3 16 false false))
    (fun u => (u.trace.reverse, u.xfer[0].offset, u.xfer[0].chunkSeq, u.bytes)) =
    some ([.latch .neutral, .dir .write, .wcyc .w8 0x11, .wcyc .w8 0x22, .wcyc .w8 0x33], 3, 1, 3) := by decide

/-- R238: three elements through a buffer of 2 are two chunks, each from element 0. -/
theorem test_raww_chunks : nextField (exec (.raww 0 Timing.zero) (rawRun 0xD 3 2 false false))
    (fun u => (u.trace.reverse.filter Event.isCycle, u.xfer[0].chunkSeq)) =
    some ([.wcyc .w8 0x11, .wcyc .w8 0x22, .wcyc .w8 0x11], 2) := by decide

/-- R232: two elements through a buffer of 8. -/
theorem test_rawr_stores : nextField (exec (.rawr 0 Timing.zero) (rawRun 0xE 2 8 false false))
    (fun u => (u.trace.reverse.filter Event.isCycle, bufferBytes 3 u, u.xfer[0].lastChunk)) =
    some ([.rcyc .w8 0xEC, .rcyc .w8 0xF1], [some 0xEC, some 0xF1, some 0x33], 2) := by decide

/-- R118: KIND 7 ends the run with (0, CmdInvalid). -/
theorem test_kind7_ends : nextField (exec .illegalKind7 cmdRun) (fun u => (u.status.resp, u.bytes, u.fsm)) =
    some (.cmdInvalid, 0, .idle) := by decide

/-- R177: a hole records no event. -/
theorem test_hole_skips : nextField (exec .hole cmdRun) (fun u => (u.trace, u.status.step, u.clk.time)) =
    some ([], 1, 0) := by decide

/-- R260: a reserved OP is refused. -/
theorem test_decRsvd0_refused : nextField (exec .decRsvd0 idle) (fun u => (u.dec.err, u.dec.lastOp)) = some (true, 0) := by
  decide
theorem test_decRsvd7_refused : nextField (exec .decRsvd7 idle) (fun u => (u.dec.err, u.dec.lastOp)) = some (true, 7) := by
  decide

/-- R261: 41 41 52 52 is DDR; 41 42 is not. -/
theorem test_ddrchk_pairs : nextField (exec .ddrchk (withOperandBytes [0x41, 0x41, 0x52, 0x52])) (·.dec.result) = some 1 := by
  decide
theorem test_ddrchk_other : nextField (exec .ddrchk (withOperandBytes [0x41, 0x42])) (·.dec.result) = some 0 := by decide

/-- R262: 41 41 52 52 with filler 0 becomes 41 52 00 00, result 2. -/
theorem test_ddrfold : nextField (exec (.ddrfold 0) (withOperandBytes [0x41, 0x41, 0x52, 0x52]))
    (fun u => (bufferBytes 4 u, u.dec.result)) = some ([some 0x41, some 0x52, some 0, some 0], 2) := by decide

/-- R263: 2C DA 90 95 2C DA 90 95 with m = 4 gives 4; 01 to 08 gives 8. -/
theorem test_patlen_period : nextField (exec (.patlen 4)
    (withOperandBytes [0x2C, 0xDA, 0x90, 0x95, 0x2C, 0xDA, 0x90, 0x95])) (·.dec.result) = some 4 := by decide
theorem test_patlen_none : nextField (exec (.patlen 4) (withOperandBytes [1, 2, 3, 4, 5, 6, 7, 8])) (·.dec.result) =
    some 8 := by decide

/-- R264: 2C 2C DA DA 90 90 95 95 becomes 2C DA 90 95 00 00 00 00 with result 4. -/
theorem test_idext : nextField (exec (.idext false)
    (withOperandBytes [0x2C, 0x2C, 0xDA, 0xDA, 0x90, 0x90, 0x95, 0x95]))
    (fun u => (bufferBytes 8 u, u.dec.result, u.dev.idLen, u.dev.idBytes0, u.dev.idBytes1)) =
    some ([some 0x2C, some 0xDA, some 0x90, some 0x95, some 0, some 0, some 0, some 0], 4, 4, 0x9590DA2C, 0) := by decide

/-- R260: ONFIDEC with fewer than 256 bytes is refused. -/
theorem test_onfidec_short : nextField (exec .onfidec (withOperandBytes [0x4F, 0x4E, 0x46, 0x49]))
    (fun u => (u.dec.err, u.onfi.sigOk)) = some (true, false) := by decide

/-- R300: EC F1 00 95 40. -/
theorem test_viddec : nextField (exec .viddec (withOperandBytes [0xEC, 0xF1, 0x00, 0x95, 0x40]))
    (fun u => (readReg u .vid0, readReg u .vid1, readReg u .vid2, readReg u .vid3)) =
    some (0x00010201, 0x00000800, 0x00020000, 0x04000108) := by decide

/-- Slot 2 holds a valid chain of the one step `e`. -/
def slotTwo (header : Word) (e : StepEntry) : State :=
  { idle with runCfg := { template := 2, override := 0, overrideEn := false, lun := 0 }
              mem := (Memory.store [] (descOffset 2 0) (bytesOfWord header)).store (descOffset 2 16) e.bytes }

/-- R170: START with slot 2 a valid one-step `cmd 0xFF` chain begins the run. -/
theorem test_start_runs : nextField (exec .start (slotTwo 0x80000001 (entryOf 0x8 0xFF)))
    (fun u => (u.fsm, u.effLen, u.cur, u.trace.reverse)) =
    some (.running, 1, ⟨0x8, 0xFF, 0⟩, [.cs 0 true, .wp false, .strobesIdle]) := by decide

/-- R171: a slot whose header is not VALID ends the run CmdInvalid with zero progress. -/
theorem test_start_invalid : nextField (exec .start (slotTwo 0x00000001 (entryOf 0x8 0xFF)))
    (fun u => (u.fsm, u.status.resp, u.trace)) = some (.idle, .cmdInvalid, [.finish .cmdInvalid 0]) := by decide

/-- R185: at a hook HOOK_ACK resumes; without one it does nothing. -/
theorem test_hookAck : nextField (exec .hookAck (hooked cmdRun .afterPre false)) (·.fsm) = some .running ∧
    nextField (exec .hookAck idle) (·.fsm) = some .idle := by decide

/-- R26: DONE_CLR clears DONE while idle. -/
theorem test_doneClr : nextField (exec .doneClr { idle with status := { idle.status with done := true } })
    (·.status.done) = some false := by decide

/-- A run with every line busy, whose levels are `rb` from the next clock on. -/
def polled (rb : List Half) : State :=
  { idle with clk := { idle.clk with rbFirst := 0, rbSync := 0, env := { idle.clk.env with rb } } }

/-- V-TIM-5: with a tick of 10 ns, the fourth sample of a wait of 25 ns is its last; ready at that very sample is OK. -/
theorem test_wait_timeout : (waitOne 0 25 (polled [0])).2.trace = [.wait 0 25 false] ∧
    ((polled [0]).clk.poll 0 25).2.time = 30 := by decide
theorem test_wait_last_sample : (waitOne 0 25 (polled [0, 1])).2.trace = [.wait 0 25 true] ∧
    ((polled [0, 1]).clk.poll 0 25).2.time = 30 := by decide

/-- V-ONFI-2: the CRC of nothing, of 00 and of FF. -/
theorem test_crc16 : crc16 [] = 0x4F4E ∧ crc16 [0x00] = 0xCFA1 ∧ crc16 [0xFF] = 0xCDA3 := by decide

/-- What is still to arrive, and whether RESET stands. -/
def withPort (port : List (Nat × HostInput)) (held : Bool) (s : State) : State := { s with port, resetIn := held }

/-- R361: a RESET that comes once a CMD step has set its latch and its direction leaves those events, and no FINISH. -/
theorem test_reset_inside_step : nextField (step (withPort [(0, .reset 2)] false cmdRun))
    (fun u => (u.trace.reverse, u.fsm, u.pins.wp, u.resetIn)) =
    some ([.latch .cmd, .dir .write], .idle, true, true) := by decide

/-- R361, R363: a RAWW step whose buffer's second byte was never written is abandoned where RESET comes once the first
element has gone out, and faults where it would come later. -/
theorem test_reset_before_fault :
    nextField (step (withPort [(0, .reset 3)] false
      { rawRun 0xD 3 2 false false with mem := Memory.store [] Config.bufBase [0x11] }))
      (fun u => (u.trace.reverse, u.fsm, u.resetIn)) = some ([.latch .neutral, .dir .write, .wcyc .w8 0x11], .idle, true) ∧
    answers (step (withPort [(0, .reset 4)] false
      { rawRun 0xD 3 2 false false with mem := Memory.store [] Config.bufBase [0x11] })) = false := by decide

/-- R361: while RESET is asserted, host accesses are ignored. -/
theorem test_reset_held : nextField (step (withPort [(0, .access (.write 4 0x010 3))] true idle))
    (fun u => (readReg u .irqEn, u.port, u.resetIn)) = some (0, [], true) := by decide

/-! ### Witnesses: for each obligation with hypotheses, a state and operands that meet all of a clause's -/

/-- Every line busy, and standing still. -/
def busyLines (s : State) : State :=
  { s with clk := { s.clk with rbFirst := 0, rbSync := 0, env := { s.clk.env with rb := [0] } } }

/-- Timing with a budget of 100 ns for the target LUN. -/
def waits : Timing := { Timing.zero with rdy := 100 }

theorem witness_WordLittleEndian : 0 < 4 ∧ 3 < 4 := by decide

/-- The first and the last word of each RAM. -/
theorem witness_HostRamWriteRead :
    (0x1000 % 4 = 0 ∧ inSlots 0x1000) ∧ (0x2EBC % 4 = 0 ∧ inSlots 0x2EBC) ∧
    (0x10000 % 4 = 0 ∧ inBuffer 0x10000 ∧ idle.fsm ≠ .running) ∧
    (0x10FFC % 4 = 0 ∧ inBuffer 0x10FFC ∧ (hooked cmdRun .afterPre true).fsm ≠ .running) := by
  unfold inSlots inBuffer
  refine ⟨⟨rfl, 0, by decide⟩, ⟨rfl, 7, by decide⟩, by decide, by decide⟩

theorem witness_RemainingExact : (9223372036854775807#64).toNat < 2 ^ 63 := by decide

theorem witness_DelayHolds : 3 = ((25 : Word).toNat - 1) / idle.clk.tick + 1 + idle.clk.env.drawLat.1 ∧
    (25 : Word) ≠ 0 ∧ 429496730 = ((0xFFFFFFFF : Word).toNat - 1) / idle.clk.tick + 1 + idle.clk.env.drawLat.1 := by
  decide

/-- The samples of `WaitOne(0, 25)` (V-TIM-5). -/
def sampled (rb : List Half) (i : Nat) : Clk :=
  Clk.edge^[i] { (polled rb).clk with deadline := deadlineFrom (polled rb).clk.time 25 }

/-- Ready at the first sample, during the wait, and at the sample at which the deadline passes; and busy at all. -/
theorem witness_WaitOnePolls : idle.clk.tick ≤ 2 ^ 63 ∧ idle.clk.rbSync.getLsbD 3 = true ∧
    ((2 - 1) * idle.clk.tick < 25 ∧ (∀ i, i < 2 → (sampled [1] i).rbSync.getLsbD 0 = false) ∧
      (sampled [1] 2).rbSync.getLsbD 0 = true) ∧
    ((3 - 1) * idle.clk.tick < 25 ∧ (∀ i, i < 3 → (sampled [0, 1] i).rbSync.getLsbD 0 = false) ∧
      (sampled [0, 1] 3).rbSync.getLsbD 0 = true) ∧
    ((∀ i, i < 3 → (sampled [0] i).rbSync.getLsbD 0 = false) ∧ (sampled [0] 3).rbSync.getLsbD 0 = false ∧
      25 ≤ 3 * idle.clk.tick) := by decide

theorem witness_ZeroBudgetNeverWaits : (1 : Word) ≠ 0 := by decide

/-- A register of each access code, and the hook's write. -/
theorem witness_RegisterKeepsItsFields :
    (Reg.stored .decLen = some 0x1FFFF ∧ Reg.decLen ≠ .pinCtrl ∧ Reg.code .decLen = .rw) ∧
    (Reg.stored (.xfer 3 .bufCap) = some 0x1FFFF ∧ Reg.xfer 3 .bufCap ≠ .pinCtrl ∧
      Reg.code (.xfer 3 .bufCap) = .rwi ∧ idle.busy = false) ∧
    (Reg.stored .devCfg = some 3 ∧ Reg.devCfg ≠ .pinCtrl ∧ Reg.code .devCfg = .rwl ∧ idle.busy = false ∧
      idle.dev.initDone = false) ∧
    (Reg.stored (.xfer 0 .intended) = some 0xFFFFFFFF ∧ Reg.xfer 0 .intended ≠ .pinCtrl ∧
      (hooked cmdRun .afterPre true).hookPending = true ∧ (hooked cmdRun .afterPre true).status.hookRaw = true ∧
      (hooked cmdRun .afterPre true).hookXfer.toNat = (0 : Fin Config.numXfer).val) := by decide

/-- A device record whose bring-up is done. -/
def initDone : State := { idle with dev := { idle.dev with state := 4 } }

theorem witness_LockedRegisters :
    Reg.code .timeHi = .ro ∧ (Reg.code .devCfg = .rwl ∧ initDone.dev.initDone = true) ∧
    (Reg.code (.xfer 0 .intended) = .rwi ∧ cmdRun.busy = true ∧ cmdRun.hookPending = false) ∧
    ((hooked cmdRun .afterPre true).hookPending = true ∧ (hooked cmdRun .afterPre true).status.hookRaw = true ∧
      (hooked cmdRun .afterPre true).hookXfer.toNat = (0 : Fin Config.numXfer).val) := by decide

theorem witness_LockedRegisters_noHook : ¬ mayWrite cmdRun .devState := by
  rintro (h | ⟨_, h⟩ | ⟨h, _⟩ | ⟨_, h, _⟩)
  · cases h
  · revert h; decide
  · cases h
  · cases h

/-- Reserved offsets, the bank past the last record, and the gaps of a slot and after buffer RAM (R22, R61, R69). -/
theorem witness_LockedRegisters_unmapped : ∀ off ∈ [0x02C, 0x084, 0x0FC, 0x11C, 0x180, 0xFFC, 0x12C0,
    0x3000, 0x11000, 0x1FFFC], off % 4 = 0 ∧ off < Config.windowBytes ∧ (∀ r : Reg, off ≠ r.offset) ∧ ¬ inSlots off ∧ ¬ inBuffer off := by
  intro off h
  refine ⟨?_, ?_, ?_, ?_, ?_⟩
  · revert off; decide
  · revert off; decide
  · intro r
    cases r with
    | xfer k f => revert off; revert k; cases f <;> decide
    | _ => revert off; decide
  · rintro ⟨d, hd, h1, h2⟩
    simp only [Config.numDesc, Config.maxSteps] at hd h2
    revert d; revert off; decide
  · unfold inBuffer; revert off; decide

theorem witness_DevStateWrite : idle.busy = false := by decide

theorem witness_PinCtrlDrives : idle.busy = false ∧ chipSelectsExist idle := by unfold chipSelectsExist; decide

theorem witness_TimeReadsAsOne : idle.timeHiShadow = idle.clk.time.extractLsb' 32 32 := by decide

/-- The plan of a run of slot 2 alone. -/
def planTwo (header : Word) : RunPlan := ⟨2, header, false, 0, 0⟩

/-- The shape of an access, and where it goes: each clause at the edge of its range. -/
theorem witness_AccessesThatStop :
    ((2 ≠ 4 ∨ 0 % 4 ≠ 0) ∧ (HostAccess.read 2 0 = .read 2 0)) ∧ ((4 ≠ 4 ∨ 3 % 4 ≠ 0) ∧ HostAccess.write 4 3 0 = .write 4 3 0) ∧
    (0x20000 % 4 = 0 ∧ Config.windowBytes ≤ 0x20000 ∧ HostAccess.read 4 0x20000 = .read 4 0x20000) ∧
    (0x10FFC % 4 = 0 ∧ inBuffer 0x10FFC ∧ cmdRun.fsm = .running) := by
  unfold inBuffer; decide

/-- A word of which only the last byte was never written. -/
def threeBytes (at_ : Nat) : State := { idle with mem := Memory.store [] at_ [1, 2, 3] }

theorem witness_AccessesThatStop_read :
    (0x1000 % 4 = 0 ∧ inSlots 0x1000 ∧ written (threeBytes 0x1000).mem 0x1000 3 ∧
      (threeBytes 0x1000).mem.read (0x1000 + 3) = none) ∧
    (0x10000 % 4 = 0 ∧ inBuffer 0x10000 ∧ idle.fsm ≠ .running ∧ written idle.mem 0x10000 0 ∧
      idle.mem.read (0x10000 + 0) = none) := by
  unfold inSlots inBuffer written
  exact ⟨⟨rfl, ⟨0, by decide⟩, by decide, by decide⟩, by decide⟩

/-- Template 2 valid, override 3. -/
def overridden : State :=
  { slotTwo 0x80000001 (entryOf 0x8 0) with runCfg := { template := 2, override := 3, overrideEn := true, lun := 0 } }

theorem witness_AccessesThatStop_start :
    (idle.busy = false ∧ idle.runCfg.template.toNat < Config.numDesc ∧ written idle.mem (descOffset 0 0) 0 ∧
      idle.mem.read (descOffset 0 0 + 0) = none) ∧
    (overridden.busy = false ∧ overridden.mem.header 2 = .ok 0x80000001 ∧ (0x80000001#32).getLsbD 31 = true ∧
      overridden.runCfg.overrideEn = true ∧ overridden.runCfg.override.toNat < Config.numDesc ∧
      written overridden.mem (descOffset 3 0) 0 ∧ overridden.mem.read (descOffset 3 0 + 0) = none) := by
  unfold written; decide

/-- A header of LENGTH 2 whose second entry was never written. -/
theorem witness_AccessesThatStop_entry :
    (slotTwo 0x80000002 (entryOf 0x8 0)).busy = false ∧
    findPlan (slotTwo 0x80000002 (entryOf 0x8 0)).mem (slotTwo 0x80000002 (entryOf 0x8 0)).runCfg =
      .ok (some (planTwo 0x80000002)) ∧
    (planTwo 0x80000002).length ≤ Config.maxSteps ∧
    (slotTwo 0x80000002 (entryOf 0x8 0)).runCfg.lun.toNat < (slotTwo 0x80000002 (entryOf 0x8 0)).dev.luns ∧
    1 < ((planTwo 0x80000002).th.extractLsb' 0 8).toNat ∧
    (slotTwo 0x80000002 (entryOf 0x8 0)).mem.read (descOffset 2 (16 * (1 + 1) + 14) + 3) = none := by decide

/-- RAWW with a buffer of which only the first byte was written, at its beginning and after either hook. -/
def oneByteRun (pre post : Bool) (phase : Phase) : State :=
  { rawRun 0xD 3 2 pre post with mem := Memory.store [] Config.bufBase [0x11], phase }

theorem witness_AccessesThatStop_raww : rawForm (.raww 0 waits) = some (.write, 0, waits) ∧
    bufferFits (oneByteRun false false .begin).dev (oneByteRun false false .begin).xfer[(0 : Fin Config.numXfer)] = true ∧
    ((oneByteRun false false .begin).phase = .begin ∧
      pageOn16Bit (oneByteRun false false .begin).dev (oneByteRun false false .begin).xfer[(0 : Fin Config.numXfer)] = false ∧
      rawReadyWait 0 waits (oneByteRun false false .begin) ∧ (oneByteRun false false .begin).eff.pre = false) ∧
    (oneByteRun true true .afterPre).phase = .afterPre ∧
    ((oneByteRun false true .afterPost).phase = .afterPost ∧ (oneByteRun false true .afterPost).eff.pre = false) ∧
    1 < (oneByteRun false false .begin).dev.dataWidth.bytes * 2 ∧
    written (oneByteRun false false .begin).mem
      (XferRec.bufferAt (oneByteRun false false .begin).xfer[(0 : Fin Config.numXfer)]) 1 ∧
    (oneByteRun false false .begin).mem.read
      (XferRec.bufferAt (oneByteRun false false .begin).xfer[(0 : Fin Config.numXfer)] + 1) = none := by
  unfold rawReadyWait written; decide

/-- An operand of `n` bytes of which only the first `k` were written. -/
def shortOperand (n k : Nat) : State :=
  { withOperandBytes (List.replicate k 0x4F) with dec := { idle.dec with src := 0, len := BitVec.ofNat 17 n } }

theorem witness_AccessesThatStop_decoder :
    (decoderOp .ddrchk = some 1 ∧ ¬ refusedOp 1 (shortOperand 5 4) ∧ 4 < (shortOperand 5 4).dec.len.toNat ∧
      written (shortOperand 5 4).mem ((shortOperand 5 4).operandAt + 0) (4 - 0) ∧
      (shortOperand 5 4).mem.read ((shortOperand 5 4).operandAt + 4) = none) ∧
    (decoderOp .viddec = some 6 ∧ ¬ refusedOp 6 (shortOperand 5 4) ∧ 2 ≤ 4 ∧ 4 < 5 ∧
      written (shortOperand 5 4).mem ((shortOperand 5 4).operandAt + 2) (4 - 2)) := by
  unfold refusedOp written; decide

theorem witness_AccessesThatStop_onfi : decoderOp .onfidec = some 5 ∧ ¬ refusedOp 5 (shortOperand 256 255) ∧
    written (shortOperand 256 255).mem ((shortOperand 256 255).operandAt + 0) (255 - 0) ∧
    (shortOperand 256 255).mem.read ((shortOperand 256 255).operandAt + 255) = none := by
  unfold refusedOp written; decide +kernel

theorem witness_StartIgnoredWhileBusy : cmdRun.busy = true ∧ (hooked cmdRun .afterPre false).fsm = .hookWait := by decide

theorem witness_StartAccepted :
    (slotTwo 0x80000001 (entryOf 0x8 0xFF)).busy = false ∧
    findPlan (slotTwo 0x80000001 (entryOf 0x8 0xFF)).mem (slotTwo 0x80000001 (entryOf 0x8 0xFF)).runCfg =
      .ok (some (planTwo 0x80000001)) ∧
    (planTwo 0x80000001).length ≤ Config.maxSteps ∧
    (slotTwo 0x80000001 (entryOf 0x8 0xFF)).runCfg.lun.toNat < (slotTwo 0x80000001 (entryOf 0x8 0xFF)).dev.luns ∧
    mergeFrom (slotTwo 0x80000001 (entryOf 0x8 0xFF)).mem (planTwo 0x80000001) 0 (planTwo 0x80000001).length =
      .ok [entryOf 0x8 0xFF] ∧
    ∀ e ∈ [entryOf 0x8 0xFF], ¬ stepIllegal idle.dev idle.xfer e := by
  unfold stepIllegal bufferMisplaced; decide

/-- Record 3 alone, with the given buffer. -/
def lastRecord (bufBase : BitVec 16) (bufCap : BitVec 17) : Vector XferRec Config.numXfer :=
  State.reset.xfer.set 3 { XferRec.zero with bufBase, bufCap }

/-- R171 check 5 at its edges: a buffer that ends with buffer RAM and one that passes it, by one byte on 8 bits and by
one element on 16; an odd base on either bus; record 4; KIND 7, defined and in a hole. -/
theorem witness_StartRejected_steps :
    (¬ stepIllegal idle.dev (lastRecord 1 4095) (entryOf 0xD 3) ∧
      stepIllegal idle.dev (lastRecord 1 4096) (entryOf 0xD 3)) ∧
    (¬ stepIllegal { idle.dev with dataW16 := true } (lastRecord 4094 1) (entryOf 0xE 3) ∧
      stepIllegal { idle.dev with dataW16 := true } (lastRecord 4094 2) (entryOf 0xE 3) ∧
      stepIllegal { idle.dev with dataW16 := true } (lastRecord 1 0) (entryOf 0xE 3)) ∧
    (stepIllegal idle.dev idle.xfer (entryOf 0xD 4) ∧ ¬ stepIllegal idle.dev idle.xfer (entryOf 0xC 4)) ∧
    (stepIllegal idle.dev idle.xfer (entryOf 0xF 0) ∧ ¬ stepIllegal idle.dev idle.xfer (entryOf 0x7 0)) := by
  refine ⟨⟨?_, ?_⟩, ⟨?_, ?_, ?_⟩, ⟨?_, ?_⟩, ⟨?_, ?_⟩⟩ <;> (unfold stepIllegal bufferMisplaced; decide)

/-- The five checks of R171: a header not VALID, a chain of 11, LUN 2 of 2, a step of KIND 7. -/
theorem witness_StartRejected :
    idle.busy = false ∧
    findPlan (slotTwo 1 (entryOf 0x8 0)).mem (slotTwo 1 (entryOf 0x8 0)).runCfg = .ok none ∧
    (findPlan (slotTwo 0x8000000B (entryOf 0x8 0)).mem (slotTwo 0x8000000B (entryOf 0x8 0)).runCfg =
      .ok (some (planTwo 0x8000000B)) ∧ Config.maxSteps < (planTwo 0x8000000B).length) ∧
    (findPlan (slotTwo 0x8000000A (entryOf 0x8 0)).mem { (slotTwo 0x8000000A (entryOf 0x8 0)).runCfg with lun := 2 } =
      .ok (some (planTwo 0x8000000A)) ∧ (planTwo 0x8000000A).length ≤ Config.maxSteps ∧ idle.dev.luns ≤ (2#4).toNat) ∧
    (mergeFrom (slotTwo 0x80000001 (entryOf 0xF 0)).mem (planTwo 0x80000001) 0 1 = .ok [entryOf 0xF 0] ∧
      ∃ e ∈ [entryOf 0xF 0], stepIllegal idle.dev idle.xfer e) := by
  unfold stepIllegal bufferMisplaced; decide

/-- Two slots with headers: 2 as template, 3 as override. -/
def twoHeaders (th oh : Word) : Memory :=
  (Memory.store [] (descOffset 2 0) (bytesOfWord th)).store (descOffset 3 0) (bytesOfWord oh)

/-- RUN_CFG with an override. -/
def overrides (t o : BitVec 4) : RunCfg := { template := t, override := o, overrideEn := true, lun := 0 }

theorem witness_TemplateAndOverrideChecks :
    Config.numDesc ≤ (overrides 8 0).template.toNat ∧
    ((overrides 7 0).template.toNat < Config.numDesc ∧ Memory.read [] (descOffset 7 0) = none) ∧
    ((twoHeaders 0x00000001 0).header 2 = .ok 1 ∧ (1#32).getLsbD 31 = false) ∧
    ((twoHeaders 0x80000001 0).header 2 = .ok 0x80000001 ∧ (0x80000001#32).getLsbD 31 = true ∧
      (overrides 2 8).overrideEn = true ∧ Config.numDesc ≤ (overrides 2 8).override.toNat) ∧
    ((twoHeaders 0x80000001 1).header 3 = .ok 1 ∧ (overrides 2 3).override.toNat < Config.numDesc) ∧
    (twoHeaders 0x80000001 0x80000002).header 3 = .ok 0x80000002 := by decide

theorem witness_MergePointwise :
    mergeFrom (slotTwo 0x80000001 (entryOf 0x8 0xFF)).mem (planTwo 0x80000001) 0 (planTwo 0x80000001).length =
      .ok [entryOf 0x8 0xFF] ∧ 0 < (planTwo 0x80000001).length := by decide

/-- Past the last step. -/
def atEnd : State := { cmdRun with status := { cmdRun.status with step := 1 } }

theorem witness_RunEndsOk : atEnd.resetIn = false ∧ atEnd.port = [] ∧ atEnd.fsm = .running ∧ atEnd.effLen.toNat ≤ atEnd.status.step.toNat := by
  decide

theorem witness_HookAckReturns : (hooked cmdRun .afterPre false).hookPending = true ∧ idle.hookPending = false := by decide

theorem witness_DoneClrClears : idle.busy = false ∧ cmdRun.busy = true := by decide

/-! Control steps -/

theorem witness_ControlStepCompletes : controlForm cmdRun.dev (.cmd 0x70 waits) = some (.cmd, [0x70], waits) ∧
    cmdRun.phase = .begin ∧ controlReadyWait .cmd waits cmdRun ∧ cmdRun.eff.pre = false ∧ cmdRun.eff.post = false := by
  unfold controlReadyWait; decide

theorem witness_ControlStepTimesOut : controlForm (busyLines cmdRun).dev (.cmd 0x70 waits) = some (.cmd, [0x70], waits) ∧
    (busyLines cmdRun).phase = .begin ∧ ¬ controlReadyWait .cmd waits (busyLines cmdRun) := by
  unfold controlReadyWait; decide

/-- The chain of one CMD step with the hooks enabled as given. -/
def hookRun (pre post : Bool) : State := running (entryOf 0x8 0x70) pre post

theorem witness_ControlStepPreHook : controlForm (hookRun true true).dev (.addr1 0 waits) = some (.addr, [0], waits) ∧
    (hookRun true true).phase = .begin ∧ controlReadyWait .addr waits (hookRun true true) ∧
    (hookRun true true).eff.pre = true := by
  unfold controlReadyWait; decide

/-- At the statement after a hook, RUNNING again. -/
def resumed (phase : Phase) (s : State) : State := { s with phase }

theorem witness_ControlStepPostHook :
    (controlForm (hookRun false true).dev (.cmd 0 waits) = some (.cmd, [0], waits) ∧ (hookRun false true).eff.post = true ∧
      (hookRun false true).phase = .begin ∧ controlReadyWait .cmd waits (hookRun false true) ∧
      (hookRun false true).eff.pre = false) ∧
    ((hookRun true true).eff.post = true ∧ (resumed .afterPre (hookRun true true)).phase = .afterPre) := by
  unfold controlReadyWait; decide

theorem witness_ControlStepResumes : controlForm idle.dev (.addrc 0x0804 waits) = some (.addr, [0x04, 0x08], waits) ∧
    (resumed .afterPre (hookRun true false)).phase = .afterPre ∧ (hookRun true false).eff.post = false ∧
    (resumed .afterPost (hookRun true true)).phase = .afterPost := by decide

/-- The most cycles GEO_CYCLES can ask for: bytes past the fourth. -/
theorem witness_AddressBytes : 4 < ({ Device.reset with colCycles := 15, rowCycles := 15 } : Device).colCycles.toNat ∧
    14 < ({ Device.reset with colCycles := 15, rowCycles := 15 } : Device).rowCycles.toNat := by decide

theorem witness_ControlStepBytes : controlForm cmdRun.dev (.addrr 0x40 waits) = some (.addr, [0x40, 0, 0], waits) ∧
    cmdRun.phase = .begin ∧ controlReadyWait .addr waits cmdRun ∧ cmdRun.eff.pre = false ∧ cmdRun.eff.post = false := by
  unfold controlReadyWait; decide

/-! Raw steps -/

/-- A transfer record of the given sizes. -/
def record (intended hint : Word) : XferRec := { XferRec.zero with intended, hint }

/-- A raw step on a 16-bit data bus. -/
def wideRun (size hint : Word) : State :=
  { rawRun 0xE size 8 false false with
    dev := { idle.dev with dataW16 := true }
    xfer := State.reset.xfer.set 0 { XferRec.zero with intended := size, hint, bufCap := 8 } }

theorem witness_RawSizes :
    ((record 0xFFFFFFFD 0).intended ≠ 0xFFFFFFFF#32 ∧ (record 0xFFFFFFFD 0).intended ≠ 0xFFFFFFFE#32) ∧
    ((record 0xFFFFFFFF 0).intended = 0xFFFFFFFF#32 ∧ (record 0xFFFFFFFF 0).hint = 0) ∧
    ((record 0xFFFFFFFF 1).hint ≠ 0 ∧ (record 0xFFFFFFFF 1).hint ≠ 0xFFFFFFFF#32 ∧
      (record 0xFFFFFFFF 1).hint ≠ 0xFFFFFFFE#32) ∧
    (record 0xFFFFFFFE 1).intended = 0xFFFFFFFE#32 ∧
    (rawForm (.rawr 0 waits) = some (.read, 0, waits) ∧ (wideRun 0xFFFFFFFE 0).phase = .begin ∧
      (wideRun 0xFFFFFFFE 0).dev.dataW16 = true ∧ (wideRun 0xFFFFFFFE 0).xfer[(0 : Fin Config.numXfer)].intended = 0xFFFFFFFE#32) ∧
    ((wideRun 0xFFFFFFFF 0xFFFFFFFE).xfer[(0 : Fin Config.numXfer)].intended = 0xFFFFFFFF#32 ∧
      (wideRun 0xFFFFFFFF 0xFFFFFFFE).xfer[(0 : Fin Config.numXfer)].hint = 0xFFFFFFFE#32) := by decide

/-- RAWW of record 0, three elements through a buffer of 2. -/
def rawwRun : State := rawRun 0xD 3 2 false false
/-- RAWR of record 0, three elements through a buffer of 2. -/
def rawrRun : State := rawRun 0xE 3 2 false false

theorem witness_RawSizeZero : rawForm (.raww 0 waits) = some (.write, 0, waits) ∧
    (rawRun 0xD 0 2 true true).phase = .begin ∧
    pageOn16Bit (rawRun 0xD 0 2 true true).dev (rawRun 0xD 0 2 true true).xfer[(0 : Fin Config.numXfer)] = false ∧
    resolveSize (rawRun 0xD 0 2 true true).dev (rawRun 0xD 0 2 true true).xfer[(0 : Fin Config.numXfer)] = 0 := by decide

theorem witness_RawNoBuffer : rawForm (.rawr 0 waits) = some (.read, 0, waits) ∧
    (rawRun 0xE 1 0 true true).phase = .begin ∧
    pageOn16Bit (rawRun 0xE 1 0 true true).dev (rawRun 0xE 1 0 true true).xfer[(0 : Fin Config.numXfer)] = false ∧
    resolveSize (rawRun 0xE 1 0 true true).dev (rawRun 0xE 1 0 true true).xfer[(0 : Fin Config.numXfer)] ≠ 0 ∧
    (rawRun 0xE 1 0 true true).xfer[(0 : Fin Config.numXfer)].bufCap = 0 ∧
    rawReadyWait 0 waits (rawRun 0xE 1 0 true true) := by
  unfold rawReadyWait; decide

theorem witness_RawTimesOut : rawForm (.rawr 0 waits) = some (.read, 0, waits) ∧
    (busyLines rawrRun).phase = .begin ∧
    pageOn16Bit (busyLines rawrRun).dev (busyLines rawrRun).xfer[(0 : Fin Config.numXfer)] = false ∧
    resolveSize (busyLines rawrRun).dev (busyLines rawrRun).xfer[(0 : Fin Config.numXfer)] ≠ 0 ∧
    ¬ rawReadyWait 0 waits (busyLines rawrRun) := by
  unfold rawReadyWait; decide

theorem witness_RawwStreams : rawForm (.raww 0 waits) = some (.write, 0, waits) ∧ rawwRun.phase = .begin ∧
    rawwRun.eff.pre = false ∧ rawwRun.eff.post = false ∧
    pageOn16Bit rawwRun.dev rawwRun.xfer[(0 : Fin Config.numXfer)] = false ∧
    3 = resolveSize rawwRun.dev rawwRun.xfer[(0 : Fin Config.numXfer)] ∧ (3 : Word) ≠ 0 ∧
    2 = rawwRun.xfer[(0 : Fin Config.numXfer)].bufCap.toNat ∧ Width.w8 = rawwRun.dev.dataWidth ∧
    [2, 1] = chunkLengths 2 3 ∧ bufferFits rawwRun.dev rawwRun.xfer[(0 : Fin Config.numXfer)] = true ∧
    written rawwRun.mem (XferRec.bufferAt rawwRun.xfer[(0 : Fin Config.numXfer)]) (Width.w8.bytes * min 2 3) ∧
    rawReadyWait 0 waits rawwRun := by
  unfold rawReadyWait written; decide

theorem witness_RawrStreams : rawForm (.rawr 0 waits) = some (.read, 0, waits) ∧ rawrRun.phase = .begin ∧
    rawrRun.eff.pre = false ∧ rawrRun.eff.post = false ∧
    pageOn16Bit rawrRun.dev rawrRun.xfer[(0 : Fin Config.numXfer)] = false ∧
    3 = resolveSize rawrRun.dev rawrRun.xfer[(0 : Fin Config.numXfer)] ∧ (3 : Word) ≠ 0 ∧
    2 = rawrRun.xfer[(0 : Fin Config.numXfer)].bufCap.toNat ∧ Width.w8 = rawrRun.dev.dataWidth ∧
    [2, 1] = chunkLengths 2 3 ∧ bufferFits rawrRun.dev rawrRun.xfer[(0 : Fin Config.numXfer)] = true ∧
    rawReadyWait 0 waits rawrRun := by
  unfold rawReadyWait; decide

/-- The device's answers to the first read cycles, as many as the size. -/
theorem witness_RawrStreams_answers : (rawRun 0xE 2 8 false false).clk.env.dq = [0xEC, 0xF1] ++ [] ∧
    [(0xEC : Half), 0xF1].length = (2 : Word).toNat := by decide

theorem witness_ChunkMoves : Width.w8 = rawwRun.dev.dataWidth ∧
    2 = min rawwRun.xfer[(0 : Fin Config.numXfer)].bufCap.toNat (rawwRun.xfer[(0 : Fin Config.numXfer)].intended.toNat -
      rawwRun.xfer[(0 : Fin Config.numXfer)].offset.toNat) ∧
    bufferFits rawwRun.dev rawwRun.xfer[(0 : Fin Config.numXfer)] = true ∧
    written rawwRun.mem (XferRec.bufferAt rawwRun.xfer[(0 : Fin Config.numXfer)]) (Width.w8.bytes * 2) ∧ 1 < 2 := by
  unfold written; decide

/-- Both widths: a chunk of one 16-bit element. -/
theorem witness_ChunkMoves_wide : Width.w16 = (wideRun 1 0).dev.dataWidth ∧
    bufferFits (wideRun 1 0).dev (wideRun 1 0).xfer[(0 : Fin Config.numXfer)] = true ∧
    written (wideRun 1 0).mem (XferRec.bufferAt (wideRun 1 0).xfer[(0 : Fin Config.numXfer)]) (Width.w16.bytes * 1) := by
  unfold written; decide

/-- A raw step with hooks: RAWW for `w0` = 0xD. -/
def rawHooks (pre post : Bool) : State := rawRun 0xD 3 2 pre post

theorem witness_RawFirstHook : rawForm (.raww 0 waits) = some (.write, 0, waits) ∧ (rawHooks true false).phase = .begin ∧
    pageOn16Bit (rawHooks true false).dev (rawHooks true false).xfer[(0 : Fin Config.numXfer)] = false ∧
    resolveSize (rawHooks true false).dev (rawHooks true false).xfer[(0 : Fin Config.numXfer)] ≠ 0 ∧
    (rawHooks true false).xfer[(0 : Fin Config.numXfer)].bufCap ≠ 0 ∧ rawReadyWait 0 waits (rawHooks true false) ∧
    (rawHooks true false).eff.pre = true := by
  unfold rawReadyWait; decide

theorem witness_RawFirstHook_post : rawReadyWait 0 waits (rawHooks false true) ∧ (rawHooks false true).eff.pre = false ∧
    (rawHooks false true).eff.post = true ∧ ∃ y, moveChunk .write 0 waits (rawHooks false true) = .ok y :=
  ⟨by unfold rawReadyWait; decide, by decide, by decide, _, rfl⟩

/-- Record 0 with OFFSET moved on. -/
def moved (offset : Word) (s : State) : State := s.setXfer 0 (fun x => { x with offset })

theorem witness_RawAfterPreHook :
    ((resumed .afterPre (moved 3 (rawHooks true false))).phase = .afterPre ∧
      (resumed .afterPre (moved 3 (rawHooks true false))).xfer[(0 : Fin Config.numXfer)].intended.toNat ≤
      (resumed .afterPre (moved 3 (rawHooks true false))).xfer[(0 : Fin Config.numXfer)].offset.toNat) ∧
    ((moved 2 (rawHooks true false)).xfer[(0 : Fin Config.numXfer)].offset.toNat <
      (moved 2 (rawHooks true false)).xfer[(0 : Fin Config.numXfer)].intended.toNat ∧
      (rawHooks true true).eff.post = true ∧ (rawHooks true false).eff.post = false ∧ (rawHooks true false).eff.pre = true) := by
  decide

theorem witness_RawAfterPreHook_last : ∃ y, moveChunk .write 0 waits (resumed .afterPre (moved 2 (rawHooks true false))) = .ok y ∧
    y.xfer[(0 : Fin Config.numXfer)].exhausted = true := ⟨_, rfl, by decide⟩

theorem witness_RawAfterPreHook_more : ∃ y, moveChunk .write 0 waits (resumed .afterPre (rawHooks true false)) = .ok y ∧
    y.xfer[(0 : Fin Config.numXfer)].exhausted = false := ⟨_, rfl, by decide⟩

theorem witness_RawAfterPostHook :
    (resumed .afterPost (moved 3 (rawHooks true true))).phase = .afterPost ∧
    (moved 3 (rawHooks true true)).xfer[(0 : Fin Config.numXfer)].exhausted = true ∧
    ((moved 2 (rawHooks true true)).xfer[(0 : Fin Config.numXfer)].exhausted = false ∧ (rawHooks true true).eff.pre = true) ∧
    ((moved 2 (rawHooks false true)).xfer[(0 : Fin Config.numXfer)].exhausted = false ∧
      (rawHooks false true).eff.pre = false ∧ (rawHooks false true).eff.post = true) := by decide

theorem witness_RawAfterPostHook_moves :
    ∃ y, moveChunk .write 0 waits (bumpSeq 0 (resumed .afterPost (moved 2 (rawHooks false true)))) = .ok y := ⟨_, rfl⟩

theorem witness_IllegalStepsEndRun : Instr.illegalKind7 = .illegalKind7 ∧
    (Instr.raww 4 waits = .raww 4 waits ∧ Config.numXfer ≤ (4#3).toNat) ∧
    (Instr.rawr 7 waits = .rawr 7 waits ∧ Config.numXfer ≤ (7#3).toNat) := by decide

/-! The decoder unit -/

/-- An ID of five bytes. -/
def fiveBytes : State := withOperandBytes [0xEC, 0xF1, 0x00, 0x95, 0x40]

/-- 256 bytes of operand. -/
def page256 : State := withOperandBytes (List.replicate 256 0x4F)

/-- An operand that ends one byte past buffer RAM. -/
def pastEnd : State := { idle with dec := { idle.dec with src := 4096, len := 1 } }

/-- One byte short of an ONFI parameter page. -/
def short255 : State := { idle with dec := { idle.dec with len := 255 } }

/-- One byte short of a vendor ID. -/
def short4 : State := { idle with dec := { idle.dec with len := 4 } }

/-- Each ground for a refusal, at its edge: the reserved operations. -/
theorem witness_DecoderRefuses : (decoderOp .decRsvd0 = some 0 ∧ refusedOp 0 idle) ∧
    (decoderOp .decRsvd7 = some 7 ∧ refusedOp 7 idle) := by
  unfold refusedOp; decide

theorem witness_DecoderRefuses_run : decoderOp .ddrchk = some 1 ∧ refusedOp 1 cmdRun := by
  unfold refusedOp; decide

theorem witness_DecoderRefuses_range : decoderOp (.patlen 4) = some 3 ∧ refusedOp 3 pastEnd := by
  unfold refusedOp; decide

theorem witness_DecoderRefuses_bound : decoderOp (.idext true) = some 4 ∧ refusedOp 4 initDone := by
  unfold refusedOp; decide

theorem witness_DecoderRefuses_onfi : decoderOp .onfidec = some 5 ∧ refusedOp 5 short255 := by
  unfold refusedOp; decide

theorem witness_DecoderRefuses_vendor : decoderOp .viddec = some 6 ∧ refusedOp 6 short4 := by
  unfold refusedOp; decide

theorem witness_DdrchkResult : ¬ refusedOp 1 fiveBytes ∧ written fiveBytes.mem fiveBytes.operandAt fiveBytes.dec.len.toNat := by
  unfold refusedOp written; decide

theorem witness_DdrfoldResult : 5 = fiveBytes.dec.len.toNat ∧ ¬ refusedOp 2 fiveBytes ∧
    written fiveBytes.mem fiveBytes.operandAt 5 := by
  unfold refusedOp written; decide

theorem witness_PatlenResult : ¬ refusedOp 3 fiveBytes ∧ written fiveBytes.mem fiveBytes.operandAt fiveBytes.dec.len.toNat := by
  unfold refusedOp written; decide

theorem witness_IdextResult : 5 = fiveBytes.dec.len.toNat ∧ ¬ refusedOp 4 fiveBytes ∧
    written fiveBytes.mem fiveBytes.operandAt 5 := by
  unfold refusedOp written; decide

theorem witness_OnfidecResult : ¬ refusedOp 5 page256 ∧ written page256.mem page256.operandAt 256 := by
  unfold refusedOp written; decide +kernel

theorem witness_ViddecResult : ¬ refusedOp 6 fiveBytes ∧ fiveBytes.mem.read (fiveBytes.operandAt + 2) = some 0x00 ∧
    fiveBytes.mem.read (fiveBytes.operandAt + 3) = some 0x95 ∧ fiveBytes.mem.read (fiveBytes.operandAt + 4) = some 0x40 := by
  unfold refusedOp; decide

/-! The machine -/

theorem witness_StepRunsDecoded : cmdRun.resetIn = false ∧ cmdRun.fsm = .running ∧
    cmdRun.status.step.toNat < cmdRun.effLen.toNat ∧
    decode .stepEntry cmdRun.fetched.bytes = .ok (.cmd 0x70 Timing.zero) ∧ cmdRun.port = [] ∧
    decode .decCtrl (bytesOfWord 0x00040003) = .ok (.patlen 4) ∧ decode .ctrl (bytesOfWord 0x2) = .ok .hookAck := by decide

theorem witness_StepRunsDecoded_port :
    (withPort [(1, .reset 0)] false cmdRun).port = (0 + 1, .reset 0) :: [] ∧
    (withPort [(0, .access (.write 4 0x090 1))] false idle).port = (0, .access (.write 4 0x090 1)) :: [] ∧
    (withPort [(0, .access (.write 4 0x090 1))] false idle).resetIn = false := by decide

theorem witness_ResetState : (withPort [(0, .reset 0)] false cmdRun).port = (0, .reset 0) :: [] ∧
    (withPort [(0, .reset 0)] false cmdRun).resetIn = false ∧
    ((withPort [] true idle).resetIn = true ∧ (withPort [] true idle).port = []) ∧
    ((withPort [(0, .release)] true idle).resetIn = true ∧
      (withPort [(0, .release)] true idle).port = (0, .release) :: []) := by decide

/-- RESET in the middle of a CMD step. -/
theorem witness_ResetState_inside : (withPort [(0, .reset 2)] false cmdRun).port = (0, .reset 2) :: [] ∧ 2 ≠ 0 ∧
    cmdRun.fsm = .running ∧ cmdRun.status.step.toNat < cmdRun.effLen.toNat ∧
    ∃ x new, exec cmdRun.fetched.instr (withPort [] false cmdRun) = .next x ∧ x.trace = new ++ cmdRun.trace :=
  ⟨rfl, by decide, rfl, by decide, _, [.latch .neutral, .wcyc .w8 0x70, .dir .write, .latch .cmd], rfl, by decide⟩

/-- A RAWW step with a PRE_DELAY and a ready wait, its buffer written up to byte 0 only; then with PAGE on a 16-bit
bus. -/
def delayedRaww (dataW16 : Bool) (size : Word) (after : Nat) : State :=
  { withPort [(0, .reset after)] false
      (running { entryOf 0xD 0 with t := { waits with pre := 7 } } false false) with
    dev := { idle.dev with dataW16 }
    xfer := State.reset.xfer.set 0 { XferRec.zero with intended := size, bufCap := 2 }
    mem := Memory.store [] Config.bufBase [0x11] }

theorem witness_ResetState_raw :
    ((delayedRaww false 3 3).port = (0, .reset 3) :: [] ∧ (delayedRaww false 3 3).resetIn = false ∧
      (delayedRaww false 3 3).fsm = .running ∧
      (delayedRaww false 3 3).status.step.toNat < (delayedRaww false 3 3).effLen.toNat ∧
      rawForm (delayedRaww false 3 3).fetched.instr = some (.write, 0, { waits with pre := 7 }) ∧
      (delayedRaww false 3 3).phase = .begin) ∧
    (pageOn16Bit (delayedRaww false 3 3).dev (delayedRaww false 3 3).xfer[(0 : Fin Config.numXfer)] = false ∧
      resolveSize (delayedRaww false 3 3).dev (delayedRaww false 3 3).xfer[(0 : Fin Config.numXfer)] ≠ 0 ∧
      rawReadyWait 0 { waits with pre := 7 } { delayedRaww false 3 3 with port := [] } ∧
      3 ≤ (headEvents .neutral { waits with pre := 7 } ++ readyEvents (delayedRaww false 3 3) { waits with pre := 7 } ++
        delayEvents 0).length) ∧
    (pageOn16Bit (delayedRaww true 0xFFFFFFFE 1).dev
        (delayedRaww true 0xFFFFFFFE 1).xfer[(0 : Fin Config.numXfer)] = true ∧
      ({ waits with pre := 7 } : Timing).pre ≠ 0) := by
  unfold rawReadyWait; decide

theorem witness_ResetState_held : ∀ rest, (withPort [] true idle).port ≠ (0, .release) :: rest := by
  intro rest h; cases h

/-- A state that meets the invariant while a run exists, with a validated step to run. -/
theorem witness_InvKept : cmdRun.Inv ∧ ∃ u, step cmdRun = .next u := by
  refine ⟨⟨by unfold chipSelectsExist; decide, by unfold readyLinesExist; decide, by unfold deviceStateNamed; decide,
    by unfold doneOnlyWhenIdle; decide, by unfold respProduced; decide, by unfold strobesAtRest; decide,
    by unfold effFull; decide, ?_, by unfold stepInChain; decide, by unfold curShowsStep; decide,
    by unfold hookAtStep; decide, ⟨fun h => absurd rfl h, fun h => absurd h (by decide)⟩,
    by unfold memoryCanonical; decide⟩, _, rfl⟩
  unfold chainValidated; decide

theorem witness_NoElementOutsideBuffer : cmdRun.Inv := witness_InvKept.1

/-- A step with nothing arriving brings no reset. -/
theorem noReset_of_empty {s : State} (h : s.resetIn = false) (hp : s.port = []) : noReset s :=
  ⟨h, fun _ _ e => by rw [hp] at e; cases e⟩

theorem witness_TimeCountsTicks : noReset cmdRun ∧ ∃ u, step cmdRun = .next u :=
  ⟨noReset_of_empty rfl rfl, _, rfl⟩

/-- An idle clock edge, with nothing at all to come and with an access a step away. -/
theorem witness_TimeCountsTicks_idle : idle.resetIn = false ∧ idle.fsm ≠ .running ∧
    idle.clk.env.drawRb = (0xF, idle.clk.env) ∧ idle.port = [] ∧
    (withPort [(1, .access (.read 4 0))] false idle).port = (0 + 1, .access (.read 4 0)) :: [] := by decide

theorem witness_RunKeepsItsSetup : noReset cmdRun ∧ cmdRun.busy = true ∧ ∃ u, step cmdRun = .next u :=
  ⟨noReset_of_empty rfl rfl, by decide, _, rfl⟩

theorem witness_RunEndsByFinish : noReset atEnd ∧ atEnd.busy = true ∧ ∃ u, step atEnd = .next u ∧ u.busy = false :=
  ⟨noReset_of_empty rfl rfl, by decide, _, rfl, by decide⟩

theorem witness_BytesCountCycles : (controlForm cmdRun.dev (.cmd 0x70 Timing.zero)).isSome = true ∧
    (rawForm (.raww 3 Timing.zero)).isSome = true ∧ answers (exec (.cmd 0x70 Timing.zero) cmdRun) = true := by decide

theorem witness_DescriptorRamOnlyRead : answers (exec (.ddrfold 0) fiveBytes) = true ∧ 0x1000 < Config.bufBase := by decide

end Sys2Proof.Tests
end

/-! ### Deadlines (R143, R144) -/

namespace Sys2Proof.Machine

/-- What a deadline lies ahead of the time it was set at, whatever the wrap of TIME in between. -/
theorem deadlineFrom_sub_time (time : BitVec 64) (t : Word) : deadlineFrom time t - time = t.setWidth 64 := by
  rw [deadlineFrom, BitVec.add_comm, BitVec.add_sub_cancel]

/-- The clamp of R143: the natural number kept of the signed difference is its positive part. -/
theorem remaining_eq_posPart (d time : BitVec 64) :
    (remaining d time : Int) = if 0 < (d - time).toInt then (d - time).toInt else 0 := by
  unfold remaining
  split
  next hpos => exact Int.toNat_of_nonneg (Int.le_of_lt hpos)
  next hpos => rw [Int.toNat_of_nonpos (Int.not_lt.mp hpos)]; rfl

/-- R144: the wrap cancels in the difference, and below 2^63 the sign bit is clear. -/
theorem remaining_add_time (time x : BitVec 64) (hx : x.toNat < 2 ^ 63) :
    remaining (time + x) time = x.toNat := by
  rw [remaining_eq, BitVec.add_comm, BitVec.add_sub_cancel, if_pos hx]

/-- A deadline the NCS forms is a word of nanoseconds ahead. -/
theorem deadlineFrom_sub_time_lt (time : BitVec 64) (t : Word) : (deadlineFrom time t - time).toNat < 2 ^ 32 := by
  rw [deadlineFrom_sub_time, BitVec.toNat_setWidth_of_le (by decide)]
  exact t.isLt

/-- Settles O6: the clamp, the exactness below 2^63 ns and the bound on `deadlineFrom`, each by its own lemma. -/
theorem remainingExact : Obligations.RemainingExact :=
  ⟨remaining_eq_posPart, remaining_add_time, deadlineFrom_sub_time_lt⟩

end Sys2Proof.Machine

/-! ### Address cycles (R202 to R205) -/

namespace Sys2Proof.Machine

@[simp] theorem length_addressBytes (x : Word) (n : Nat) : (addressBytes x n).length = n := by
  simp [addressBytes]

theorem getElem?_addressBytes (x : Word) {j n : Nat} (h : j < n) : (addressBytes x n)[j]? = some (abyte x j) := by
  simp [addressBytes, h]

theorem length_controlValues (bs : List Byte) : (controlValues bs).length = bs.length := by
  simp [controlValues]

/-- R203, R207: what a cycle carries of byte `j`, in the arithmetic of the value: the shift divides, the byte's
width is the remainder by 256, and the wider cycle adds nothing to it. -/
theorem setWidth_abyte (x : Word) (j : Nat) : (abyte x j).setWidth 16 =
    if j < 4 then BitVec.ofNat 16 (x.toNat / 2 ^ (8 * j) % 256) else 0 := by
  unfold abyte
  split
  next =>
    apply BitVec.eq_of_toNat_eq
    simp [Nat.shiftRight_eq_div_pow]
  next => rfl

/-- Cycle `j` of a value sent in `n` cycles. -/
theorem getElem?_controlValues_addressBytes (x : Word) {j n : Nat} (h : j < n) :
    (controlValues (addressBytes x n))[j]? =
      some (if j < 4 then BitVec.ofNat 16 (x.toNat / 2 ^ (8 * j) % 256) else 0) := by
  rw [controlValues, List.getElem?_map, getElem?_addressBytes x h, Option.map_some, setWidth_abyte]

/-- The column's part of an address step is as long as COL_CYCLES asks, so the row's part begins there. -/
theorem length_controlValues_columnCycles (d : Device) (col : Word) :
    (controlValues (columnCycles d col)).length = d.colCycles.toNat := by
  rw [length_controlValues, columnCycles, length_addressBytes]

theorem length_controlValues_rowCycles (d : Device) (row : Word) :
    (controlValues (rowCycles d row)).length = d.rowCycles.toNat := by
  rw [length_controlValues, rowCycles, length_addressBytes]

/-- R202: the cycles of ADDR are those of ADDRC and then those of ADDRR. -/
theorem controlForm_addr (d : Device) (col row : Word) (t : Timing) : controlForm d (.addr col row t) =
    some (.addr, controlValues (columnCycles d col) ++ controlValues (rowCycles d row), t) := by
  simp [controlForm, controlValues]

theorem controlForm_addrc (d : Device) (col : Word) (t : Timing) :
    controlForm d (.addrc col t) = some (.addr, controlValues (columnCycles d col), t) := rfl

theorem controlForm_addrr (d : Device) (row : Word) (t : Timing) :
    controlForm d (.addrr row t) = some (.addr, controlValues (rowCycles d row), t) := rfl

/-- Settles O31: the list of ADDR is the column's part followed by the row's part, cut at COL_CYCLES, and each part
carries its value's bytes in order. (The model's list `addressBytes` already has the obligation's own name.) -/
theorem addressBytes_sent : Obligations.AddressBytes := by
  intro d col row t
  have hcol := length_controlValues_columnCycles d col
  have hrow := length_controlValues_rowCycles d row
  refine ⟨_, controlForm_addr d col row t, ?addrc, ?addrr, ?length, ?column, ?row⟩
  case addrc => rw [List.take_left' hcol, controlForm_addrc]
  case addrr => rw [List.drop_left' hcol, controlForm_addrr]
  case length => rw [List.length_append, hcol, hrow]
  case column =>
    intro j hj
    rw [List.getElem?_append_left (hcol.symm ▸ hj)]
    exact getElem?_controlValues_addressBytes col hj
  case row =>
    intro j hj
    rw [List.getElem?_append_right (by omega), hcol, Nat.add_sub_cancel_left]
    exact getElem?_controlValues_addressBytes row hj

end Sys2Proof.Machine

namespace Sys2Proof.Machine

/-! ### Decode of encode (R122, R124, R125) -/

/-- The bytes of an instruction are read back as its words, so the decoder on bytes is the decoder on words. -/
theorem decode_encodeBytes (i : Instr) :
    decode (encode i).1 (encodeBytes i) = decodeWords (encode i).1 (encode i).2 := by
  rw [decode, encodeBytes, wordsOfBytes_flatMap]

@[simp] theorem payloadByte_setWidth (b : Byte) : payloadByte (b.setWidth 32) = b := by
  apply BitVec.eq_of_toNat_eq
  simp [payloadByte]
  omega

@[simp] theorem payloadXfer_setWidth (k : BitVec 3) : payloadXfer (k.setWidth 32) = k := by
  apply BitVec.eq_of_toNat_eq
  simp [payloadXfer]
  omega

/-- DEC_CTRL with a filler: OP is in the three low bits, FILLER in its own byte (R55). -/
theorem decodeDec_ddrfold (f : Byte) : decodeDec (f.setWidth 32 <<< 8 ||| 2) = .ddrfold f := by
  have hop : opOf (f.setWidth 32 <<< 8 ||| 2) = 2 := by
    apply BitVec.eq_of_getLsbD_eq
    intro i hi
    interval_cases i <;> simp [opOf]
  have hfiller : fillerOf (f.setWidth 32 <<< 8 ||| 2) = f := by
    apply BitVec.eq_of_getLsbD_eq
    intro i hi
    interval_cases i <;> simp [fillerOf]
  simp only [decodeDec, hop, hfiller]
  rfl

theorem decodeDec_patlen (m : Byte) : decodeDec (m.setWidth 32 <<< 16 ||| 3) = .patlen m := by
  have hop : opOf (m.setWidth 32 <<< 16 ||| 3) = 3 := by
    apply BitVec.eq_of_getLsbD_eq
    intro i hi
    interval_cases i <;> simp [opOf]
  have hperiod : minPeriodOf (m.setWidth 32 <<< 16 ||| 3) = m := by
    apply BitVec.eq_of_getLsbD_eq
    intro i hi
    interval_cases i <;> simp [minPeriodOf]
  simp only [decodeDec, hop, hperiod]
  rfl

theorem decodeDec_idext (d : Bool) : decodeDec (ofBit 32 d <<< 3 ||| 4) = .idext d := by
  cases d <;> rfl

/-- Settles O1: on the words the encoder writes, each format's decoder finds the constructor by KIND, OP or the CTRL
bit, and every operand in its own field. -/
theorem decodeEncode : Obligations.DecodeEncode := by
  intro i
  rw [decode_encodeBytes]
  cases i with
  | cmd b t => exact congrArg (fun b => Except.ok (Instr.cmd b t)) (payloadByte_setWidth b)
  | addr1 b t => exact congrArg (fun b => Except.ok (Instr.addr1 b t)) (payloadByte_setWidth b)
  | raww k t => exact congrArg (fun k => Except.ok (Instr.raww k t)) (payloadXfer_setWidth k)
  | rawr k t => exact congrArg (fun k => Except.ok (Instr.rawr k t)) (payloadXfer_setWidth k)
  | ddrfold f => exact congrArg Except.ok (decodeDec_ddrfold f)
  | patlen m => exact congrArg Except.ok (decodeDec_patlen m)
  | idext d => exact congrArg Except.ok (decodeDec_idext d)
  | _ => rfl

end Sys2Proof.Machine

namespace Sys2Proof.Machine

/-! ### What a step entry and a START can do (R118, R122, R170, R171) -/

/-- The instruction of a step entry is a step of the chain, or one that no chain may hold (R118, R122). -/
theorem StepEntry.instr_kinds (e : StepEntry) (d : Device) :
    ((controlForm d e.instr).isSome = true ∨ (rawForm e.instr).isSome = true ∨ e.instr = .hole) ∨
    (e.instr = .illegalKind7 ∨ ∃ k t, (e.instr = .raww k t ∨ e.instr = .rawr k t) ∧ recordIndex k = none) := by
  change (_ ∨ _ ∨ decodeStep e.w0 e.w1 e.w2 e.t = _) ∨ _
  rcases decodeStep_kinds e.w0 e.w1 e.w2 e.t with hhole | hill | hctl | ⟨k, t, hraw⟩
  · exact .inl (.inr (.inr hhole))
  · exact .inr (.inl hill)
  · exact .inl (.inl (hctl d))
  · cases hk : recordIndex k with
    | none => exact .inr (.inr ⟨k, t, hraw, hk⟩)
    | some j =>
      refine .inl (.inr (.inl ?_))
      rcases hraw with h | h <;> simp [StepEntry.instr, h, rawForm, hk]

theorem fillEff_length {p : RunPlan} {chain : List StepEntry} {e : EffChain} (h : chain.length ≤ e.steps.length) :
    (fillEff p chain e).steps.length = e.steps.length := by
  simp only [fillEff, List.length_append, List.length_drop]
  omega

/-- A LENGTH that fits MAX_STEPS is what EFF_LEN holds (R33). -/
theorem toNat_ofNat_length {n : Nat} (h : n ≤ Config.maxSteps) : (BitVec.ofNat 8 n).toNat = n := by
  rw [BitVec.toNat_ofNat]
  exact Nat.mod_eq_of_lt (by simp only [Config.maxSteps] at h; omega)

/-- What START can do (R170, R171): nothing while a run exists; a run rejected, EFF as long as it was; or a run
accepted with a chain that validation let through. -/
inductive StartEffect (s u : State) : Prop
  | ignored (hb : s.busy = true) (e : u = s)
  | rejected (hb : s.busy = false) (r : Resp) (len : BitVec 8) (eff : EffChain)
      (hr : r = .cmdInvalid ∨ r = .chainTooLong) (heff : effFull s → eff.steps.length = Config.maxSteps)
      (e : u = rejectRun r { beginRun s with effLen := len, eff := eff })
  | accepted (hb : s.busy = false) (p : RunPlan) (chain : List StepEntry) (hp : p.length ≤ Config.maxSteps)
      (hl : s.runCfg.lun.toNat < s.dev.luns) (hc : chain.length = p.length)
      (ha : chain.all (stepAcceptable s.dev s.xfer) = true)
      (e : u = enterLoop { beginRun s with effLen := BitVec.ofNat 8 p.length, eff := fillEff p chain s.eff })

theorem start_effect {s u : State} (h : exec .start s = .next u) : StartEffect s u := by
  cases hb : s.busy with
  | true =>
    rw [start_busy hb] at h
    cases h
    exact .ignored hb rfl
  | false =>
    obtain ⟨r, s', hv, hu⟩ := start_next hb h
    rcases validateAndMerge_cases hv with ⟨-, rfl, rfl⟩ | ⟨p, -, hp⟩
    · obtain ⟨x, hx, rfl⟩ | ⟨hx, -⟩ := hu
      · cases hx
        exact .rejected hb _ 0 s.eff (.inl rfl) id rfl
      · cases hx
    · rcases hp with ⟨-, rfl, rfl⟩ | ⟨-, -, rfl, rfl⟩ | ⟨hp, hl, chain, hm, rfl, rfl⟩
      · obtain ⟨x, hx, rfl⟩ | ⟨hx, -⟩ := hu
        · cases hx
          exact .rejected hb _ _ s.eff (.inr rfl) id rfl
        · cases hx
      · obtain ⟨x, hx, rfl⟩ | ⟨hx, -⟩ := hu
        · cases hx
          exact .rejected hb _ _ s.eff (.inl rfl) id rfl
        · cases hx
      · have hlen := (mergeFrom_ok hm).1
        split at hu
        · next hall =>
          obtain ⟨x, hx, -⟩ | ⟨-, rfl⟩ := hu
          · cases hx
          · exact .accepted hb p chain hp hl hlen hall rfl
        · obtain ⟨x, hx, rfl⟩ | ⟨hx, -⟩ := hu
          · cases hx
            refine .rejected hb _ _ _ (.inl rfl) (fun hfull => ?_) rfl
            have hfull' : s.eff.steps.length = Config.maxSteps := hfull
            exact (fillEff_length (e := s.eff) (by rw [hlen, hfull']; exact hp)).trans hfull'
          · cases hx

/-! ### Lists of CTRL commands (R26) -/

/-- A list of instructions that answers a next state did so one by one; what each of them keeps, all keep. -/
theorem execAll_keeps {P : State → State → Prop} (hrefl : ∀ s, P s s)
    (htrans : ∀ a b c, P a b → P b c → P a c) {is : List Instr}
    (hone : ∀ i ∈ is, ∀ s u, exec i s = .next u → P s u) :
    ∀ {s u : State}, execAll is s = .next u → P s u := by
  induction is with
  | nil =>
    intro s u h
    cases h
    exact hrefl s
  | cons i is ih =>
    intro s u h
    rw [execAll] at h
    split at h
    · next x hx =>
      exact htrans _ _ _ (hone i (by simp) _ _ hx) (ih (fun j hj => hone j (List.mem_cons_of_mem _ hj)) h)
    · cases h
    · cases h

/-! ### The passing of time (R140) -/

theorem tickOnce_later (s : State) : s.clk.Later (tickOnce s).clk := (Clk.edge_quiet s.clk).toLater

theorem endRun_later (s : State) : s.clk.Later (endRun s).clk :=
  ((Clk.pass_quiet _).trans (Clk.pass_quiet _)).toLater

theorem start_later {s u : State} (h : exec .start s = .next u) : s.clk.Later u.clk := by
  cases start_effect h with
  | ignored _ e => rw [e]; exact Clk.Later.refl _
  | rejected _ r len eff _ _ e => rw [e]; exact (Clk.pass_quiet s.clk).toLater
  | accepted _ p chain _ _ _ _ e =>
    obtain ⟨c, hc, q⟩ :=
      enterLoop_spec { beginRun s with effLen := BitVec.ofNat 8 p.length, eff := fillEff p chain s.eff }
    rw [e, hc]
    exact q.toLater

theorem command_later {i : Instr} (hi : i = .start ∨ i = .hookAck ∨ i = .doneClr) {s u : State}
    (h : exec i s = .next u) : s.clk.Later u.clk := by
  rcases hi with rfl | rfl | rfl
  · exact start_later h
  · obtain ⟨-, rfl⟩ | ⟨-, rfl⟩ := hookAck_next h <;> exact Clk.Later.refl _
  · obtain rfl | ⟨-, rfl⟩ := doneClr_next h <;> exact Clk.Later.refl _

theorem putReg_later (r : Reg) (v : Word) (s : State) : s.clk.Later (putReg r v s).clk := by
  cases r with
  | pinCtrl =>
    obtain ⟨p, c, tr, e, q, -, -⟩ := drivePins_spec v s
    change s.clk.Later (drivePins v s).clk
    rw [e]
    exact q.toLater
  | _ => exact Clk.Later.refl _

/-- Whatever a host access does, only time passes for the clock. -/
theorem HostEffect.later {s u : State} (h : HostEffect s u) : s.clk.Later u.clk := by
  cases h with
  | commands is hi e =>
    exact execAll_keeps (P := fun a b => a.clk.Later b.clk) (fun _ => Clk.Later.refl _)
      (fun _ _ _ => Clk.Later.trans) (fun i hm _ _ hx => command_later (hi i hm) hx) e
  | decoder i op ho e => exact (exec_dec ho e).clk.toLater
  | register r v _ _ _ e => rw [e]; exact putReg_later r v s
  | ram off v _ e => rw [e]; exact Clk.Later.refl _
  | quiet e => rw [e]; exact Clk.Later.refl _

/-- A step entry, whether a chain may hold it or not, only lets time pass for the clock. -/
theorem exec_entry_later {e : StepEntry} {s u : State} (h : exec e.instr s = .next u) : s.clk.Later u.clk := by
  rcases e.instr_kinds s.dev with hstep | hill
  · exact (exec_step_frame hstep h).clk
  · rw [exec_illegal hill] at h
    cases h
    exact (Clk.pass_quiet _).toLater

/-- A step that is no reset only lets time pass for the clock (R140). -/
theorem step_later {s u : State} (hn : noReset s) (h : step s = .next u) : s.clk.Later u.clk := by
  obtain ⟨port, hcases⟩ := step_cases hn h
  rcases hcases _ rfl with heff | ⟨-, rfl⟩ | ⟨-, -, hexec⟩ | ⟨-, -, rfl⟩
  · exact (tickOnce_later _).trans heff.later
  · exact tickOnce_later { s with port := port }
  · exact (exec_entry_later hexec :)
  · exact endRun_later { s with port := port }

/-- Nothing arriving, a machine that is not running lets one clock edge pass (R3, R186). -/
theorem agentStep_tick {s : State} (h : s.fsm ≠ .running) : agentStep s = .next (tickOnce s) := by
  unfold agentStep
  split
  · next hf => exact absurd hf h
  · rfl
  · rfl

theorem step_empty {s : State} (hr : s.resetIn = false) (hp : s.port = []) : step s = agentStep s := by
  simp only [step, machineStep, hr, hp, Bool.false_eq_true, if_false]

theorem step_waiting {s : State} {n : Nat} {x : HostInput} {rest : List (Nat × HostInput)} (hr : s.resetIn = false)
    (hp : s.port = (n + 1, x) :: rest) : step s = agentStep { s with port := (n, x) :: rest } := by
  simp only [step, machineStep, hr, hp, Bool.false_eq_true, if_false]

theorem step_access {s : State} {a : HostAccess} {rest : List (Nat × HostInput)} (hr : s.resetIn = false)
    (hp : s.port = (0, .access a) :: rest) : step s = takeAccess a { s with port := rest } := by
  simp only [step, machineStep, hr, hp, Bool.false_eq_true, if_false]

theorem step_reset {s : State} {n : Nat} {rest : List (Nat × HostInput)} (hr : s.resetIn = false)
    (hp : s.port = (0, .reset n) :: rest) : step s = takeReset n { s with port := rest } := by
  simp only [step, machineStep, hr, hp, Bool.false_eq_true, if_false]

/-- One clock edge, by the level drawn for it (R72, R140). -/
theorem Clk.edge_of_draw {c : Clk} {level : Half} {env : Env} (h : c.env.drawRb = (level, env)) :
    c.edge = { c with time := c.time + BitVec.ofNat 64 c.tick, rbSync := c.rbFirst
                      rbFirst := level &&& 0x000F, env := env } := by
  unfold Clk.edge
  rw [h]
  rfl

/-- Settles O56: an idle step is one edge, and every operation a step is made of moves the clock by `Clk.Later`. -/
theorem timeCountsTicks : Obligations.TimeCountsTicks := by
  refine ⟨fun s level env c hr hf hd hc => ⟨fun hp => ?_, fun n x rest hp => ?_⟩, fun s u hn h => ?_⟩
  · rw [step_empty hr hp, agentStep_tick hf, hc, ← Clk.edge_of_draw hd]
    rfl
  · rw [step_waiting hr hp, agentStep_tick (s := { s with port := (n, x) :: rest }) hf, hc, ← Clk.edge_of_draw hd]
    rfl
  · have hl := step_later hn h
    exact ⟨hl.tick, hl.lines, hl.steady⟩

end Sys2Proof.Machine

namespace Sys2Proof.Machine

/-! ### A host access while a run exists (R74, R75, R76) -/

theorem busy_of_running {s : State} (h : s.fsm = .running) : s.busy = true := by simp [State.busy, h]

theorem busy_of_hookWait {s : State} (h : s.fsm = .hookWait) : s.busy = true := by simp [State.busy, h]

theorem not_busy_iff {s : State} : s.busy = false ↔ s.fsm = .idle := by simp [State.busy]

theorem busy_congr {s u : State} (h : u.fsm = s.fsm) : u.busy = s.busy := by simp [State.busy, h]

/-- What a CTRL command can do while a run exists: HOOK_ACK resumes the sequencer, the others do nothing. -/
def OnlyResumes (s u : State) : Prop := s.busy = true → u.busy = true ∧ u = { s with fsm := u.fsm }

theorem command_resumes {i : Instr} (hi : i = .start ∨ i = .hookAck ∨ i = .doneClr) {s u : State}
    (h : exec i s = .next u) : OnlyResumes s u := by
  intro hb
  rcases hi with rfl | rfl | rfl
  · rw [start_busy hb] at h
    cases h
    exact ⟨hb, rfl⟩
  · obtain ⟨-, rfl⟩ | ⟨-, rfl⟩ := hookAck_next h
    · exact ⟨busy_of_running rfl, rfl⟩
    · exact ⟨hb, rfl⟩
  · obtain rfl | ⟨hidle, -⟩ := doneClr_next h
    · exact ⟨hb, rfl⟩
    · rw [hb] at hidle
      cases hidle

theorem execAll_resumes {is : List Instr}
    (hi : ∀ i ∈ is, i = .start ∨ i = .hookAck ∨ i = .doneClr) {s u : State}
    (h : execAll is s = .next u) : OnlyResumes s u := by
  refine execAll_keeps (P := OnlyResumes) (fun s hb => ⟨hb, rfl⟩) (fun a b c hab hbc hb => ?_)
    (fun i hm s u => command_resumes (hi i hm)) h
  obtain ⟨hb', e⟩ := hab hb
  obtain ⟨hc, e'⟩ := hbc hb'
  exact ⟨hc, by rw [e', e]⟩

/-- A host access does not end a run. -/
theorem HostEffect.busy {s u : State} (hb : s.busy = true) (h : HostEffect s u) : u.busy = true := by
  cases h with
  | commands is hi e => exact (execAll_resumes hi e hb).1
  | decoder i op ho e => rw [busy_congr (exec_dec ho e).fsm, hb]
  | register r v hw h1 h2 e =>
    rw [e]
    rcases putReg_busy (v := v) hb hw h1 h2 with e' | ⟨k, e'⟩ <;> rw [e'] <;> exact hb
  | ram off v hp e => rw [e]; exact hb
  | quiet e => rw [e]; exact hb

/-! ### What a run is set up with (R74, R184, R213) -/

/-- What no step of a run may change: the device and its decoded parameters, RUN_CFG, the effective chain, each
record's hint and buffer, write protect, and the chip selects but the target's. -/
structure SetupKept (s u : State) : Prop where
  dev : u.dev = s.dev := by rfl
  onfi : u.onfi = s.onfi := by rfl
  vid : u.vid = s.vid := by rfl
  runCfg : u.runCfg = s.runCfg := by rfl
  eff : u.eff = s.eff := by rfl
  effLen : u.effLen = s.effLen := by rfl
  xfer : ∀ k : Fin Config.numXfer, u.xfer[k].hint = s.xfer[k].hint ∧ u.xfer[k].bufBase = s.xfer[k].bufBase ∧
    u.xfer[k].bufCap = s.xfer[k].bufCap := by exact fun _ => ⟨rfl, rfl, rfl⟩
  wp : u.pins.wp = s.pins.wp := by rfl
  cs : ∀ l, l ≠ s.runCfg.lun.toNat → u.pins.cs.getLsbD l = s.pins.cs.getLsbD l := by exact fun _ _ => rfl

theorem SetupKept.trans {a b c : State} (h : SetupKept a b) (g : SetupKept b c) : SetupKept a c where
  dev := g.dev.trans h.dev
  onfi := g.onfi.trans h.onfi
  vid := g.vid.trans h.vid
  runCfg := g.runCfg.trans h.runCfg
  eff := g.eff.trans h.eff
  effLen := g.effLen.trans h.effLen
  xfer k :=
    ⟨(g.xfer k).1.trans (h.xfer k).1, (g.xfer k).2.1.trans (h.xfer k).2.1, (g.xfer k).2.2.trans (h.xfer k).2.2⟩
  wp := g.wp.trans h.wp
  cs l hl := (g.cs l (by rw [h.runCfg]; exact hl)).trans (h.cs l hl)

theorem Frame.setup {s u : State} (h : Frame s u) : SetupKept s u where
  dev := h.dev
  onfi := h.onfi
  vid := h.vid
  runCfg := h.runCfg
  eff := h.eff
  effLen := h.effLen
  xfer := h.xfer
  wp := h.wp
  cs l _ := by rw [h.cs]

/-- The write a raw hook allows leaves the sequencer and the buffers alone (R75). -/
theorem setIntended_during (k : Fin Config.numXfer) (v : Word) (s : State) :
    During s (s.setXfer k (fun x => { x with intended := v })) :=
  setXfer_during k (fun x => { x with intended := v }) s fun _ => ⟨rfl, rfl, rfl⟩

theorem HostEffect.setup {s u : State} (hb : s.busy = true) (h : HostEffect s u) : SetupKept s u := by
  cases h with
  | commands is hi e => rw [(execAll_resumes hi e hb).2]; exact {}
  | decoder i op ho e =>
    have hf := exec_dec ho e
    obtain ⟨hdev, honfi, hvid, -⟩ := hf.busy hb
    exact { dev := hdev, onfi := honfi, vid := hvid, runCfg := hf.runCfg, eff := hf.eff, effLen := hf.effLen
            xfer := fun k => by rw [hf.xfer]; exact ⟨rfl, rfl, rfl⟩
            wp := by rw [hf.pins]
            cs := fun l _ => by rw [hf.pins] }
  | register r v hw h1 h2 e =>
    rw [e]
    rcases putReg_busy (v := v) hb hw h1 h2 with e' | ⟨k, e'⟩ <;> rw [e']
    · exact {}
    · exact (setIntended_during k v s).setup
  | ram off v hp e => rw [e]; exact {}
  | quiet e => rw [e]; exact {}

/-- The end of the loop moves the target's chip select and no other (R176, R179). -/
theorem endRun_setup (s : State) : SetupKept s (endRun s) where
  cs l hl := by
    change (setLine s.pins.cs s.runCfg.lun.toNat false).getLsbD l = _
    rw [setLine_getLsbD, if_neg (fun hc => hl hc.1)]

theorem exec_entry_setup {e : StepEntry} {s u : State} (h : exec e.instr s = .next u) : SetupKept s u := by
  rcases e.instr_kinds s.dev with hstep | hill
  · exact (exec_step_frame hstep h).setup
  · rw [exec_illegal hill] at h
    cases h
    exact {}

/-- Settles O57: a host access keeps the set-up while BUSY, a step of the chain by its frame, and the end of the run
moves only the target's chip select. -/
theorem runKeepsItsSetup : Obligations.RunKeepsItsSetup := by
  intro s u hn hb h
  suffices hk : SetupKept s u from
    ⟨hk.dev, hk.onfi, hk.vid, hk.runCfg, hk.eff, hk.effLen, hk.xfer, hk.wp, hk.cs⟩
  obtain ⟨port, hcases⟩ := step_cases hn h
  have hz : SetupKept s { s with port := port } := {}
  rcases hcases _ rfl with heff | ⟨-, rfl⟩ | ⟨-, -, hexec⟩ | ⟨-, -, rfl⟩
  · have htick : SetupKept s (tickOnce { s with port := port }) := {}
    exact htick.trans (heff.setup hb)
  · exact {}
  · exact hz.trans (exec_entry_setup hexec)
  · exact hz.trans (endRun_setup _)

/-! ### How a run ends (R97, R320, R337) -/

/-- The machine is idle after `finish`: DONE, and the newest event a FINISH with RESP and BYTES. -/
def FinishedBy (u : State) : Prop :=
  u.status.done = true ∧ ∃ before, u.trace = .finish u.status.resp u.bytes :: before

theorem finish_finished (r : Resp) (n : Word) (s : State) : FinishedBy (finish r n s) := ⟨rfl, s.trace, rfl⟩

theorem StepEnds.busy_or_finished {raw : Bool} {s m u : State} (h : StepEnds raw s m u) (hb : m.busy = true) :
    u.busy = true ∨ FinishedBy u := by
  rcases h with rfl | ⟨kind, chunk, -, rfl⟩ | rfl
  · exact .inl hb
  · exact .inl (busy_of_hookWait rfl)
  · exact .inr (finish_finished _ _ _)

theorem exec_entry_busy_or_finished {e : StepEntry} {s u : State} (hb : s.busy = true)
    (h : exec e.instr s = .next u) : u.busy = true ∨ FinishedBy u := by
  rcases e.instr_kinds s.dev with hstep | hill
  · obtain ⟨hx, m, hm, hends, -, -⟩ := exec_step_ends hstep h
    exact hends.busy_or_finished ((busy_congr hm.fsm).trans hb)
  · rw [exec_illegal hill] at h
    cases h
    exact .inr (finish_finished _ _ _)

/-- Settles O58: a host access and an edge leave BUSY set, and each other end of a run is `finish`. -/
theorem runEndsByFinish : Obligations.RunEndsByFinish := by
  intro s u hn hb h hidle
  suffices hor : u.busy = true ∨ FinishedBy u by
    rcases hor with hbusy | hfin
    · rw [hidle] at hbusy
      cases hbusy
    · exact hfin
  obtain ⟨port, hcases⟩ := step_cases hn h
  rcases hcases _ rfl with heff | ⟨-, rfl⟩ | ⟨-, -, hexec⟩ | ⟨-, -, rfl⟩
  · exact .inl (HostEffect.busy (s := tickOnce { s with port := port }) hb heff)
  · exact .inl hb
  · exact exec_entry_busy_or_finished (s := { s with port := port }) hb hexec
  · exact .inr (finish_finished _ _ _)

/-! ### What a step counts, and what no instruction writes (R32, R69, R174) -/

/-- Settles O59: the count is part of the frame that every step of the chain keeps. -/
theorem bytesCountCycles : Obligations.BytesCountCycles := fun _ _ _ hi h => (exec_step_frame hi h).count

/-- The bytes of descriptor RAM read as before. -/
def DescKept (s u : State) : Prop := ∀ a, a < Config.bufBase → u.mem.read a = s.mem.read a

theorem DescKept.of_mem {s u : State} (h : u.mem = s.mem) : DescKept s u := fun a _ => by rw [h]

theorem start_mem {s u : State} (h : exec .start s = .next u) : u.mem = s.mem := by
  cases start_effect h with
  | ignored _ e => rw [e]
  | rejected _ r len eff _ _ e => rw [e]; rfl
  | accepted _ p chain _ _ _ _ e => rw [e]; rfl

/-- Settles O60: by the kinds of instruction; only RAWR and the decoder write RAM, and only buffer RAM. -/
theorem descriptorRamOnlyRead : Obligations.DescriptorRamOnlyRead := by
  intro i s u h
  rcases exec_kinds i s.dev with hctl | hraw | hhole | hill | ⟨op, hop⟩ | rfl | rfl | rfl
  · exact (exec_step_frame (.inl hctl) h).desc
  · exact (exec_step_frame (.inr (.inl hraw)) h).desc
  · exact (exec_step_frame (.inr (.inr hhole)) h).desc
  · rw [exec_illegal hill] at h
    cases h
    exact DescKept.of_mem rfl
  · exact (exec_dec hop h).desc
  · exact DescKept.of_mem (start_mem h)
  · obtain ⟨-, rfl⟩ | ⟨-, rfl⟩ := hookAck_next h <;> exact DescKept.of_mem rfl
  · obtain rfl | ⟨-, rfl⟩ := doneClr_next h <;> exact DescKept.of_mem rfl

end Sys2Proof.Machine

namespace Sys2Proof.Machine

/-! ### Where the invariant comes from -/

/-- What keeps the invariant whole: everything it speaks of is as before, but for pins that stay in their bounds and
time that passes. -/
structure SameRun (s u : State) : Prop where
  status : u.status = s.status := by rfl
  fsm : u.fsm = s.fsm := by rfl
  phase : u.phase = s.phase := by rfl
  runCfg : u.runCfg = s.runCfg := by rfl
  effLen : u.effLen = s.effLen := by rfl
  cur : u.cur = s.cur := by rfl
  dev : u.dev = s.dev := by rfl
  eff : u.eff = s.eff := by rfl
  hookXfer : u.hookXfer = s.hookXfer := by rfl
  cs : u.pins.cs = s.pins.cs := by rfl
  rest : strobesAtRest s → strobesAtRest u := by exact id
  xfer : ∀ k : Fin Config.numXfer, u.xfer[k].bufBase = s.xfer[k].bufBase ∧ u.xfer[k].bufCap = s.xfer[k].bufCap := by
    exact fun _ => ⟨rfl, rfl⟩
  clk : s.clk.Later u.clk := by exact Clk.Later.refl _
  wf : s.mem.wf = true → u.mem.wf = true := by exact id

theorem During.sameRun {s u : State} (h : During s u) : SameRun s u :=
  { h with xfer := fun k => ⟨(h.xfer k).2.1, (h.xfer k).2.2⟩ }

/-- Validation goes by the device's bus width and the records' buffers (R171). -/
theorem stepAcceptable_congr {d : Device} {xs ys : Vector XferRec Config.numXfer}
    (h : ∀ k : Fin Config.numXfer, ys[k].bufBase = xs[k].bufBase ∧ ys[k].bufCap = xs[k].bufCap) (e : StepEntry) :
    stepAcceptable d ys e = stepAcceptable d xs e := by
  have hrec : ∀ k, recordFits d ys k = recordFits d xs k := by
    intro k
    unfold recordFits
    cases recordIndex k with
    | none => rfl
    | some j =>
      obtain ⟨hb, hc⟩ := h j
      simp only [bufferFits, hb, hc]
  simp only [stepAcceptable, hrec]

theorem SameRun.inv {s u : State} (hs : s.Inv) (h : SameRun s u) : u.Inv := by
  have hb : u.busy = s.busy := busy_congr h.fsm
  have hf : u.fetched = s.fetched := by rw [State.fetched, h.eff, h.status]; rfl
  exact
    { cs := by rw [chipSelectsExist, h.cs]; exact hs.cs
      rb := h.clk.lines hs.rb
      dev := by rw [deviceStateNamed, h.dev]; exact hs.dev
      done := by rw [doneOnlyWhenIdle, hb, h.status]; exact hs.done
      resp := by rw [respProduced, hb, h.status]; exact hs.resp
      strobes := h.rest hs.strobes
      eff := by rw [effFull, h.eff]; exact hs.eff
      chain := by
        intro hbusy i hi
        rw [h.dev, stepAcceptable_congr h.xfer, h.eff]
        exact hs.chain (hb ▸ hbusy) i (h.effLen ▸ hi)
      step := by rw [stepInChain, hb, h.effLen, h.status, h.runCfg, h.dev]; exact hs.step
      cur := by rw [curShowsStep, hb, h.status, h.effLen, h.cur, hf]; exact hs.cur
      hook := by rw [hookAtStep, hb, h.fsm, h.phase, h.status, h.effLen]; exact hs.hook
      record := by rw [hookNamesRecord, h.phase, h.fsm, h.hookXfer, h.status, hf]; exact hs.record
      mem := h.wf hs.mem }

/-- In IDLE the invariant says nothing of the chain, its steps and its hooks. -/
theorem State.Inv.of_idle {u : State} (hidle : u.fsm = .idle) (hphase : u.phase = .begin) (cs : chipSelectsExist u)
    (rb : readyLinesExist u) (dev : deviceStateNamed u)
    (resp : u.status.resp = .ok ∨ u.status.resp = .timeout ∨ u.status.resp = .cmdInvalid ∨
      u.status.resp = .chainTooLong)
    (strobes : strobesAtRest u) (eff : effFull u) (mem : memoryCanonical u) : u.Inv := by
  have hb : ¬ u.busy = true := by simp [not_busy_iff.mpr hidle]
  have hw : ¬ u.fsm = .hookWait := by simp [hidle]
  exact
    { cs := cs, rb := rb, dev := dev, strobes := strobes, eff := eff, mem := mem
      done := fun h => absurd h hb
      resp := ⟨resp, fun h => absurd h hb⟩
      chain := fun h => absurd h hb
      step := fun h => absurd h hb
      cur := fun h => absurd h hb
      hook := ⟨fun h => absurd h hw, fun h => absurd hphase h⟩
      record := ⟨fun h => absurd hphase h, fun h => absurd h hw⟩ }

theorem State.Inv.phase_of_idle {s : State} (hs : s.Inv) (h : s.busy = false) : s.phase = .begin := by
  by_contra hp
  have hb := (hs.hook.2 hp).1
  rw [h] at hb
  cases hb

/-! ### The invariant after RESET, an edge, and the ends of a run -/

theorem resetEdge_inv (s : State) : (resetEdge s).Inv := by
  refine State.Inv.of_idle rfl rfl ?_ ⟨?_, ?_⟩ (Nat.zero_le 4) (.inl rfl) ⟨rfl, rfl⟩ rfl rfl
  all_goals exact BitVec.zero_and

theorem inv_reset : State.reset.Inv := by
  refine State.Inv.of_idle rfl rfl ?_ ⟨?_, ?_⟩ (Nat.zero_le 4) (.inl rfl) ⟨rfl, rfl⟩ rfl rfl
  all_goals exact BitVec.zero_and

/-- Settles O53: the reset state is idle, and its pins, lines, EFF and RAMs are at their reset values. -/
theorem invAtReset : Obligations.InvAtReset := inv_reset

theorem tickOnce_inv {s : State} (hs : s.Inv) : (tickOnce s).Inv :=
  SameRun.inv hs { clk := tickOnce_later s }

/-- A run that `finish` ends. -/
theorem finish_inv {s : State} (hs : s.Inv) {r : Resp} (n : Word)
    (hr : r = .ok ∨ r = .timeout ∨ r = .cmdInvalid ∨ r = .chainTooLong) : (finish r n s).Inv :=
  State.Inv.of_idle rfl rfl hs.cs ((Clk.pass_quiet s.clk).lines hs.rb) hs.dev hr hs.strobes hs.eff hs.mem

theorem rejectRun_inv {s : State} (cs : chipSelectsExist s) (rb : readyLinesExist s) (dev : deviceStateNamed s)
    (strobes : strobesAtRest s) (eff : effFull s) (mem : memoryCanonical s) {r : Resp}
    (hr : r = .ok ∨ r = .timeout ∨ r = .cmdInvalid ∨ r = .chainTooLong) : (rejectRun r s).Inv :=
  State.Inv.of_idle rfl rfl cs ((Clk.pass_quiet s.clk).lines rb) dev hr strobes eff mem

theorem luns_le (d : Device) : d.luns ≤ Config.numLunMax := Nat.min_le_right _ _

theorem endRun_inv {s : State} (hs : s.Inv) (hf : s.fsm = .running) : (endRun s).Inv := by
  have hlun := Nat.lt_of_lt_of_le (hs.step (busy_of_running hf)).2.2 (luns_le s.dev)
  exact State.Inv.of_idle rfl rfl (setLine_exists false hs.cs hlun) ((endRun_later s).lines hs.rb) hs.dev (.inl rfl)
    hs.strobes hs.eff hs.mem

/-! ### The invariant after a step of the chain -/

theorem not_acceptable_of_illegal {d : Device} {xs : Vector XferRec Config.numXfer} {e : StepEntry}
    (h : e.instr = .illegalKind7 ∨ ∃ k t, (e.instr = .raww k t ∨ e.instr = .rawr k t) ∧ recordIndex k = none) :
    stepAcceptable d xs e = false := by
  unfold stepAcceptable
  rcases h with h | ⟨k, t, h | h, hk⟩ <;> rw [h] <;> simp [recordFits, hk]

theorem nextStep_inv {m : State} (hm : m.Inv) (hf : m.fsm = .running) (hl : m.status.step.toNat < m.effLen.toNat) :
    (nextStep m).Inv := by
  have hb := busy_of_running hf
  obtain ⟨hmax, -, hlun⟩ := hm.step hb
  have hstep : (BitVec.ofNat 8 (m.status.step.toNat + 1)).toNat = m.status.step.toNat + 1 := by
    rw [BitVec.toNat_ofNat]
    exact Nat.mod_eq_of_lt (by simp only [Config.maxSteps] at hmax; omega)
  exact
    { cs := hm.cs, rb := hm.rb, dev := hm.dev, done := hm.done, resp := hm.resp, strobes := hm.strobes
      eff := hm.eff, chain := hm.chain, mem := hm.mem
      step := fun _ => ⟨hmax, by rw [nextStep_status, nextStep_effLen, hstep]; exact hl, hlun⟩
      cur := by
        intro _ hlt
        rw [nextStep_status, nextStep_effLen, hstep] at hlt
        rw [State.fetched, nextStep_cur, if_pos hlt, nextStep_status, nextStep_eff, hstep]
      hook := ⟨fun h => (by rw [nextStep_fsm, hf] at h; cases h), fun h => absurd (nextStep_phase m) h⟩
      record := ⟨fun h => absurd (nextStep_phase m) h, fun h => by rw [nextStep_fsm, hf] at h; cases h⟩ }

theorem enterHook_inv {m : State} (hm : m.Inv) (hf : m.fsm = .running) (hl : m.status.step.toNat < m.effLen.toNat)
    (kind : HookKind) (chunk : Word) (hx : ∀ k, recordNamed m.fetched.instr = some k → m.hookXfer = k) :
    (enterHook kind (recordNamed m.fetched.instr).isSome chunk m).Inv := by
  have hb := busy_of_running hf
  exact
    { cs := hm.cs, dev := hm.dev, strobes := hm.strobes, eff := hm.eff, mem := hm.mem
      rb := (Clk.pass_quiet m.clk).lines hm.rb
      done := fun _ => hm.done hb
      resp := ⟨hm.resp.1, fun _ => hm.resp.2 hb⟩
      chain := fun _ => hm.chain hb
      step := fun _ => hm.step hb
      cur := fun _ => hm.cur hb
      hook := ⟨fun _ => by cases kind <;> simp [HookKind.resumePhase], fun _ => ⟨busy_of_hookWait rfl, hl⟩⟩
      record := ⟨fun _ => hx, fun _ => rfl⟩ }

/-- HOOK_XFER may change at the beginning of a step. -/
theorem hookXfer_inv {s : State} (hs : s.Inv) (hf : s.fsm = .running) {hx : BitVec 3}
    (h : s.phase = .begin ∨ hx = s.hookXfer) : State.Inv { s with hookXfer := hx } := by
  have record : hookNamesRecord { s with hookXfer := hx } := by
    refine ⟨fun hp k hk => ?_, fun hw => ?_⟩
    · rcases h with h | rfl
      · exact absurd h hp
      · exact hs.record.1 hp k hk
    · exact absurd (hf.symm.trans hw) (by simp)
  exact { cs := hs.cs, rb := hs.rb, dev := hs.dev, done := hs.done, resp := hs.resp, strobes := hs.strobes
          eff := hs.eff, chain := hs.chain, step := hs.step, cur := hs.cur, hook := hs.hook, mem := hs.mem
          record := record }

theorem exec_fetched_inv {s u : State} (hs : s.Inv) (hf : s.fsm = .running)
    (hl : s.status.step.toNat < s.effLen.toNat) (h : exec s.fetched.instr s = .next u) : u.Inv := by
  rcases s.fetched.instr_kinds s.dev with hstep | hill
  case inr =>
    have hok := hs.chain (busy_of_running hf) _ hl
    rw [show s.eff.entry s.status.step.toNat = s.fetched from rfl, not_acceptable_of_illegal hill] at hok
    cases hok
  case inl =>
    obtain ⟨hx, m, hm, hends, hbegin, hsame⟩ := exec_step_ends hstep h
    have hz : s.phase = .begin ∨ hx = s.hookXfer := by
      by_cases hp : s.phase = .begin
      · exact .inl hp
      · exact .inr (hsame (.inr hp))
    have hmi : m.Inv := SameRun.inv (hookXfer_inv hs hf hz) hm.sameRun
    have hfm : m.fsm = .running := hm.fsm.trans hf
    have hlm : m.status.step.toNat < m.effLen.toNat := by rw [hm.status, hm.effLen]; exact hl
    have hfetch : m.fetched = s.fetched := by rw [State.fetched, hm.eff, hm.status]; rfl
    rcases hends with rfl | ⟨kind, chunk, -, rfl⟩ | rfl
    · exact nextStep_inv hmi hfm hlm
    · rw [← hfetch]
      refine enterHook_inv hmi hfm hlm kind chunk fun k hk => ?_
      rw [hfetch] at hk
      rw [hm.hookXfer]
      rcases hz with hp | hp
      · exact hbegin k hk hp
      · by_cases hb : s.phase = .begin
        · exact hbegin k hk hb
        · rw [hp]; exact hs.record.1 hb k hk
    · exact finish_inv hmi _ (.inr (.inl rfl))

/-! ### The invariant after a host access -/

/-- What a register write does while no run exists, in the invariant's terms. -/
structure StoreFrame (s u : State) : Prop where
  fsm : u.fsm = s.fsm := by rfl
  phase : u.phase = s.phase := by rfl
  status : u.status = s.status := by rfl
  eff : u.eff = s.eff := by rfl
  mem : u.mem = s.mem := by rfl
  cs : chipSelectsExist s → chipSelectsExist u := by exact id
  rest : strobesAtRest s → strobesAtRest u := by exact id
  state : deviceStateNamed s → deviceStateNamed u := by exact id

theorem putState_named (d : Device) (v : BitVec 3) (h : d.state.toNat ≤ 4) : (d.putState v).state.toNat ≤ 4 := by
  unfold Device.putState
  split
  · assumption
  · exact h

theorem putReg_frame (r : Reg) (v : Word) (s : State) : StoreFrame s (putReg r v s) := by
  cases r with
  | pinCtrl =>
    obtain ⟨p, c, tr, e, -, hp, hcs⟩ := drivePins_spec v s
    change StoreFrame s (drivePins v s)
    rw [e]
    exact { cs := hcs, rest := fun h => by rw [strobesAtRest, hp]; exact h }
  | devState => exact { state := putState_named s.dev _ }
  | _ => exact {}

theorem register_inv {r : Reg} {v : Word} {s : State} (hs : s.Inv) (hw : writable s r = true) (h1 : r.code ≠ .ro)
    (h2 : r.code ≠ .wo) : (putReg r v s).Inv := by
  cases hb : s.busy with
  | false =>
    have h := putReg_frame r v s
    exact State.Inv.of_idle (h.fsm.trans (not_busy_iff.mp hb)) (h.phase.trans (hs.phase_of_idle hb)) (h.cs hs.cs)
      ((putReg_later r v s).lines hs.rb) (h.state hs.dev) (by rw [h.status]; exact hs.resp.1) (h.rest hs.strobes)
      (by rw [effFull, h.eff]; exact hs.eff) (by rw [memoryCanonical, h.mem]; exact hs.mem)
  | true =>
    rcases putReg_busy (v := v) hb hw h1 h2 with e | ⟨k, e⟩ <;> rw [e]
    · exact SameRun.inv hs {}
    · exact (setIntended_during k v s).sameRun.inv hs

theorem decoder_inv {s u : State} (hs : s.Inv) (h : DecFrame s u) : u.Inv := by
  cases hb : s.busy with
  | false =>
    exact State.Inv.of_idle (h.fsm.trans (not_busy_iff.mp hb)) (h.phase.trans (hs.phase_of_idle hb))
      (by rw [chipSelectsExist, h.pins]; exact hs.cs) (h.clk.lines hs.rb)
      (by rw [deviceStateNamed, h.state]; exact hs.dev) (by rw [h.status]; exact hs.resp.1)
      (by rw [strobesAtRest, h.pins]; exact hs.strobes) (by rw [effFull, h.eff]; exact hs.eff) (h.wf hs.mem)
  | true =>
    obtain ⟨hdev, -, -, -⟩ := h.busy hb
    exact SameRun.inv hs
      { status := h.status, fsm := h.fsm, phase := h.phase, runCfg := h.runCfg, effLen := h.effLen, cur := h.cur
        dev := hdev, eff := h.eff, hookXfer := h.hookXfer, cs := by rw [h.pins]
        rest := fun hr => by rw [strobesAtRest, h.pins]; exact hr
        xfer := fun k => by rw [h.xfer]; exact ⟨rfl, rfl⟩
        clk := h.clk.toLater, wf := h.wf }

/-- Entry `i` of EFF once the chain is filled in (R60). -/
theorem fillEff_entry {p : RunPlan} {chain : List StepEntry} {e : EffChain} {i : Nat} (h : i < chain.length) :
    (fillEff p chain e).entry i = chain[i] := by
  simp [EffChain.entry, fillEff, List.getD_eq_getElem?_getD, List.getElem?_append_left h, List.getElem?_eq_getElem h]

/-- An accepted START stands at step 0 of a chain that validation let through (R170 to R176). -/
theorem enterLoop_inv {s : State} (hs : s.Inv) {p : RunPlan} {chain : List StepEntry}
    (hp : p.length ≤ Config.maxSteps) (hl : s.runCfg.lun.toNat < s.dev.luns) (hc : chain.length = p.length)
    (ha : chain.all (stepAcceptable s.dev s.xfer) = true) :
    (enterLoop { beginRun s with effLen := BitVec.ofNat 8 p.length, eff := fillEff p chain s.eff }).Inv := by
  have hlen := toNat_ofNat_length hp
  obtain ⟨c, e, q⟩ :=
    enterLoop_spec { beginRun s with effLen := BitVec.ofNat 8 p.length, eff := fillEff p chain s.eff }
  rw [e]
  exact
    { dev := hs.dev, mem := hs.mem
      cs := setLine_exists true hs.cs (Nat.lt_of_lt_of_le hl (luns_le s.dev))
      rb := q.lines hs.rb
      done := fun _ => rfl
      resp := ⟨.inl rfl, fun _ => rfl⟩
      strobes := ⟨rfl, rfl⟩
      eff := by
        have hfull : s.eff.steps.length = Config.maxSteps := hs.eff
        exact (fillEff_length (by rw [hc, hfull]; exact hp)).trans hfull
      chain := by
        intro _ i hi
        have hi' : i < chain.length := by rw [hc, ← hlen]; exact hi
        change stepAcceptable s.dev s.xfer ((fillEff p chain s.eff).entry i) = true
        rw [fillEff_entry hi']
        exact List.all_eq_true.mp ha _ (List.getElem_mem hi')
      step := fun _ => ⟨by rw [hlen]; exact hp, Nat.zero_le _, hl⟩
      cur := fun _ hlt => if_pos hlt
      hook := ⟨fun h => (by cases h), fun h => absurd rfl h⟩
      record := ⟨fun h => absurd rfl h, fun h => by cases h⟩ }

theorem start_inv {s u : State} (hs : s.Inv) (h : exec .start s = .next u) : u.Inv := by
  cases start_effect h with
  | ignored _ e => rw [e]; exact hs
  | rejected _ r len eff hr heff e =>
    rw [e]
    exact rejectRun_inv (s := { beginRun s with effLen := len, eff := eff }) hs.cs hs.rb hs.dev hs.strobes
      (heff hs.eff) hs.mem
      (.inr (.inr hr))
  | accepted _ p chain hp hl hc ha e => rw [e]; exact enterLoop_inv hs hp hl hc ha

/-- HOOK_ACK resumes a run at the place its hook left (R185). -/
theorem returnFromHook_inv {s : State} (hs : s.Inv) (hf : s.fsm = .hookWait) :
    State.Inv { s with fsm := .running } := by
  have hb := busy_of_hookWait hf
  exact
    { cs := hs.cs, rb := hs.rb, dev := hs.dev, strobes := hs.strobes, eff := hs.eff, mem := hs.mem
      done := fun _ => hs.done hb
      resp := ⟨hs.resp.1, fun _ => hs.resp.2 hb⟩
      chain := fun _ => hs.chain hb
      step := fun _ => hs.step hb
      cur := fun _ => hs.cur hb
      hook := ⟨fun h => (by cases h), fun h => ⟨busy_of_running rfl, (hs.hook.2 h).2⟩⟩
      record := ⟨hs.record.1, fun h => by cases h⟩ }

theorem command_inv {i : Instr} (hi : i = .start ∨ i = .hookAck ∨ i = .doneClr) {s u : State} (hs : s.Inv)
    (h : exec i s = .next u) : u.Inv := by
  rcases hi with rfl | rfl | rfl
  · exact start_inv hs h
  · obtain ⟨hf, rfl⟩ | ⟨-, rfl⟩ := hookAck_next h
    · exact returnFromHook_inv hs hf
    · exact hs
  · obtain rfl | ⟨hb, rfl⟩ := doneClr_next h
    · exact hs
    · exact State.Inv.of_idle (not_busy_iff.mp hb) (hs.phase_of_idle hb) hs.cs hs.rb hs.dev hs.resp.1 hs.strobes
        hs.eff hs.mem

theorem HostEffect.inv {s u : State} (hs : s.Inv) (h : HostEffect s u) : u.Inv := by
  cases h with
  | commands is hi e =>
    exact execAll_keeps (P := fun a b => a.Inv → b.Inv) (fun _ => id) (fun _ _ _ hab hbc ha => hbc (hab ha))
      (fun i hm _ _ hx ha => command_inv (hi i hm) ha hx) e hs
  | decoder i op ho e => exact decoder_inv hs (exec_dec ho e)
  | register r v hw h1 h2 e => rw [e]; exact register_inv hs hw h1 h2
  | ram off v _ e => rw [e]; exact SameRun.inv hs { wf := Memory.store_wf _ _ _ }
  | quiet e => rw [e]; exact SameRun.inv hs {}

/-- Settles O54: RESET leaves a state that meets the invariant, and so does each thing a step can do. -/
theorem invKept : Obligations.InvKept := by
  intro s u hs h
  by_cases hn : noReset s
  · obtain ⟨port, hcases⟩ := step_cases hn h
    have hz : State.Inv { s with port := port } := SameRun.inv hs {}
    rcases hcases _ rfl with heff | ⟨-, rfl⟩ | ⟨hf, hl, hexec⟩ | ⟨hf, -, rfl⟩
    · exact heff.inv (tickOnce_inv hz)
    · exact tickOnce_inv hz
    · exact exec_fetched_inv (s := { s with port := port }) hz hf hl hexec
    · exact endRun_inv hz hf
  · obtain ⟨z, rfl | rfl⟩ := reset_cases hn h
    · exact resetEdge_inv z
    · exact SameRun.inv (tickOnce_inv (resetEdge_inv z)) {}

end Sys2Proof.Machine

namespace Sys2Proof.Machine

/-! ### Words and entries in RAM (R81, R111) -/

theorem Memory.word_store (m : Memory) (a : Nat) (w : Word) : (m.store a (bytesOfWord w)).word a = .ok w := by
  have h := m.word_store_words a (ws := [w]) (j := 0) rfl
  simpa using h

/-- Byte `j` of a stored word (R81). -/
theorem Memory.read_store_word (m : Memory) (a : Nat) (w : Word) {j : Nat} (hj : j < 4) :
    (m.store a (bytesOfWord w)).read (a + j) = some (byteOfWord w j) := by
  rw [Memory.read_store_inside _ _ _ _ (by rw [bytesOfWord_length]; exact hj)]
  interval_cases j <;> rfl

/-- Settles O4: four bytes stored in the order of their addresses. -/
theorem wordLittleEndian : Obligations.WordLittleEndian :=
  fun m a w => ⟨m.word_store a w, fun _ hj => m.read_store_word a w hj⟩

/-- Word `j` of a stored step entry. -/
theorem Memory.word_store_entry (m : Memory) (d i j : Nat) {e : StepEntry} {w : Word} (h : e.words[j]? = some w) :
    (m.store (descOffset d (16 * (i + 1))) e.bytes).word (descOffset d (16 * (i + 1) + j)) = .ok w := by
  rw [show descOffset d (16 * (i + 1) + j) = descOffset d (16 * (i + 1)) + 4 * j by simp only [descOffset]; omega]
  exact m.word_store_words _ h

/-- Settles O2: each of the sixteen words is read where it was stored, the reserved two among them. -/
theorem stepEntryReadsBack : Obligations.StepEntryReadsBack := by
  intro m d i e
  have hword : ∀ {j w}, e.words[j]? = some w →
      (m.store (descOffset d (16 * (i + 1))) e.bytes).word (descOffset d (16 * (i + 1) + j)) = .ok w :=
    m.word_store_entry d i _
  simp only [Memory.stepEntry, Memory.reservedWord, hword (j := 0) rfl, hword (j := 1) rfl, hword (j := 2) rfl,
    hword (j := 3) rfl, hword (j := 4) rfl, hword (j := 5) rfl, hword (j := 6) rfl, hword (j := 7) rfl,
    hword (j := 8) rfl, hword (j := 9) rfl, hword (j := 10) rfl, hword (j := 11) rfl, hword (j := 12) rfl,
    hword (j := 13) rfl, hword (j := 14) rfl, hword (j := 15) rfl]
  rfl

/-! ### RAM seen by the host (R69, R70, R76, R91) -/

/-- The RAM of a place and a state at which the host may use it. -/
def RamOpen (off : Nat) (s : State) : Prop := inSlots off ∨ (inBuffer off ∧ s.fsm ≠ .running)

theorem RamOpen.place {off : Nat} {s : State} (h : RamOpen off s) :
    placeAt off = .descRam ∨ (placeAt off = .bufRam ∧ bufferBusy s = false) := by
  rcases h with hs | ⟨hb, hf⟩
  · exact .inl (placeAt_slots hs)
  · exact .inr ⟨placeAt_buffer hb, by simp [bufferBusy, hf]⟩

theorem RamOpen.inWindow {off : Nat} {s : State} (h : RamOpen off s) : off < Config.windowBytes := by
  rcases h.place with hp | ⟨hp, -⟩
  · exact placeAt_ram (.inl hp)
  · exact placeAt_ram (.inr hp)

theorem hostAccess_write_ram {off : Nat} {s : State} (v : Word) (ha : off % 4 = 0) (h : RamOpen off s) :
    hostAccess (.write 4 off v) s = .next (writeRam off v s) := by
  change guardAccess 4 off (hostWrite off v s) = _
  rw [guardAccess_ok _ ha h.inWindow, hostWrite]
  rcases h.place with hp | ⟨hp, hb⟩
  · rw [hp]
  · rw [hp, hb]; rfl

theorem hostAccess_read_ram {off : Nat} {s : State} (ha : off % 4 = 0) (h : RamOpen off s) :
    hostAccess (.read 4 off) s = readRam off s := by
  change guardAccess 4 off (hostRead off s) = _
  rw [guardAccess_ok _ ha h.inWindow, hostRead]
  rcases h.place with hp | ⟨hp, hb⟩
  · rw [hp]
  · rw [hp, hb]; rfl

/-- Settles O5: the write stores the word's four bytes, and the read finds them. -/
theorem hostRamWriteRead : Obligations.HostRamWriteRead := by
  intro off v s ha hopen
  refine ⟨writeRam off v s, hostAccess_write_ram v ha hopen, rfl, fun a hout => ?_, ?_⟩
  · exact Memory.read_store_outside _ _ _ _ hout
  · have hopen' : RamOpen off (writeRam off v s) := hopen
    rw [hostAccess_read_ram ha hopen', readRam, writeRam, Memory.word_store]

/-! ### Delays and waits (R141, R145, R154) -/

/-- Settles O7: a hold of `t` is one `elapse` of the least number of clocks and the latency drawn. -/
theorem delayHolds : Obligations.DelayHolds := by
  intro t s k hk
  refine ⟨fun ht => by rw [ht]; rfl, fun ht => ?_⟩
  have htick := s.clk.tick_pos
  have hpos : 0 < t.toNat := Nat.pos_of_ne_zero fun h => ht (BitVec.eq_of_toNat_eq h)
  have hdiv := Nat.div_add_mod (t.toNat - 1) s.clk.tick
  have hmod := Nat.mod_lt (t.toNat - 1) htick
  rw [Nat.mul_comm] at hdiv
  refine ⟨s.clk.hold t, by rw [delay, if_neg ht], Clk.hold_quiet t s.clk, ?_, ?_, ?_⟩
  · rw [hk, Clk.hold, if_neg ht, Clk.elapse_time, Nat.add_right_comm]
    rfl
  all_goals generalize (t.toNat - 1) / s.clk.tick = least at hk hdiv ⊢
  · have hle : (least + 1) * s.clk.tick ≤ k * s.clk.tick :=
      Nat.mul_le_mul_right _ (by omega)
    rw [Nat.add_mul] at hle
    omega
  · rw [show k - 1 - s.clk.env.drawLat.1 = least by omega]
    omega

/-- A poll over `j` busy samples before the deadline goes on from sample `j` (R145). -/
theorem Clk.poll_after {l j : Nat} {t : Word} {c : Clk} {sample : Nat → Clk} (hT : c.tick ≤ 2 ^ 63)
    (hs : ∀ i, sample i = Clk.edge^[i] { c with deadline := deadlineFrom c.time t })
    (hj : j = 0 ∨ (j - 1) * c.tick < t.toNat) (hbusy : ∀ i, i < j → (sample i).rbSync.getLsbD l = false) :
    c.poll l t = Clk.waitLoop l (t.toNat - j) (sample j) := by
  have h := Clk.waitLoop_after l t c.time j t.toNat 0 { c with deadline := deadlineFrom c.time t } hT rfl (by simp)
    (Nat.le_refl _) (fun i hi => by rw [← hs]; exact hbusy i hi) (by rw [Nat.zero_add]; exact hj)
  rw [Clk.poll, h.1, hs]

theorem Clk.waitLoop_ready {l fuel : Nat} {c : Clk} (h : c.rbSync.getLsbD l = true) :
    Clk.waitLoop l fuel c = (true, c) := by
  cases fuel <;> simp [Clk.waitLoop, h]

theorem Clk.waitLoop_timeout {l fuel : Nat} {c : Clk} (h : c.rbSync.getLsbD l = false)
    (hr : remaining c.deadline c.time = 0) : Clk.waitLoop l fuel c = (false, c) := by
  cases fuel <;> simp [Clk.waitLoop, h, hr]

theorem waitOne_of_poll {l : Nat} {t : Word} {s : State} {ok : Bool} {c : Clk} (h : s.clk.poll l t = (ok, c)) :
    waitOne l t s = (ok, { s with trace := .wait l t ok :: s.trace, clk := c.pass }) := by
  simp only [waitOne, Clk.waitOne, h]

/-- Settles O8: the loop is at sample `j`, `j` ticks on, and answers by the line there, or by the deadline. -/
theorem waitOnePolls : Obligations.WaitOnePolls := by
  intro l j t s sample hT hs hj hbusy
  obtain ⟨-, hdead, htime⟩ := Clk.edges_time { s.clk with deadline := deadlineFrom s.clk.time t } j
  rw [← hs] at hdead htime
  have hpoll := Clk.poll_after hT hs hj hbusy
  refine ⟨htime, fun hready => ?_, fun hb hlate => ?_⟩
  · exact waitOne_of_poll (hpoll.trans (Clk.waitLoop_ready hready))
  · refine waitOne_of_poll (hpoll.trans (Clk.waitLoop_timeout hb ?_))
    have hbound : j * s.clk.tick ≤ 2 ^ 63 + t.toNat := by
      rcases hj with rfl | hj
      · omega
      · cases j with
        | zero => omega
        | succ j => rw [Nat.succ_mul]; simp only [Nat.succ_sub_one] at hj; omega
    rw [hdead, htime]
    change remaining (deadlineFrom s.clk.time t) (s.clk.time + BitVec.ofNat 64 (j * s.clk.tick)) = 0
    rw [remaining_deadlineFrom _ _ _ hbound]
    omega

theorem waitTarget_zero (lun : Nat) (s : State) : waitTarget lun 0 s = (true, s) := rfl

theorem waitOthers_zero (lun : Nat) (s : State) : waitOthers lun 0 s = (true, s) := rfl

/-- Settles O9: a timeout field of 0 skips its part of the wait. -/
theorem zeroBudgetNeverWaits : Obligations.ZeroBudgetNeverWaits := by
  intro lun t s
  refine ⟨rfl, fun ht => ?_, fun ht => ?_⟩
  · rw [waitReady, waitTarget_zero, if_pos rfl, waitOthers, if_neg ht]
  · rw [waitReady, waitTarget, if_neg ht, waitOthers_zero]
    cases h : waitOne lun t s with
    | mk ok z => cases ok <;> rfl

end Sys2Proof.Machine

namespace Sys2Proof.Machine

/-! ### Fields of a register (R23) -/

/-- The mask of a field of `n` bits at bit `lo`. -/
def fieldMask (lo n : Nat) : Word := (BitVec.allOnes n).setWidth 32 <<< lo

/-- A field stored from a word and shown again is the word under the field's mask. -/
theorem fieldAt_extract (lo n : Nat) (v : Word) : fieldAt lo (v.extractLsb' lo n) = v &&& fieldMask lo n := by
  apply BitVec.eq_of_getLsbD_eq
  intro i hi
  simp only [fieldAt, fieldMask, BitVec.getLsbD_shiftLeft, BitVec.getLsbD_setWidth, BitVec.getLsbD_extractLsb',
    BitVec.getLsbD_and, BitVec.getLsbD_allOnes]
  by_cases hlo : i < lo
  · simp [hlo]
  · have hcancel : lo + (i - lo) = i := by omega
    simp only [hi, hlo, hcancel, show i - lo < 32 by omega, decide_true, decide_false, Bool.not_false, Bool.true_and]
    exact Bool.and_comm _ _

theorem bitAt_getLsbD (lo : Nat) (v : Word) : bitAt lo (v.getLsbD lo) = v &&& fieldMask lo 1 := by
  rw [← fieldAt_extract, fieldAt, bitAt, ofBit]
  congr 2
  apply BitVec.eq_of_getLsbD_eq
  intro i hi
  have hi0 : i = 0 := by omega
  subst hi0
  simp

theorem and_or_masks (v a b : Word) : v &&& a ||| v &&& b = v &&& (a ||| b) := BitVec.and_or_distrib_left.symm

theorem and_allOnes_word (v : Word) : v &&& 0xFFFFFFFF = v := BitVec.and_allOnes

/-! ### What a stored register reads as, and what it leaves (R91) -/

/-- A device-record register that stores reads as its fields of the written value. -/
theorem Device.get_put {r : Reg} {mask : Word} (d : Device) (v : Word) (hm : r.stored = some mask)
    (hc : r.code = .rwl) : (d.put r v).get r = v &&& mask := by
  cases r <;> simp only [Reg.code, reduceCtorEq] at hc <;> cases hm <;>
    simp only [Device.put, Device.get, bitAt_getLsbD, fieldAt_extract, and_or_masks, and_allOnes_word] <;> rfl

/-- No other register of the device record changes. -/
theorem Device.get_put_other {r r' : Reg} (d : Device) (v : Word) (hc : r.code = .rwl) (h : r' ≠ r) :
    (d.put r v).get r' = d.get r' := by
  cases r <;> simp only [Reg.code, reduceCtorEq] at hc <;> cases r' <;> simp at h <;> rfl

theorem XferRec.get_put (x : XferRec) (f : XferField) (v : Word) :
    (x.put f v).get f = v &&& ((Reg.xfer 0 f).stored.getD 0) := by
  cases f <;>
    simp only [XferRec.put, XferRec.get, Reg.stored, Option.getD_some, fieldAt_extract, and_allOnes_word] <;> rfl

theorem XferRec.get_put_other (x : XferRec) {f f' : XferField} (v : Word) (h : f' ≠ f) :
    (x.put f v).get f' = x.get f' := by
  cases f <;> cases f' <;> simp at h <;> rfl

/-- The registers that store, by where they are kept. -/
theorem stored_kinds {r : Reg} {mask : Word} (h : r.stored = some mask) (hp : r ≠ .pinCtrl) :
    r = .irqEn ∨ r = .runCfg ∨ r = .decSrc ∨ r = .decLen ∨ (∃ k f, r = .xfer k f) ∨ r.code = .rwl := by
  cases r <;> simp [Reg.stored, Reg.code] at h hp ⊢

theorem putReg_device {r : Reg} (hc : r.code = .rwl) (v : Word) (s : State) :
    putReg r v s = { s with dev := s.dev.put r v } := by
  cases r <;> simp [Reg.code] at hc <;> rfl

theorem readReg_device {r : Reg} (hc : r.code = .rwl) (s : State) : readReg s r = s.dev.get r := by
  cases r <;> simp [Reg.code] at hc <;> rfl

theorem readReg_of_dev {s : State} {d : Device} {r : Reg} (h : d.get r = s.dev.get r) :
    readReg { s with dev := d } r = readReg s r := by
  cases r <;> simp only [readReg, h] <;> rfl

/-- A register that stores reads as the written value in its fields (R91). -/
theorem readReg_putReg {r : Reg} {mask : Word} (v : Word) (s : State) (h : r.stored = some mask) (hp : r ≠ .pinCtrl) :
    readReg (putReg r v s) r = v &&& mask := by
  rcases stored_kinds h hp with rfl | rfl | rfl | rfl | ⟨k, f, rfl⟩ | hc
  case inr.inr.inr.inr.inl =>
    have hmask : (Reg.xfer 0 f).stored = some mask := by rw [← h]; cases f <;> rfl
    have hget := XferRec.get_put s.xfer[k] f v
    rw [hmask] at hget
    simpa [readReg, putReg] using hget
  case inr.inr.inr.inr.inr =>
    rw [putReg_device hc, readReg_device hc]
    exact Device.get_put s.dev v h hc
  all_goals
    cases h
    simp only [readReg, putReg, runCfgWord, runCfgOf, bitAt_getLsbD, fieldAt_extract, and_or_masks]
    rfl

/-- No other register changes (R91). -/
theorem readReg_putReg_other {r r' : Reg} {mask : Word} (v : Word) (s : State) (h : r.stored = some mask)
    (hp : r ≠ .pinCtrl) (hne : r' ≠ r) : readReg (putReg r v s) r' = readReg s r' := by
  rcases stored_kinds h hp with rfl | rfl | rfl | rfl | ⟨k, f, rfl⟩ | hc
  case inr.inr.inr.inr.inl =>
    cases r' with
    | xfer k' f' =>
      by_cases hk : k.val = k'.val
      · have hk' : k = k' := Fin.ext hk
        subst hk'
        have hf : f' ≠ f := fun hf => hne (by rw [hf])
        simpa [readReg, putReg] using XferRec.get_put_other s.xfer[k] v hf
      · simp [readReg, putReg, hk]
    | _ => rfl
  case inr.inr.inr.inr.inr =>
    rw [putReg_device hc]
    exact readReg_of_dev (Device.get_put_other s.dev v hc hne)
  all_goals cases r' <;> simp at hne <;> rfl

theorem putReg_fields {r : Reg} {mask : Word} (v : Word) (s : State) (h : r.stored = some mask) (hp : r ≠ .pinCtrl) :
    putReg r v s = { s with irqEn := (putReg r v s).irqEn, runCfg := (putReg r v s).runCfg
                            dev := (putReg r v s).dev, dec := (putReg r v s).dec, xfer := (putReg r v s).xfer } := by
  rcases stored_kinds h hp with rfl | rfl | rfl | rfl | ⟨k, f, rfl⟩ | hc
  case inr.inr.inr.inr.inr => rw [putReg_device hc]
  all_goals rfl

/-- A write of a register that starts no action (R91). -/
theorem writeReg_store {r : Reg} (hc : r.code ≠ .wo) (v : Word) (s : State) :
    writeReg r v s = .next (if writable s r then putReg r v s else s) := by
  cases r <;> simp [Reg.code] at hc <;> rfl

theorem stored_code {r : Reg} {mask : Word} (h : r.stored = some mask) : r.code ≠ .wo ∧ r ≠ .timeLo := by
  cases r <;> simp [Reg.stored, Reg.code] at h ⊢

theorem afterReadReg_other {r : Reg} (s : State) (h : r ≠ .timeLo) : afterReadReg s r = s := by
  cases r
  case timeLo => exact absurd rfl h
  all_goals rfl

/-- A host read of a register has no effect but its data, TIME_LO apart (R91). -/
theorem hostAccess_read_plain {r : Reg} (s : State) (h : r ≠ .timeLo) :
    hostAccess (.read 4 r.offset) s = .next { s with rdata := readReg s r } := by
  rw [hostAccess_read_reg, afterReadReg_other s h]

/-- A host write of a register that may be written now stores it (R23, R75, R91). -/
theorem hostAccess_write_store {r : Reg} (hc : r.code ≠ .wo) (v : Word) {s : State} (hw : mayWrite s r) :
    hostAccess (.write 4 r.offset v) s = .next (putReg r v s) := by
  rw [hostAccess_write_reg, writeReg_store hc, if_pos ((writable_iff hc).mpr hw)]

/-- A host write of a register that may not be written now does nothing (R23, R74, R75). -/
theorem hostAccess_write_locked {r : Reg} (hc : r.code ≠ .wo) (v : Word) {s : State} (hw : ¬ mayWrite s r) :
    hostAccess (.write 4 r.offset v) s = .next s := by
  rw [hostAccess_write_reg, writeReg_store hc, if_neg (fun h => hw ((writable_iff hc).mp h))]

/-- Settles O10: the write stores the fields, the read shows them, and no other register is kept in the same bits. -/
theorem registerKeepsItsFields : Obligations.RegisterKeepsItsFields := by
  intro r mask v s hm hp hw
  obtain ⟨hc, ht⟩ := stored_code hm
  refine ⟨putReg r v s, hostAccess_write_store hc v hw, ?_, fun r' hne => readReg_putReg_other v s hm hp hne,
    putReg_fields v s hm hp⟩
  rw [hostAccess_read_plain _ ht, readReg_putReg v s hm hp]

/-! ### Writes that are not let through (R74, R75, R78, R83) -/

theorem mayWrite_code {s : State} {r : Reg} (h : mayWrite s r) : r.code ≠ .ro ∧
    (r.code = .rwl → s.dev.initDone = false) := by
  rcases h with h | ⟨h, -⟩ | ⟨h, -, hi⟩ | ⟨k, rfl, -⟩
  · simp [h]
  · simp [h]
  · simp [h, hi]
  · simp [Reg.code]

theorem mayWrite_hook {s : State} {k : Fin Config.numXfer} (hh : s.hookPending = true)
    (hr : s.status.hookRaw = true) (hx : s.hookXfer.toNat = k.val) : mayWrite s (.xfer k .intended) :=
  .inr (.inr (.inr ⟨k, rfl, hh, hr, hx⟩))

theorem hostAccess_unmapped {off : Nat} (h4 : off % 4 = 0) (hw : off < Config.windowBytes)
    (hp : placeAt off = .unmapped) (v : Word) (s : State) :
    hostAccess (.read 4 off) s = .next { s with rdata := 0 } ∧ hostAccess (.write 4 off v) s = .next s := by
  constructor
  · change guardAccess 4 off (hostRead off s) = _
    rw [guardAccess_ok _ h4 hw, hostRead, hp]
  · change guardAccess 4 off (hostWrite off v s) = _
    rw [guardAccess_ok _ h4 hw, hostWrite, hp]

/-- Settles O11: a write is let through exactly where `mayWrite` says so, and an unmapped offset is no place. -/
theorem lockedRegisters : Obligations.LockedRegisters := by
  refine ⟨fun r v s hc => ?_, fun r v s hc hi => ?_, fun r v s hc _ hw => ?_, fun k v s hh hr hx => ?_,
    fun off v s h4 hwin hreg hslots hbuf => ?_⟩
  · exact hostAccess_write_locked (by simp [hc]) v fun hw => (mayWrite_code hw).1 hc
  · refine hostAccess_write_locked (by simp [hc]) v fun hw => ?_
    rw [(mayWrite_code hw).2 hc] at hi
    cases hi
  · exact hostAccess_write_locked (by rcases hc with hc | hc <;> simp [hc]) v hw
  · exact hostAccess_write_store (r := .xfer k .intended) (by simp [Reg.code]) v (mayWrite_hook hh hr hx)
  · exact hostAccess_unmapped h4 hwin (placeAt_unmapped h4 hreg hslots hbuf) v s

/-! ### DEV_STATE and PIN_CTRL (R35, R41) -/

theorem mayWrite_idle {s : State} {r : Reg} (hc : r.code = .rwi) (hb : s.busy = false) : mayWrite s r :=
  .inr (.inl ⟨hc, hb⟩)

theorem readReg_devState (s : State) : readReg s .devState =
    s.dev.state.setWidth 32 ||| (if s.dev.state = 4 then 0x100 else 0) := by
  change fieldAt 0 s.dev.state ||| bitAt 8 (decide (s.dev.state = 4)) = _
  rw [fieldAt, BitVec.shiftLeft_zero]
  split
  · next h => rw [h]; rfl
  · next h => rw [decide_eq_false h]; rfl

/-- Settles O12: `putState` takes the five states there are, and INIT_DONE is computed from STATE. -/
theorem devStateWrite : Obligations.DevStateWrite := by
  intro v s hb
  refine ⟨putReg .devState v s, hostAccess_write_store (r := .devState) (by simp [Reg.code]) v (mayWrite_idle rfl hb),
    ?_, ?_⟩
  · change { s with dev := s.dev.putState (v.extractLsb' 0 3) } = _
    unfold Device.putState
    split <;> rfl
  · rw [← readReg_devState]
    exact hostAccess_read_plain (r := .devState) _ (by simp)

theorem drivenLine_getLsbD (v : Word) (l : Nat) (w : Half) (x : Nat) :
    (if w.getLsbD l = v.getLsbD l then w else setLine w l (v.getLsbD l)).getLsbD x =
      if x = l ∧ x < 16 then v.getLsbD x else w.getLsbD x := by
  split
  · next h =>
    split
    · next hx => rw [hx.1, h]
    · rfl
  · rw [setLine_getLsbD]
    split
    · next hx => rw [hx.1]
    · rfl

/-- The chip selects after those of `ls` were driven: the written bits there, the old ones elsewhere (R35). -/
theorem driven_getLsbD (v : Word) : ∀ (ls : List Nat) (w : Half) (x : Nat),
    (ls.foldl (fun w l => if w.getLsbD l = v.getLsbD l then w else setLine w l (v.getLsbD l)) w).getLsbD x =
      if x ∈ ls ∧ x < 16 then v.getLsbD x else w.getLsbD x := by
  intro ls
  induction ls with
  | nil => intro w x; simp
  | cons l ls ih =>
    intro w x
    rw [List.foldl_cons, ih, drivenLine_getLsbD]
    grind

/-- On four lines, every line of a LUN that exists takes its written bit, and the others were 0 (R35). -/
theorem driven_cs (v : Word) {w : Half} (h : w &&& ~~~lunMask = 0) :
    (List.range Config.numLunMax).foldl
      (fun w l => if w.getLsbD l = v.getLsbD l then w else setLine w l (v.getLsbD l)) w =
    (v &&& 0xF).setWidth 16 := by
  apply BitVec.eq_of_getLsbD_eq
  intro i hi
  have hbit : (w &&& ~~~lunMask).getLsbD i = false := by rw [h]; exact BitVec.getLsbD_zero
  have hmask : lunMask.getLsbD i = decide (i < 4) ∧ (0xF : Word).getLsbD i = decide (i < 4) := by
    clear hbit
    interval_cases i <;> decide
  rw [driven_getLsbD]
  rw [BitVec.getLsbD_and, BitVec.getLsbD_not, hmask.1] at hbit
  rw [BitVec.getLsbD_setWidth, BitVec.getLsbD_and, hmask.2]
  by_cases h4 : i < 4
  · simp [h4, hi]
  · simpa [h4, hi] using hbit

theorem readReg_pinCtrl (s : State) : readReg s .pinCtrl = fieldAt 0 s.pins.cs ||| bitAt 16 s.pins.wp := rfl

/-- A PIN_CTRL write on pins with no chip select of a LUN that does not exist (R35). -/
theorem drivePins_eq (v : Word) {s : State} (hcs : chipSelectsExist s) : ∃ c, s.clk.Quiet c ∧ drivePins v s =
    { s with
      pins := { s.pins with cs := (v &&& 0xF).setWidth 16, wp := v.getLsbD 16 }
      trace := (((List.range 4).filter (fun l => s.pins.cs.getLsbD l ≠ v.getLsbD l)).map
          (fun l => Event.cs l (v.getLsbD l)) ++
        (if s.pins.wp = v.getLsbD 16 then [] else [Event.wp (v.getLsbD 16)])).reverse ++ s.trace
      clk := c } := by
  obtain ⟨c, q, e⟩ := driveEach_spec v (List.range Config.numLunMax) s List.nodup_range
  rw [driven_cs v hcs] at e
  have hcond : (driveEach v (List.range Config.numLunMax) s).pins.wp = s.pins.wp := by rw [e]
  rw [drivePins, driveWP, hcond]
  by_cases hwp : s.pins.wp = v.getLsbD 16
  · refine ⟨c, q, ?_⟩
    rw [if_pos hwp, if_pos hwp, e, List.append_nil, ← hwp]
  · refine ⟨c.pass, q.trans (Clk.pass_quiet c), ?_⟩
    rw [if_neg hwp, if_neg hwp, e, List.reverse_append]
    rfl

/-- PIN_CTRL shows the chip selects and write protect just written (R35). -/
theorem readReg_drivePins (v : Word) {s : State} (hcs : chipSelectsExist s) :
    readReg (drivePins v s) .pinCtrl = v &&& 0x0001000F := by
  obtain ⟨c, -, e⟩ := drivePins_eq v hcs
  have hcsField : fieldAt 0 ((v &&& 0xF).setWidth 16) = v &&& 0xF := by
    apply BitVec.eq_of_toNat_eq
    have hlt : (v &&& 0xF).toNat < 2 ^ 16 := by
      rw [BitVec.toNat_and]
      exact Nat.lt_of_le_of_lt Nat.and_le_right (by decide)
    simp only [fieldAt, BitVec.shiftLeft_zero, BitVec.toNat_setWidth]
    omega
  rw [readReg_pinCtrl, e]
  change fieldAt 0 ((v &&& 0xF).setWidth 16) ||| bitAt 16 (v.getLsbD 16) = _
  rw [hcsField, bitAt_getLsbD, and_or_masks]
  rfl

/-- Settles O13: `driveEach` over the four lines, then write protect, and the word the two fields make. -/
theorem pinCtrlDrives : Obligations.PinCtrlDrives := by
  intro v s hb hcs
  obtain ⟨c, q, e⟩ := drivePins_eq v hcs
  refine ⟨drivePins v s, hostAccess_write_store (r := .pinCtrl) (by simp [Reg.code]) v (mayWrite_idle rfl hb),
    ?_, ?_, ?_, ?_⟩
  · rw [e]; exact q
  · rw [e]; exact fun _ => rfl
  · rw [← readReg_drivePins v hcs]
    exact hostAccess_read_plain (r := .pinCtrl) _ (by simp)
  · rw [e]

/-! ### TIME (R37, R375) -/

/-- Settles O14: the two halves are of the time the first read saw. -/
theorem timeReadsAsOne : Obligations.TimeReadsAsOne := by
  intro s
  refine ⟨_, hostAccess_read_reg .timeLo s, rfl, fun t ht => ⟨_, hostAccess_read_reg .timeHi t, rfl, ?_⟩⟩
  change t.timeHiShadow ++ s.clk.time.setWidth 32 = s.clk.time
  rw [ht]
  change s.clk.time.extractLsb' 32 32 ++ s.clk.time.setWidth 32 = s.clk.time
  apply BitVec.eq_of_getLsbD_eq
  intro i hi
  simp only [BitVec.getLsbD_append, BitVec.getLsbD_extractLsb', BitVec.getLsbD_setWidth]
  by_cases h : i < 32
  · simp [h]
  · simp [h, show i - 32 < 32 by omega, show 32 + (i - 32) = i by omega]

end Sys2Proof.Machine

namespace Sys2Proof.Machine

/-! ### Status words (R27, R36, R57, R330) -/

theorem getLsbD_bitAt (lo : Nat) (b : Bool) (i : Nat) : (bitAt lo b).getLsbD i = (decide (i = lo ∧ i < 32) && b) := by
  simp only [bitAt, ofBit, BitVec.getLsbD_shiftLeft, BitVec.getLsbD_setWidth, BitVec.getLsbD_ofBool]
  grind

theorem getLsbD_fieldAt {n : Nat} (lo : Nat) (v : BitVec n) (i : Nat) :
    (fieldAt lo v).getLsbD i = (decide (lo ≤ i ∧ i < 32) && v.getLsbD (i - lo)) := by
  simp only [fieldAt, BitVec.getLsbD_shiftLeft, BitVec.getLsbD_setWidth]
  grind

/-- A bit of a word put together from bits and fields. -/
theorem statusWord_getLsbD (s : State) (i : Nat) : (statusWord s).getLsbD i =
    ((decide (i = 0 ∧ i < 32) && s.busy) || (decide (i = 1 ∧ i < 32) && s.status.done) ||
      (decide (i = 2 ∧ i < 32) && s.hookPending) ||
      (decide (i = 3 ∧ i < 32) && s.status.hookPost) || (decide (i = 4 ∧ i < 32) && s.status.hookRaw) ||
      (decide (8 ≤ i ∧ i < 32) && s.status.resp.code.getLsbD (i - 8)) ||
      (decide (16 ≤ i ∧ i < 32) && s.status.step.getLsbD (i - 16))) := by
  simp only [statusWord, BitVec.getLsbD_or, getLsbD_bitAt, getLsbD_fieldAt]

theorem pinStatusWord_getLsbD (s : State) (i : Nat) : (pinStatusWord s).getLsbD i =
    ((decide (0 ≤ i ∧ i < 32) && s.clk.rbSync.getLsbD (i - 0)) ||
      (decide (16 ≤ i ∧ i < 32) && s.pins.latch.code.getLsbD (i - 16)) ||
      (decide (i = 18 ∧ i < 32) && (decide (s.pins.dir = .write))) || (decide (i = 19 ∧ i < 32) && s.pins.weAct) ||
      (decide (i = 20 ∧ i < 32) && s.pins.reAct)) := by
  simp only [pinStatusWord, BitVec.getLsbD_or, getLsbD_bitAt, getLsbD_fieldAt]

theorem decStatusWord_getLsbD (s : State) (i : Nat) : (readReg s .decStatus).getLsbD i =
    ((decide (i = 0 ∧ i < 32) && s.dec.err) || (decide (4 ≤ i ∧ i < 32) && s.dec.lastOp.getLsbD (i - 4))) := by
  simp only [readReg, BitVec.getLsbD_or, getLsbD_bitAt, getLsbD_fieldAt]

theorem statusWord_fields (s : State) :
    (statusWord s).getLsbD 0 = s.busy ∧ (statusWord s).getLsbD 1 = s.status.done ∧
    (statusWord s).getLsbD 2 = s.hookPending ∧ (statusWord s).getLsbD 3 = s.status.hookPost ∧
    (statusWord s).getLsbD 4 = s.status.hookRaw ∧ (statusWord s).extractLsb' 8 3 = s.status.resp.code ∧
    (statusWord s).extractLsb' 16 8 = s.status.step ∧ statusWord s &&& 0xFF00F8E0 = 0 := by
  refine ⟨?_, ?_, ?_, ?_, ?_, ?resp, ?step, ?reserved⟩
  case resp =>
    apply BitVec.eq_of_getLsbD_eq
    intro i hi
    rw [BitVec.getLsbD_extractLsb', statusWord_getLsbD]
    interval_cases i <;> simp
  case step =>
    apply BitVec.eq_of_getLsbD_eq
    intro i hi
    rw [BitVec.getLsbD_extractLsb', statusWord_getLsbD]
    interval_cases i <;> simp
  case reserved =>
    apply BitVec.eq_of_getLsbD_eq
    intro i hi
    rw [BitVec.getLsbD_and, statusWord_getLsbD]
    interval_cases i <;> simp
  all_goals
    rw [statusWord_getLsbD]
    simp

theorem pinStatusWord_fields (s : State) :
    (pinStatusWord s).extractLsb' 0 16 = s.clk.rbSync ∧ (pinStatusWord s).extractLsb' 16 2 = s.pins.latch.code ∧
    (pinStatusWord s).getLsbD 18 = decide (s.pins.dir = .write) ∧ (pinStatusWord s).getLsbD 19 = s.pins.weAct ∧
    (pinStatusWord s).getLsbD 20 = s.pins.reAct ∧ pinStatusWord s &&& 0xFFE00000 = 0 := by
  refine ⟨?lines, ?latch, ?_, ?_, ?_, ?reserved⟩
  case lines =>
    apply BitVec.eq_of_getLsbD_eq
    intro i hi
    rw [BitVec.getLsbD_extractLsb', pinStatusWord_getLsbD]
    interval_cases i <;> simp
  case latch =>
    apply BitVec.eq_of_getLsbD_eq
    intro i hi
    rw [BitVec.getLsbD_extractLsb', pinStatusWord_getLsbD]
    interval_cases i <;> simp
  case reserved =>
    apply BitVec.eq_of_getLsbD_eq
    intro i hi
    rw [BitVec.getLsbD_and, pinStatusWord_getLsbD]
    interval_cases i <;> simp
  all_goals
    rw [pinStatusWord_getLsbD]
    simp

theorem decStatusWord_fields (s : State) :
    (readReg s .decStatus).getLsbD 0 = s.dec.err ∧ (readReg s .decStatus).extractLsb' 4 3 = s.dec.lastOp ∧
    readReg s .decStatus &&& 0xFFFFFF8E = 0 := by
  refine ⟨?err, ?op, ?reserved⟩
  case err =>
    rw [decStatusWord_getLsbD]
    simp
  case op =>
    apply BitVec.eq_of_getLsbD_eq
    intro i hi
    rw [BitVec.getLsbD_extractLsb', decStatusWord_getLsbD]
    interval_cases i <;> simp
  case reserved =>
    apply BitVec.eq_of_getLsbD_eq
    intro i hi
    rw [BitVec.getLsbD_and, decStatusWord_getLsbD]
    interval_cases i <;> simp

theorem readReg_irqEn_bits (s : State) :
    (readReg s .irqEn).getLsbD 0 = s.irqEn.doneIe ∧ (readReg s .irqEn).getLsbD 1 = s.irqEn.hookIe := by
  constructor <;> simp only [readReg, BitVec.getLsbD_or, getLsbD_bitAt] <;> simp

/-- Settles O16: each word by its bits; IRQ is computed from the bits that STATUS and IRQ_EN show. -/
theorem statusWordsAndIrq : Obligations.StatusWordsAndIrq := by
  refine ⟨fun r s => ?_, ?_⟩
  · rw [hostAccess_read_reg]
    cases r <;> rfl
  · rintro s _ _ _ rfl rfl rfl
    obtain ⟨hbusy, hdone, hhook, hpost, hraw, hresp, hstep, hzero⟩ := statusWord_fields s
    obtain ⟨hlines, hlatch, hdir, hwe, hre, hpzero⟩ := pinStatusWord_fields s
    obtain ⟨hdoneIe, hhookIe⟩ := readReg_irqEn_bits s
    refine ⟨⟨hbusy, hdone, hhook, hpost, hraw, ?_, hstep, hzero⟩, ⟨hlines, ?_, hdir, hwe, hre, hpzero⟩,
      decStatusWord_fields s, ⟨?_, rfl, rfl, rfl, rfl, rfl, rfl⟩, ?_⟩
    · exact hresp.trans (by cases s.status.resp <;> rfl)
    · exact hlatch.trans (by cases s.pins.latch <;> rfl)
    · exact BitVec.shiftLeft_zero _
    · change s.irq = ((statusWord s).getLsbD 1 && _ || (statusWord s).getLsbD 2 && _)
      rw [hdone, hhook, hdoneIe, hhookIe]
      rfl

/-! ### The CTRL commands alone (R26, R170, R181, R185) -/

theorem hostAccess_write_ctrl (v : Word) (s : State) :
    hostAccess (.write 4 0x008 v) s = execAll (decodeCtrl v) s := hostAccess_write_reg .ctrl v s

theorem hostAccess_write_decCtrl (v : Word) (s : State) :
    hostAccess (.write 4 0x090 v) s = exec (decodeDec v) s := hostAccess_write_reg .decCtrl v s

theorem hookAck_pending {s : State} (h : s.hookPending = true) :
    exec .hookAck s = .next { s with fsm := .running } := by
  change execHookAck s = _
  rw [execHookAck, if_pos h]
  rfl

theorem hookAck_ignored {s : State} (h : s.hookPending = false) : exec .hookAck s = .next s := by
  change execHookAck s = _
  rw [execHookAck, h]
  rfl

/-- Settles O24. -/
theorem hookAckReturns : Obligations.HookAckReturns := fun _ => ⟨hookAck_pending, hookAck_ignored⟩

/-- Settles O25: `execDoneClr` asks for BUSY and nothing else. -/
theorem doneClrClears : Obligations.DoneClrClears := by
  intro s
  constructor <;> intro hb <;> change execDoneClr s = _ <;> rw [execDoneClr, hb] <;> rfl

/-- Settles O17: the HOOK_ACK of 0x3 leaves a running machine, in which the START after it is ignored. -/
theorem startIgnoredWhileBusy : Obligations.StartIgnoredWhileBusy := by
  refine ⟨fun s => start_busy, fun s hf => ?_⟩
  rw [hostAccess_write_ctrl, show decodeCtrl 0x3 = [.hookAck, .start] from rfl, execAll,
    hookAck_pending (by simp [State.hookPending, hf])]
  change execAll [.start] { s with fsm := .running } = _
  rw [execAll, start_busy (busy_of_running rfl)]
  rfl

/-! ### Which step runs (R26, R31, R55, R176) -/

theorem decode_entry_bytes (e : StepEntry) : decode .stepEntry e.bytes = .ok e.instr := by
  rw [decode, StepEntry.bytes, wordsOfBytes_flatMap]
  rfl

theorem wordsOfBytes_word (v : Word) : wordsOfBytes (bytesOfWord v) = [v] := by
  have h := wordsOfBytes_flatMap [v]
  simpa using h

theorem agentStep_exec {s : State} (hf : s.fsm = .running) (hl : s.status.step.toNat < s.effLen.toNat) :
    agentStep s = exec s.fetched.instr s := by
  simp only [agentStep, hf, sequencerStep]
  exact if_pos hl

theorem execAll_append (is js : List Instr) (s : State) : execAll (is ++ js) s =
    match execAll is s with
    | .next x => execAll js x
    | .fault f => .fault f
    | .refused r => .refused r := by
  induction is generalizing s with
  | nil => rfl
  | cons i is ih =>
    simp only [List.cons_append, execAll]
    cases exec i s with
    | next x => exact ih x
    | fault f => rfl
    | refused r => rfl

theorem execAll_one (i : Instr) (s : State) : execAll [i] s = exec i s := by
  rw [execAll]
  cases exec i s <;> rfl

/-- A decoded CTRL word of one command runs that command. -/
theorem execAll_of_decode {v : Word} {i : Instr} (h : decode .ctrl (bytesOfWord v) = .ok i) (s : State) :
    execAll (decodeCtrl v) s = exec i s := by
  rw [decode, wordsOfBytes_word] at h
  simp only [decodeWords] at h
  split at h
  · next j hj =>
    cases h
    rw [hj, execAll_one]
  · cases h
  · cases h

/-- DONE_CLR and HOOK_ACK always answer a next state. -/
theorem command_answers {i : Instr} (h : i = .doneClr ∨ i = .hookAck) (s : State) : ∃ u, exec i s = .next u := by
  rcases h with rfl | rfl
  · change ∃ u, execDoneClr s = .next u
    unfold execDoneClr
    split <;> exact ⟨_, rfl⟩
  · change ∃ u, execHookAck s = .next u
    unfold execHookAck
    split <;> exact ⟨_, rfl⟩

/-- A command of a CTRL word that is given only where its bit is set. -/
theorem execAll_optional {i : Instr} (h : i = .doneClr ∨ i = .hookAck) (b : Bool) (s : State) :
    ∃ x, execAll (if b = true then [i] else []) s = .next x ∧ (if b = true then exec i s = .next x else x = s) := by
  cases b with
  | false => exact ⟨s, rfl, rfl⟩
  | true =>
    obtain ⟨x, hx⟩ := command_answers h s
    exact ⟨x, (execAll_one i s).trans hx, hx⟩

/-- Settles O51: each way a step finds its instruction, and a CTRL word as its three optional commands in order. -/
theorem stepRunsDecoded : Obligations.StepRunsDecoded := by
  refine ⟨fun s i hr hf hl hd => ?_, fun s a rest hr hp => step_access hr hp, fun s i v hd => ?_, fun s i v hd => ?_,
    fun s v => ?_⟩
  · rw [decode_entry_bytes] at hd
    cases hd
    refine ⟨fun hp => ?_, fun n x rest hp => ?_⟩
    · rw [step_empty hr hp, agentStep_exec hf hl]
    · rw [step_waiting hr hp]
      exact agentStep_exec (s := { s with port := (n, x) :: rest }) hf hl
  · rw [decode, wordsOfBytes_word] at hd
    cases hd
    exact hostAccess_write_decCtrl v s
  · rw [hostAccess_write_ctrl, execAll_of_decode hd]
  · obtain ⟨x, hx, hdone⟩ := execAll_optional (.inl rfl) (v.getLsbD 2) s
    obtain ⟨y, hy, hack⟩ := execAll_optional (.inr rfl) (v.getLsbD 1) x
    refine ⟨x, y, hdone, hack, ?_⟩
    rw [hostAccess_write_ctrl, decodeCtrl, execAll_append, hx]
    simp only [execAll_append, hy]
    split
    · exact execAll_one .start y
    · rfl

/-! ### Words of the spec (R120, R122) -/

/-- Settles O3: closed words, evaluated. -/
theorem specWordsDecode : Obligations.SpecWordsDecode :=
  fun _ => ⟨rfl, rfl, rfl, rfl, rfl, rfl, rfl, rfl, rfl, rfl⟩

/-- Settles O23: `nextStep` and nothing else. -/
theorem holeSkipped : Obligations.HoleSkipped := fun s => congrArg Host.Outcome.next (nextStep_eq s)

end Sys2Proof.Machine

namespace Sys2Proof.Machine

/-! ### The headers and the merge (R110, R171, R172) -/

/-- The search for a plan once the template's header is read (R171 checks 1 and 2). -/
theorem findPlan_template {m : Memory} {c : RunCfg} {th : Word} (ht : c.template.toNat < Config.numDesc)
    (hh : m.header c.template.toNat = .ok th) :
    findPlan m c =
      if th.getLsbD 31 = false then .ok none
      else if c.overrideEn = false then .ok (some ⟨c.template.toNat, th, false, c.override.toNat, 0⟩)
      else if Config.numDesc ≤ c.override.toNat then .ok none
      else m.header c.override.toNat >>= fun oh =>
        if oh.getLsbD 31 = false then .ok none
        else .ok (some ⟨c.template.toNat, th, true, c.override.toNat, oh⟩) := by
  rw [findPlan, if_neg (Nat.not_le.mpr ht), hh]
  rfl

/-- A template's header that does not read stops the search (R363). -/
theorem findPlan_unread {m : Memory} {c : RunCfg} {f : Fault} (ht : c.template.toNat < Config.numDesc)
    (hh : m.header c.template.toNat = .error f) : findPlan m c = .error f := by
  rw [findPlan, if_neg (Nat.not_le.mpr ht), hh]
  rfl

/-- So does an enabled override's (R363). -/
theorem findPlan_override_unread {m : Memory} {c : RunCfg} {th : Word} {f : Fault}
    (ht : c.template.toNat < Config.numDesc) (hh : m.header c.template.toNat = .ok th) (hv : th.getLsbD 31 = true)
    (hen : c.overrideEn = true) (ho : c.override.toNat < Config.numDesc)
    (hoh : m.header c.override.toNat = .error f) : findPlan m c = .error f := by
  rw [findPlan_template ht hh, if_neg (by simp [hv]), if_neg (by simp [hen]), if_neg (Nat.not_le.mpr ho), hoh]
  rfl

/-- The plan with an override, once both headers are read (R171 check 2). -/
theorem findPlan_override {m : Memory} {c : RunCfg} {th oh : Word} (ht : c.template.toNat < Config.numDesc)
    (hh : m.header c.template.toNat = .ok th) (hv : th.getLsbD 31 = true) (hen : c.overrideEn = true)
    (ho : c.override.toNat < Config.numDesc) (hoh : m.header c.override.toNat = .ok oh) :
    findPlan m c = if oh.getLsbD 31 = false then .ok none
      else .ok (some ⟨c.template.toNat, th, true, c.override.toNat, oh⟩) := by
  rw [findPlan_template ht hh, if_neg (by simp [hv]), if_neg (by simp [hen]), if_neg (Nat.not_le.mpr ho), hoh]
  rfl

theorem header_unwritten {m : Memory} {d j : Nat} (hj : j < 4) (hw : written m (descOffset d 0) j)
    (hr : m.read (descOffset d 0 + j) = none) : m.header d = .error (.unwrittenRam (descOffset d 0 + j)) :=
  Memory.word_unwritten hj hw hr

/-- Settles O20: the search for a plan, branch by branch. -/
theorem templateAndOverrideChecks : Obligations.TemplateAndOverrideChecks := by
  intro m c
  refine ⟨fun ht => by rw [findPlan, if_pos ht], fun ht hr => ?_, fun th ht hh => ⟨?_, ?_, ?_, ?_⟩⟩
  · exact findPlan_unread ht (header_unwritten (j := 0) (by omega) (fun i hi => by omega) hr)
  · intro hv
    rw [findPlan_template ht hh, if_pos hv]
  · intro hv hen
    rw [findPlan_template ht hh, if_neg (by simp [hv]), if_pos hen]
    exact ⟨_, rfl, rfl, rfl, rfl⟩
  · intro hv hen ho
    rw [findPlan_template ht hh, if_neg (by simp [hv]), if_neg (by simp [hen]), if_pos ho]
  · intro oh hv hen ho hoh
    refine ⟨fun hov => ?_, fun hov => ?_⟩
    · rw [findPlan_override ht hh hv hen ho hoh, if_pos hov]
    · rw [findPlan_override ht hh hv hen ho hoh, if_neg (by simp [hov])]

/-- What a descriptor gives the merge at an index (R172). -/
theorem stepOrZero_ok {m : Memory} {slot len i : Nat} {e : StepEntry} (h : stepOrZero m slot len i = .ok e) :
    if i < len then m.stepEntry slot i = .ok e else e = StepEntry.zero := by
  unfold stepOrZero at h
  split at h
  · next hi => rw [if_pos hi]; exact h
  · next hi => rw [if_neg hi]; cases h; rfl

/-- What an override that may be absent gives the merge at an index (R172). -/
theorem overrideEntry_ok {m : Memory} {p : RunPlan} {i : Nat} {o : StepEntry}
    (h : (if p.overrideEn then stepOrZero m p.override (headerLength p.oh) i else .ok StepEntry.zero) = .ok o) :
    if p.overrideEn = true ∧ i < headerLength p.oh then m.stepEntry p.override i = .ok o else o = StepEntry.zero := by
  cases hen : p.overrideEn with
  | false =>
    rw [hen] at h
    cases h
    simp
  | true =>
    rw [hen, if_pos rfl] at h
    simpa using stepOrZero_ok h

theorem choose_eq (p : RunPlan) (i : Nat) (t o : StepEntry) : p.choose i t o =
    if p.overrideEn = true ∧ (o.w0.getLsbD 3 = true ∨ (p.th.extractLsb' 0 8).toNat ≤ i) then o else t := by
  refine if_congr ?_ rfl rfl
  rw [Bool.and_eq_true, Bool.or_eq_true, decide_eq_true_iff]
  rfl

/-- Settles O21: the length and the hook enables by definition, each entry by `mergeEntry`. -/
theorem mergePointwise : Obligations.MergePointwise := by
  intro m p
  refine ⟨rfl, ?_, ?_, fun chain h => ?_⟩
  · simp only [RunPlan.preHook, headerPre, Bool.or_eq_true, Bool.and_eq_true]
  · simp only [RunPlan.postHook, headerPost, Bool.or_eq_true, Bool.and_eq_true]
  · obtain ⟨hlen, hget⟩ := mergeFrom_ok h
    refine ⟨hlen, fun i hi => ?_⟩
    obtain ⟨e, he, hci⟩ := hget i hi
    rw [Nat.zero_add] at he
    obtain ⟨t, o, ht, ho, rfl⟩ := mergeEntry_ok he
    exact ⟨t, o, stepOrZero_ok ht, overrideEntry_ok ho, by rw [hci, choose_eq]⟩

/-! ### Check 5, by the bits of a step (R113, R118, R171) -/

theorem bufferFits_iff (d : Device) (x : XferRec) : bufferFits d x = true ↔ ¬ bufferMisplaced d x := by
  have hodd : x.bufBase.getLsbD 0 = decide (x.bufBase.toNat % 2 = 1) := by
    rw [BitVec.getLsbD, Nat.testBit_zero]
  cases hd : d.dataW16 <;>
    simp only [bufferFits, bufferMisplaced, elemsInside, Device.dataWidth, hd, hodd, Width.bytes, Bool.and_eq_true,
      Bool.not_eq_true', Bool.and_eq_false_iff, decide_eq_true_eq, decide_eq_false_iff_not, if_true, if_false,
      Bool.false_eq_true, reduceCtorEq, not_or, Nat.not_lt, true_and, false_and, and_true, not_false_eq_true,
      true_or, false_or]

theorem recordFits_iff (d : Device) (xs : Vector XferRec Config.numXfer) (k : BitVec 3) :
    recordFits d xs k = false ↔
      Config.numXfer ≤ k.toNat ∨ ∃ j : Fin Config.numXfer, j.val = k.toNat ∧ bufferMisplaced d xs[j] := by
  unfold recordFits recordIndex
  by_cases hk : k.toNat < Config.numXfer
  · rw [dif_pos hk]
    have hfit := bufferFits_iff d xs[(⟨k.toNat, hk⟩ : Fin Config.numXfer)]
    change bufferFits d xs[(⟨k.toNat, hk⟩ : Fin Config.numXfer)] = false ↔ _
    rw [← Bool.not_eq_true, hfit, not_not]
    constructor
    · exact fun h => .inr ⟨⟨k.toNat, hk⟩, rfl, h⟩
    · rintro (h | ⟨j, hj, h⟩)
      · exact absurd hk (Nat.not_lt.mpr h)
      · have : j = ⟨k.toNat, hk⟩ := Fin.ext hj
        exact this ▸ h
  · rw [dif_neg hk]
    exact ⟨fun _ => .inl (Nat.le_of_not_lt hk), fun _ => rfl⟩

/-- A step fails check 5 by its KIND and, for a raw step, by its record (R118, R171). -/
theorem stepAcceptable_iff (d : Device) (xs : Vector XferRec Config.numXfer) (e : StepEntry) :
    stepAcceptable d xs e = false ↔ stepIllegal d xs e := by
  have hkind := (kindOf e.w0).isLt
  have hxfer := recordFits_iff d xs (payloadXfer e.w1)
  unfold stepAcceptable StepEntry.instr decodeStep stepIllegal
  change _ ↔ definedOf e.w0 = true ∧ ((kindOf e.w0).toNat = 7 ∨
    (((kindOf e.w0).toNat = 5 ∨ (kindOf e.w0).toNat = 6) ∧ _))
  cases hdef : definedOf e.w0 with
  | false => simp
  | true =>
    simp only [Bool.true_eq_false, if_false, true_and]
    generalize (kindOf e.w0).toNat = kind at hkind
    interval_cases kind
    · simp
    · simp
    · simp
    · simp
    · simp
    · exact hxfer.trans (by simp; rfl)
    · exact hxfer.trans (by simp; rfl)
    · simp

/-! ### START (R170 to R175) -/

/-- Where the checks of START begin, only flags and counters have changed (R170). -/
theorem findPlan_beginRun {s : State} {r : Except Fault (Option RunPlan)} (h : findPlan s.mem s.runCfg = r) :
    findPlan (beginRun s).mem (beginRun s).runCfg = r := h

/-- A run that START rejects (R171, R320). -/
theorem start_rejects {s : State} {r : Resp} {len : BitVec 8} {eff : EffChain} (hb : s.busy = false)
    (h : validateAndMerge (beginRun s) = .ok (some r, { beginRun s with effLen := len, eff := eff })) :
    ∃ u, exec .start s = .next u ∧ s.clk.Quiet u.clk ∧
      u = { s with status := { s.status with done := true, resp := r, step := 0 }
                   fsm := .idle, phase := .begin, bytes := 0, effLen := len, eff := eff
                   trace := .finish r 0 :: s.trace, clk := u.clk } :=
  ⟨_, execStart_rejected hb h, Clk.pass_quiet _, rfl⟩

/-- A chain too long for EFF (R171 check 3). -/
theorem mergeAndCheck_long {p : RunPlan} (s : State) (h : Config.maxSteps < p.length) :
    mergeAndCheck p s = .ok (some .chainTooLong, { s with effLen := BitVec.ofNat 8 p.length }) := by
  rw [mergeAndCheck]
  exact if_pos h

/-- A LUN that does not exist (R171 check 4). -/
theorem mergeAndCheck_lun {p : RunPlan} {s : State} (h : p.length ≤ Config.maxSteps)
    (hl : s.dev.luns ≤ s.runCfg.lun.toNat) :
    mergeAndCheck p s = .ok (some .cmdInvalid, { s with effLen := BitVec.ofNat 8 p.length }) := by
  rw [mergeAndCheck]
  exact (if_neg (Nat.not_lt.mpr h)).trans (if_pos hl)

/-- Past checks 3 and 4 the merge is read (R171 check 5). -/
theorem mergeAndCheck_merge {p : RunPlan} {s : State} (h : p.length ≤ Config.maxSteps)
    (hl : s.runCfg.lun.toNat < s.dev.luns) :
    mergeAndCheck p s = (do
      let chain ← mergeFrom s.mem p 0 p.length
      .ok (validateChain p chain { s with effLen := BitVec.ofNat 8 p.length })) := by
  rw [mergeAndCheck]
  exact (if_neg (Nat.not_lt.mpr h)).trans (if_neg (Nat.not_le.mpr hl))

/-- Check 5 on a merged chain (R171). -/
theorem mergeAndCheck_chain {p : RunPlan} {s : State} {chain : List StepEntry} (h : p.length ≤ Config.maxSteps)
    (hl : s.runCfg.lun.toNat < s.dev.luns) (hm : mergeFrom s.mem p 0 p.length = .ok chain) :
    mergeAndCheck p s = .ok (if chain.all (stepAcceptable s.dev s.xfer) then none else some .cmdInvalid,
      { s with effLen := BitVec.ofNat 8 p.length, eff := fillEff p chain s.eff }) := by
  rw [mergeAndCheck_merge h hl, hm]
  rfl

/-- Settles O19: each check by its lemma, and check 5 by `stepAcceptable_iff`. -/
theorem startRejected : Obligations.StartRejected := by
  refine ⟨stepAcceptable_iff, bufferFits_iff, fun s hb => ⟨fun hp => ?_, fun p hp hlong => ?_,
    fun p hp hlen hlun => ?_, fun p chain hp hlen hlun hm hill => ?_⟩⟩
  · exact start_rejects (len := 0) (eff := s.eff) hb (validateAndMerge_none (findPlan_beginRun hp))
  · exact start_rejects (eff := s.eff) hb
      ((validateAndMerge_plan (findPlan_beginRun hp)).trans (mergeAndCheck_long (beginRun s) hlong))
  · exact start_rejects (eff := s.eff) hb
      ((validateAndMerge_plan (findPlan_beginRun hp)).trans (mergeAndCheck_lun (s := beginRun s) hlen hlun))
  · obtain ⟨e, he, hbad⟩ := hill
    have hall : ¬ chain.all (stepAcceptable (beginRun s).dev (beginRun s).xfer) = true := by
      intro h
      have hok : stepAcceptable s.dev s.xfer e = true := List.all_eq_true.mp h e he
      rw [(stepAcceptable_iff _ _ _).mpr hbad] at hok
      cases hok
    have hcheck := mergeAndCheck_chain (s := beginRun s) hlen hlun hm
    rw [if_neg hall] at hcheck
    exact start_rejects hb ((validateAndMerge_plan (findPlan_beginRun hp)).trans hcheck)

/-- What CUR shows once an accepted START stands at step 0 (R34). -/
theorem cur_of_filled {p : RunPlan} {chain : List StepEntry} {e : EffChain} {cur : CurWords}
    (hlen : chain.length = p.length) (hmax : p.length ≤ Config.maxSteps) :
    (if 0 < (BitVec.ofNat 8 p.length).toNat then ((fillEff p chain e).entry 0).cur else cur) =
      ((chain[0]?).map StepEntry.cur).getD cur := by
  rw [toNat_ofNat_length hmax, ← hlen]
  split
  · next h => rw [fillEff_entry h, List.getElem?_eq_getElem h]; rfl
  · next h => rw [List.getElem?_eq_none (Nat.le_of_not_lt h)]; rfl

/-- Settles O18: a chain of legal steps passes check 5, and `enterLoop` sets up the pins and stands at step 0. -/
theorem startAccepted : Obligations.StartAccepted := by
  intro s p chain hb hp hlen hlun hm hlegal
  have hall : chain.all (stepAcceptable (beginRun s).dev (beginRun s).xfer) = true := by
    refine List.all_eq_true.mpr fun e he => ?_
    rw [← Bool.not_eq_false, stepAcceptable_iff]
    exact hlegal e he
  have hcheck := mergeAndCheck_chain (s := beginRun s) hlen hlun hm
  rw [if_pos hall] at hcheck
  have hrun := execStart_accepted hb ((validateAndMerge_plan (findPlan_beginRun hp)).trans hcheck)
  obtain ⟨c, e, q⟩ :=
    enterLoop_spec { beginRun s with effLen := BitVec.ofNat 8 p.length, eff := fillEff p chain (beginRun s).eff }
  refine ⟨_, hrun, ?_, ?_, ?_⟩
  · rw [e]; exact q
  · rw [e]; exact fun _ => rfl
  · rw [e]
    simp only [cur_of_filled (mergeFrom_ok hm).1 hlen]
    rfl

/-! ### The end of a run (R118, R176, R179) -/

/-- Settles O22: past the last step the sequencer's step is `endRun`. -/
theorem runEndsOk : Obligations.RunEndsOk := by
  intro s hr hp hf hl
  refine ⟨endRun s, ?_, (Clk.pass_quiet _).trans (Clk.pass_quiet _), fun _ => rfl, rfl⟩
  rw [step_empty hr hp]
  simp only [agentStep, hf, sequencerStep]
  exact if_neg (Nat.not_lt.mpr hl)

theorem recordIndex_none {k : BitVec 3} (h : Config.numXfer ≤ k.toNat) : recordIndex k = none :=
  dif_neg (Nat.not_lt.mpr h)

/-- Settles O43: such a step is `rejectRun`. -/
theorem illegalStepsEndRun : Obligations.IllegalStepsEndRun := by
  intro i s hi
  have hill : i = .illegalKind7 ∨ ∃ k t, (i = .raww k t ∨ i = .rawr k t) ∧ recordIndex k = none := by
    rcases hi with hi | ⟨k, t, hi, hk⟩
    · exact .inl hi
    · exact .inr ⟨k, t, hi, recordIndex_none hk⟩
  exact ⟨_, exec_illegal hill, Clk.pass_quiet _, fun _ => rfl, rfl⟩

end Sys2Proof.Machine

namespace Sys2Proof.Machine

/-! ### Control steps (R200 to R212, R339) -/

theorem controlCycles_unhooked {vs : List Half} {t : Timing} {s : State} (h : s.eff.post = false) :
    controlCycles vs t s = controlTail t (sendCycles s.dev.controlWidth t vs (setDir .write s)) :=
  (controlCycles_eq vs t s).trans (if_neg (by simp [h]))

theorem controlCycles_hooked {vs : List Half} {t : Timing} {s : State} (h : s.eff.post = true) :
    controlCycles vs t s =
      enterHook .post false 0 (sendCycles s.dev.controlWidth t vs (setDir .write s)) :=
  (controlCycles_eq vs t s).trans (if_pos h)

/-- A control step with no pre-hook, from its beginning to its cycles (R200). -/
theorem controlStep_cycles {m : Latch} {vs : List Half} {t : Timing} {s : State} (hp : s.phase = .begin)
    (hr : controlReadyWait m t s) (hpre : s.eff.pre = false) : ∃ z, s.clk.Quiet z.clk ∧
      z = { s with pins := { s.pins with latch := m }
                   trace := (headEvents m t ++ readyEvents s t ++ delayEvents t.rdyPost).reverse ++ s.trace
                   clk := z.clk } ∧ controlStep m vs t s = controlCycles vs t z := by
  obtain ⟨c, q, hz⟩ := controlStep_ready (vs := vs) hp hr
  exact ⟨_, q, rfl, (hz _ rfl).trans (if_neg (by simp [hpre]))⟩

/-- Settles O26: the state at the pre-hook point, then the cycles and the tail. -/
theorem controlStepCompletes : Obligations.ControlStepCompletes := by
  intro i m vs t s hf hp hr hpre hpost
  obtain ⟨z, q, hz, hs⟩ := controlStep_cycles (vs := vs) hp hr hpre
  obtain ⟨d, e, q'⟩ := controlCycles_tail vs t z
  have hpost' : z.eff.post = false := by rw [hz]; exact hpost
  refine ⟨_, (exec_control hf).trans (congrArg Host.Outcome.next
    (hs.trans ((controlCycles_unhooked hpost').trans e))), q.trans q', fun _ => by rw [hz], ?_⟩
  rw [hz, hp]
  simp [wordsShown]

/-- A ready wait that times out ends the run: the waits up to the first TIMEOUT, then `timeoutPath` (R146, R209). -/
theorem stepWait_timeout {t : Timing} {s : State} (h : ¬ (stepWait t s).1 = true) : ∃ ok p rest c,
    waitPlan s.dev s.runCfg.lun.toNat t.rdy t.rdyOther = ok ++ p :: rest ∧ s.clk.Quiet c ∧
      timeoutPath t (stepWait t s).2 = { s with
        status := { s.status with resp := .timeout, done := true }
        fsm := .idle
        phase := .begin
        pins := { s.pins with latch := .neutral }
        trace := (okWaits ok ++ [Event.wait p.1 p.2 false, .latch .neutral] ++
          delayEvents t.ldPre ++ delayEvents t.ldPost ++ [Event.finish .timeout s.bytes]).reverse ++ s.trace
        clk := c } := by
  obtain ⟨es, c, hw, q, -, hto⟩ := stepWait_by t s
  obtain ⟨ok, p, rest, hplan, rfl⟩ := hto (Bool.not_eq_true _ ▸ h)
  obtain ⟨d, ht, q'⟩ := timeoutPath_spec t (stepWait t s).2
  rw [hw] at q'
  refine ⟨ok, p, rest, d, hplan, q.trans q', ht.trans ?_⟩
  rw [hw]
  simp

/-- Settles O27: the latch phase, then the wait's first TIMEOUT. -/
theorem controlStepTimesOut : Obligations.ControlStepTimesOut := by
  intro i m vs t s hf hp hr
  obtain ⟨c, hl, q⟩ := controlLatched_spec m t s
  obtain ⟨ok, p, rest, d, hplan, q', ht⟩ := stepWait_timeout hr
  have hs : controlStep m vs t s = timeoutPath t (stepWait t (controlLatched m t s)).2 :=
    (controlStep_begin hp).trans (if_neg hr)
  have hclk : (controlLatched m t s).clk = c := by rw [hl]
  have hplan' : waitPlan s.dev s.runCfg.lun.toNat t.rdy t.rdyOther = ok ++ p :: rest := by
    simpa [hl] using hplan
  refine ⟨_, ok, p, rest, (exec_control hf).trans (congrArg Host.Outcome.next (hs.trans ht)), q.trans (hclk ▸ q'),
    fun a => by rw [hl], hplan', ?_⟩
  rw [hl, hp]
  simp

/-- Settles O28: `enterHook` at the pre-hook point. -/
theorem controlStepPreHook : Obligations.ControlStepPreHook := by
  intro i m vs t s hf hp hr hpre
  obtain ⟨c, q, hz⟩ := controlStep_ready (vs := vs) hp hr
  refine ⟨_, (exec_control hf).trans (congrArg Host.Outcome.next ((hz _ rfl).trans (if_pos hpre))),
    q.trans (Clk.pass_quiet _), fun _ => rfl, ?_⟩
  simp [enterHook, HookKind.resumePhase]

/-- Settles O29: the cycles, then the post-hook, from the beginning or from after the pre-hook. -/
theorem controlStepPostHook : Obligations.ControlStepPostHook := by
  intro i m vs t s hf hpost
  refine ⟨fun hp hr hpre => ?_, fun hp => ?_⟩
  · obtain ⟨z, q, hz, hs⟩ := controlStep_cycles (vs := vs) hp hr hpre
    obtain ⟨d, e, q'⟩ := controlCycles_hook vs t z
    have hpost' : z.eff.post = true := by rw [hz]; exact hpost
    refine ⟨_, (exec_control hf).trans (congrArg Host.Outcome.next
      (hs.trans ((controlCycles_hooked hpost').trans e))), q.trans q', fun _ => by rw [hz], ?_⟩
    rw [hz]
    simp
  · obtain ⟨c, e, q⟩ := controlCycles_hook vs t s
    have hs : controlStep m vs t s = controlCycles vs t s := by unfold controlStep; rw [hp]
    exact ⟨_, (exec_control hf).trans (congrArg Host.Outcome.next
      (hs.trans ((controlCycles_hooked hpost).trans e))), q, fun _ => rfl, rfl⟩

/-- Settles O30: after the pre-hook the cycles and the tail, after the post-hook the tail alone. -/
theorem controlStepResumes : Obligations.ControlStepResumes := by
  intro i m vs t s hf
  refine ⟨fun hp hpost => ?_, fun hp => ?_⟩
  · obtain ⟨c, e, q⟩ := controlCycles_tail vs t s
    have hs : controlStep m vs t s = controlCycles vs t s := by unfold controlStep; rw [hp]
    exact ⟨_, (exec_control hf).trans (congrArg Host.Outcome.next
      (hs.trans ((controlCycles_unhooked hpost).trans e))), q, fun _ => rfl, rfl⟩
  · obtain ⟨c, e, q⟩ := controlTail_spec t s
    have hs : controlStep m vs t s = controlTail t s := by unfold controlStep; rw [hp]
    exact ⟨_, (exec_control hf).trans (congrArg Host.Outcome.next (hs.trans e)), q, fun _ => rfl, rfl⟩

/-- The number of cycles a control instruction sends (R208). -/
theorem length_controlForm {d : Device} {m : Latch} {vs : List Half} {t : Timing} (i : Instr) :
    controlForm d i = some (m, vs, t) → vs.length = match i with
      | .addr _ _ _ => d.colCycles.toNat + d.rowCycles.toNat
      | .addrc _ _ => d.colCycles.toNat
      | .addrr _ _ => d.rowCycles.toNat
      | _ => 1 := by
  intro h
  cases i <;> simp only [controlForm, Option.some.injEq, Prod.mk.injEq, reduceCtorEq] at h <;>
    obtain ⟨-, rfl, -⟩ := h
  case addr col row => simp [columnCycles, rowCycles, length_addressBytes]
  case addrc col => simp [columnCycles, length_addressBytes]
  case addrr row => simp [rowCycles, length_addressBytes]
  all_goals rfl

/-- Settles O32: O26 with the number of cycles of each form. -/
theorem controlStepBytes : Obligations.ControlStepBytes := by
  intro i m vs t s hf hp hr hpre hpost
  obtain ⟨u, hu, -, -, he⟩ := controlStepCompletes i m vs t s hf hp hr hpre hpost
  exact ⟨u, hu, (congrArg State.bytes he).trans
    (congrArg (fun n => s.bytes + BitVec.ofNat 32 n) (length_controlForm i hf))⟩

end Sys2Proof.Machine

namespace Sys2Proof.Machine

/-! ### Raw steps up to their loop (R230 to R236, R241, R247) -/

/-- A size asked as PAGE, directly or by the hint (R233). -/
theorem askedSize_page {x : XferRec} (h : x.intended = sizePage ∨ (x.intended = sizeUnset ∧ x.hint = sizePage)) :
    x.askedSize = sizePage := by
  rcases h with h | ⟨h, hh⟩
  · simp [XferRec.askedSize, h, sizePage, sizeUnset]
  · simp [XferRec.askedSize, h, hh, sizePage, sizeUnset]

/-- Settles O33: `askedSize` case by case, and the refusal of PAGE on a 16-bit bus. -/
theorem rawSizes : Obligations.RawSizes := by
  refine ⟨fun d x => ⟨fun hu hp => ?_, fun hu hh => ?_, fun hu h0 hhu hhp => ?_, fun h => ?_⟩,
    fun i d k t s hf hp hw h => ?_⟩
  · simp [resolveSize, XferRec.askedSize, sizeUnset, sizePage, hu, hp]
  · rcases hh with hh | hh <;> simp [resolveSize, XferRec.askedSize, sizeUnset, sizePage, hu, hh]
  · have h0' : x.hint ≠ 0#32 := h0
    simp [resolveSize, XferRec.askedSize, sizeUnset, sizePage, hu, h0', hhu, hhp]
  · rw [resolveSize, if_pos (askedSize_page h)]
  · have hpg : pageOn16Bit s.dev s.xfer[k] = true := by
      rw [pageOn16Bit, hw, askedSize_page h]
      rfl
    rw [exec_raw hf, rawStep_begin hp, if_pos hpg]

/-- Settles O34: the size is written back and the step ends. -/
theorem rawSizeZero : Obligations.RawSizeZero := by
  intro i d k t s hf hp hpg hz
  refine ⟨_, (exec_raw hf).trans (rawStep_zero hp hpg hz), ?_, fun _ => ?_, ?_⟩
  · rw [endStep_eq, rawSized_eq]
    exact (Clk.hold_quiet _ _).trans (Clk.hold_quiet _ _)
  · rw [endStep_eq, rawSized_eq]
  · rw [endStep_eq, rawSized_eq, hp, hz]
    simp [wordsShown]

/-- A raw step of non-zero size whose wait answers OK, at its loop (R230). -/
theorem rawStep_loop {d : Dir} {k : Fin Config.numXfer} {t : Timing} {s : State} (hp : s.phase = .begin)
    (hpg : pageOn16Bit s.dev s.xfer[k] = false) (hz : resolveSize s.dev s.xfer[k] ≠ 0) (hr : rawReadyWait k t s) :
    ∃ z, s.clk.Quiet z.clk ∧
      z = { s with
        hookXfer := BitVec.ofNat 3 k.val
        xfer := s.xfer.set k { s.xfer[k] with
          intended := resolveSize s.dev s.xfer[k], offset := 0, chunkSeq := 0 }
        pins := { s.pins with latch := .neutral }
        trace := (headEvents .neutral t ++ readyEvents s t ++ delayEvents t.rdyPost).reverse ++ s.trace
        clk := z.clk } ∧
      z.xfer[k] = { s.xfer[k] with intended := resolveSize s.dev s.xfer[k], offset := 0, chunkSeq := 0 } ∧
      rawStep d k t s = outcomeOf (streamFrom d k t z) := by
  obtain ⟨c, q, hs⟩ := rawStep_ready (d := d) hp hpg hz hr
  exact ⟨_, q, rfl, by simp, hs _ rfl⟩

/-- Settles O35: without a buffer the loop ends at once. -/
theorem rawNoBuffer : Obligations.RawNoBuffer := by
  intro i d k t s hf hp hpg hsize hcap hr
  obtain ⟨z, q, hz, hx, hs⟩ := rawStep_loop (d := d) hp hpg hsize hr
  have hex : z.xfer[k].exhausted = true := by
    rw [hx]
    exact (exhausted_iff _).mpr (.inl (congrArg BitVec.toNat hcap))
  refine ⟨endStep t z, ?_, ?_, fun _ => ?_, ?_⟩
  · rw [exec_raw hf, hs, streamFrom_exhausted hex]
    rfl
  · rw [endStep_eq]
    exact q.trans (Clk.hold_quiet _ _)
  · rw [endStep_eq, hz]
  · rw [endStep_eq, hz, hp]
    simp [wordsShown]

/-- Settles O36: the latch phase, then the wait's first TIMEOUT. -/
theorem rawTimesOut : Obligations.RawTimesOut := by
  intro i d k t s hf hp hpg hsize hr
  obtain ⟨c, hl, q⟩ := rawAtWait_spec k t s
  obtain ⟨ok, p, rest, e, hplan, q', ht⟩ := stepWait_timeout hr
  have hclk : (rawAtWait k t s).clk = c := by rw [hl]
  have hplan' : waitPlan s.dev s.runCfg.lun.toNat t.rdy t.rdyOther = ok ++ p :: rest := by
    simpa [hl] using hplan
  have hs := (exec_raw hf).trans (rawStep_timeout (d := d) hp hpg hsize hr)
  refine ⟨_, ok, p, rest, hs.trans (congrArg Host.Outcome.next ht), q.trans (hclk ▸ q'),
    fun a => by rw [hl], hplan', ?_⟩
  rw [hl, hp]
  simp

/-! ### Chunks and hooks of a raw step (R237 to R239, R248) -/

/-- Settles O40: the loop stops in its pre-hook, or moves its first chunk and stops in its post-hook. -/
theorem rawFirstHook : Obligations.RawFirstHook := by
  intro i d k t s hf hp hpg hsize hcap hr
  obtain ⟨z, q, hz, hx, hs⟩ := rawStep_loop (d := d) hp hpg hsize hr
  have hex : z.xfer[k].exhausted = false := by
    rw [hx]
    have : resolveSize s.dev s.xfer[k] ≠ 0#32 := hsize
    simp only [XferRec.exhausted, Bool.or_eq_false_iff, decide_eq_false_iff_not]
    exact ⟨hcap, fun h => this (BitVec.eq_of_toNat_eq (by simpa using h))⟩
  have heff : z.eff = s.eff := by rw [hz]
  have hmem : z.mem = s.mem := by rw [hz]
  have hstep : z.status = s.status := by rw [hz]
  refine ⟨z, q, hz, fun hpre => ⟨enterHook .pre true z.xfer[k].chunkSeq z, ?_, Clk.pass_quiet _, fun _ => ?_, ?_⟩,
    fun hpre hpost y hy => ⟨enterHook .post true y.xfer[k].chunkSeq y, ?_, Clk.pass_quiet _, fun _ => rfl, ?_⟩⟩
  · rw [exec_raw hf, hs, streamFrom_pre hex (by rw [heff, hpre])]
    rfl
  · exact congrArg (Memory.read · _) hmem
  · rw [hx, enterHook, hstep]
    rfl
  · rw [exec_raw hf, hs, streamFrom_post hex (by rw [heff, hpre]) (by rw [heff, hpost]) hy]
    rfl
  · have hseq : y.xfer[k].chunkSeq = 0 := by
      obtain ⟨-, -, -, -, -, -, -, h⟩ := moveChunk_frame hy
      rw [h, hx]
    rw [hseq]
    rfl

/-- Settles O41: the loop body after its pre-hook point. -/
theorem rawAfterPreHook : Obligations.RawAfterPreHook := by
  intro i d k t s hf hp
  have hs := (exec_raw hf).trans (rawStep_afterPre (d := d) (k := k) (t := t) hp)
  refine ⟨fun hle => ⟨endStep t s, ?_, ?_, fun _ => ?_, ?_⟩,
    fun y hlt hy => ⟨fun hpost => ?_, fun hpost hpre hex => ?_, fun hpost hpre hex => ?_⟩⟩
  · rw [hs, chunkBody, if_pos hle]
    rfl
  · rw [endStep_eq]
    exact Clk.hold_quiet _ _
  · rw [endStep_eq]
  · rw [endStep_eq]
  · refine ⟨enterHook .post true y.xfer[k].chunkSeq y, ?_, Clk.pass_quiet _, fun _ => rfl, rfl⟩
    rw [hs, chunkBody_moved hlt hy, if_pos hpost]
    rfl
  · have hb : (bumpSeq k y).xfer[k].exhausted = true := by simpa [bumpSeq, XferRec.exhausted] using hex
    refine ⟨endStep t (bumpSeq k y), ?_, ?_, fun _ => ?_, ?_⟩
    · rw [hs, chunkBody_moved hlt hy, if_neg (by simp [hpost]), streamFrom_exhausted hb]
      rfl
    · rw [endStep_eq]
      exact Clk.hold_quiet _ _
    · rw [endStep_eq]
      rfl
    · rw [endStep_eq]
      rfl
  · have hb : (bumpSeq k y).xfer[k].exhausted = false := by simpa [bumpSeq, XferRec.exhausted] using hex
    have he : (bumpSeq k y).eff.pre = true := by
      obtain ⟨-, heff, -⟩ := moveChunk_frame hy
      rw [bumpSeq, setXfer_eff, heff, hpre]
    refine ⟨enterHook .pre true (bumpSeq k y).xfer[k].chunkSeq (bumpSeq k y), ?_, Clk.pass_quiet _,
      fun _ => rfl, ?_⟩
    · rw [hs, chunkBody_moved hlt hy, if_neg (by simp [hpost]), streamFrom_pre hb he]
      rfl
    · simp [enterHook, bumpSeq, State.setXfer, HookKind.resumePhase]

/-- Settles O42: CHUNK_SEQ counts the chunk, and the loop goes on. -/
theorem rawAfterPostHook : Obligations.RawAfterPostHook := by
  intro i d k t s z hf hp hz
  have hzb : z = bumpSeq k s := hz
  have hs : exec i s = outcomeOf (streamFrom d k t z) := by rw [exec_raw hf, rawStep_afterPost hp, hzb]
  have hxz : z.xfer[k] = { s.xfer[k] with chunkSeq := s.xfer[k].chunkSeq + 1 } := by rw [hz]; simp
  have hexz : z.xfer[k].exhausted = s.xfer[k].exhausted := by rw [hxz]; rfl
  have heff : z.eff = s.eff := by rw [hz]
  refine ⟨fun hex => ⟨endStep t z, ?_, ?_, fun _ => ?_, ?_⟩,
    fun hex hpre => ⟨enterHook .pre true z.xfer[k].chunkSeq z, ?_, ?_, fun _ => ?_, ?_⟩,
    fun hex hpre hpost y hy => ⟨enterHook .post true y.xfer[k].chunkSeq y, ?_, Clk.pass_quiet _, fun _ => rfl,
      rfl⟩⟩
  · rw [hs, streamFrom_exhausted (hexz.trans hex)]
    rfl
  · rw [endStep_eq, hz]
    exact Clk.hold_quiet _ _
  · rw [endStep_eq, hz]
  · rw [endStep_eq, hz]
    rfl
  · rw [hs, streamFrom_pre (hexz.trans hex) (by rw [heff, hpre])]
    rfl
  · rw [hz]
    exact Clk.pass_quiet _
  · rw [hz]
    rfl
  · rw [hxz, hz]
    rfl
  · rw [hs, streamFrom_post (hexz.trans hex) (by rw [heff, hpre]) (by rw [heff, hpost]) hy]
    rfl

/-- Settles O39: `writeChunk_spec` and `readChunk_spec`, with the elements' bytes by `readElems_get` and
`storeElems_get`. -/
theorem chunkMoves : Obligations.ChunkMoves := by
  intro k t s w n hw hn hfit
  subst hw
  have hchunk : s.xfer[k].chunk = n := hn.symm
  refine ⟨fun hwr => ?_, ?_⟩
  · obtain ⟨bs, -, hread, hlen⟩ := readElems_ok s.mem s.xfer[k].bufBase s.dev.dataWidth n hwr
    obtain ⟨c, e, q⟩ := writeChunk_spec (k := k) (t := t) (hchunk.symm ▸ hread)
    rw [hlen, hchunk] at e
    exact ⟨_, _, (moveChunk_write (bufferFits_inside hfit)).trans e, q, fun _ => rfl, hlen,
      fun j hj => readElems_get hread hj, rfl⟩
  · obtain ⟨c, vs, e, q, hlen, -, -⟩ := readChunk_spec k t s
    rw [hchunk] at e hlen
    refine ⟨_, vs, (moveChunk_read (bufferFits_inside hfit)).trans (congrArg Except.ok e), q, hlen, fun a ha => ?_,
      fun j hj => ?_, rfl⟩
    · exact storeElems_outside _ _ _ _ _ (hlen ▸ ha)
    · have hv := List.getElem?_eq_getElem (l := vs) (i := j) (by omega)
      exact ⟨_, hv, storeElems_get _ _ _ _ hv⟩

/-! ### The loop without hooks (R237, R238) -/

theorem toNat_pos_of_ne_zero {x : Word} (h : x ≠ 0) : 0 < x.toNat :=
  Nat.pos_of_ne_zero fun h0 => h (BitVec.eq_of_toNat_eq h0)

theorem chunksLeft_eq {cap : Nat} {size : Word} (h : size ≠ 0) :
    chunksLeft cap size.toNat = chunkLengths cap size.toNat :=
  if_neg (Nat.ne_of_gt (toNat_pos_of_ne_zero h))

/-- Settles O37: `stream_write` from the state at the loop. -/
theorem rawwStreams : Obligations.RawwStreams := by
  intro i k t s size cap w lens hf hp hpre hpost hpg hsize hsize0 hcap hcap0 hw hlens hfit hwr hr
  obtain ⟨z, q, hz, hx, hs⟩ := rawStep_loop (d := .write) hp hpg (hsize ▸ hsize0) hr
  obtain ⟨bs, -, hread, -⟩ := readElems_ok s.mem s.xfer[k].bufBase w (min cap size.toNat) hwr
  rw [← hsize] at hz hx
  obtain ⟨c, e, q'⟩ := stream_write (k := k) (t := t) (w := w) (cap := cap) (n := min cap size.toNat)
    (vs := elemsOfBytes w bs) (size.toNat + 1) size.toNat z (by rw [hz, hpre]) (by rw [hz, hpost]) (by rw [hz, hw])
    (by rw [hx, hcap]) (by omega) (by rw [hx, hw, hcap]; exact bufferFits_inside hfit) (by rw [hx]; simp) (by omega)
    (by rw [hx, hz]; exact hread) (Nat.le_refl _)
  have hrun : streamFrom .write k t z = stream .write k t (size.toNat + 1) z := by rw [streamFrom, hx]
  refine ⟨_, elemsOfBytes w bs, ((exec_raw hf).trans hs).trans (congrArg outcomeOf (hrun.trans e)), q.trans q',
    fun _ => ?_, hread, ?_⟩
  · rw [hz]
  · rw [chunksLeft_eq hsize0, ← hlens, if_neg (Nat.ne_of_gt (toNat_pos_of_ne_zero hsize0)), hx, hz, hp]
    simp [wordsShown]

/-- Settles O38: `stream_read` from the state at the loop. -/
theorem rawrStreams : Obligations.RawrStreams := by
  intro i k t s size cap w lens hf hp hpre hpost hpg hsize hsize0 hcap hcap0 hw hlens hfit hr
  obtain ⟨z, q, hz, hx, hs⟩ := rawStep_loop (d := .read) hp hpg (hsize ▸ hsize0) hr
  rw [← hsize] at hz hx
  have hpos : 0 < size.toNat := toNat_pos_of_ne_zero hsize0
  obtain ⟨c, vs, e, q', hlen, hclip, hans⟩ := stream_read (k := k) (t := t) (w := w) (cap := cap)
    (size.toNat + 1) size.toNat z (by rw [hz, hpre]) (by rw [hz, hpost]) (by rw [hz, hw])
    (by rw [hx, hcap]) (by omega) (by rw [hx, hw, hcap]; exact bufferFits_inside hfit) (by rw [hx]; simp) (by omega)
  have hrun : streamFrom .read k t z = stream .read k t (size.toNat + 1) z := by rw [streamFrom, hx]
  refine ⟨_, vs, ((exec_raw hf).trans hs).trans (congrArg outcomeOf (hrun.trans e)), q.toLater.trans q', hlen, hclip,
    fun answers rest h => hans answers rest (q.dq.trans h), fun a ha => ?_, ?_⟩
  · have hchunks := cutInto_le (chunksLeft cap size.toNat) vs (chunksLeft_le (by omega) _ _ (Nat.le_refl _))
    have hmem : z.mem = s.mem := by rw [hz]
    rw [hx, foldl_storeElems_outside _ _ _ _ ha _ _ hchunks, hmem]
  · rw [chunksLeft_getLast hpos, chunksLeft_eq hsize0, ← hlens, if_neg (Nat.ne_of_gt hpos),
      if_neg (Nat.ne_of_gt hpos), hx, hz, hp]
    simp [wordsShown]

end Sys2Proof.Machine

namespace Sys2Proof.Machine

/-! ### The decoder unit (R260 to R265) -/

theorem decRefused_iff (s : State) :
    s.decRefused = true ↔ s.busy = true ∨ Config.bufBytes < s.dec.src.toNat + s.dec.len.toNat := by
  simp only [State.decRefused, Bool.or_eq_true, decide_eq_true_eq]

/-- The refusals of an operation, those common to every one together (R260). -/
theorem refusedOp_iff (op : BitVec 3) (s : State) : refusedOp op s ↔
    op = 0 ∨ op = 7 ∨ s.decRefused = true ∨ (op = 4 ∧ s.dev.initDone = true) ∨
      (op = 5 ∧ (s.dev.initDone = true ∨ s.dec.len.toNat < 256)) ∨ (op = 6 ∧ s.dec.len.toNat < 5) := by
  rw [refusedOp, decRefused_iff]
  tauto

/-- An operation that is refused (R260). -/
theorem exec_refusedOp {i : Instr} {op : BitVec 3} {s : State} (hi : decoderOp i = some op) (h : refusedOp op s) :
    exec i s = .next (refuseOp op s) := by
  rw [refusedOp_iff] at h
  cases i <;> cases hi
  case decRsvd0 => rfl
  case decRsvd7 => rfl
  all_goals simp only [BitVec.reduceEq, false_and, true_and, false_or, or_false] at h
  case ddrchk => exact if_pos h
  case ddrfold => exact if_pos h
  case patlen => exact if_pos h
  case idext => exact if_pos (by simpa using h)
  case onfidec => exact if_pos (by simpa [or_assoc] using h)
  case viddec => exact if_pos (by simpa using h)

/-- Settles O44: a refused operation is `refuseOp`. -/
theorem decoderRefuses : Obligations.DecoderRefuses :=
  fun _ op s hi h => ⟨refuseOp op s, exec_refusedOp hi h, Clk.pass_quiet _, fun _ => rfl, rfl⟩

/-- An operation on the whole operand that is not refused (R260). -/
theorem exec_ddrchk_performed {s : State} (h : ¬ refusedOp 1 s) : exec .ddrchk s =
    withOperand s (fun bs => completeOp 1 (ofBit 32 (isDdr bs)) s) :=
  if_neg fun hc => h ((refusedOp_iff _ _).mpr (.inr (.inr (.inl hc))))

theorem exec_ddrfold_performed {filler : Byte} {s : State} (h : ¬ refusedOp 2 s) : exec (.ddrfold filler) s =
    withOperand s (fun bs =>
      completeOp 2 (BitVec.ofNat 32 (evenBytes bs).length) (storeOperand (foldDdr filler bs) s)) :=
  if_neg fun hc => h ((refusedOp_iff _ _).mpr (.inr (.inr (.inl hc))))

theorem exec_patlen_performed {m : Byte} {s : State} (h : ¬ refusedOp 3 s) : exec (.patlen m) s =
    withOperand s (fun bs => completeOp 3 (BitVec.ofNat 32 (patlen bs m.toNat)) s) :=
  if_neg fun hc => h ((refusedOp_iff _ _).mpr (.inr (.inr (.inl hc))))

theorem exec_idext_performed {dest : Bool} {s : State} (h : ¬ refusedOp 4 s) : exec (.idext dest) s =
    withOperand s (fun bs => completeOp 4 (BitVec.ofNat 32 (idLength bs))
      (storeId dest (idLength bs) (idBytes bs) (storeOperand (idBytes bs) s))) :=
  if_neg fun hc => h ((refusedOp_iff _ _).mpr (by simpa using hc))

theorem exec_onfidec_performed {s : State} (h : ¬ refusedOp 5 s) : exec .onfidec s =
    withBytes s s.operandAt 256 (fun page =>
      completeOp 5 (pageResult page) { s with dev := pageDevice page s.dev, onfi := pageOnfi page }) :=
  if_neg fun hc => h ((refusedOp_iff _ _).mpr (by simpa [or_assoc] using hc))

theorem exec_viddec_performed {s : State} (h : ¬ refusedOp 6 s) : exec .viddec s =
    withBytes s (s.operandAt + 2) 3 (fun bs =>
      completeOp 6 1 { s with vid := vidRegs (bs.getD 0 0) (bs.getD 1 0) (bs.getD 2 0) }) :=
  if_neg fun hc => h ((refusedOp_iff _ _).mpr (by simpa using hc))

/-- Settles O45: the answer is `isDdr` of the operand. -/
theorem ddrchkResult : Obligations.DdrchkResult := by
  intro s h hw
  obtain ⟨bs, hb, he⟩ := withBytes_ok (fun bs => completeOp 1 (ofBit 32 (isDdr bs)) s) hw
  refine ⟨_, bs, ofBit 32 (isDdr bs), (exec_ddrchk_performed h).trans he, hb, Clk.pass_quiet _, fun _ => rfl,
    fun hd => ?_, fun hd => ?_, rfl⟩
  · rw [(isDdr_iff bs).mpr hd]
    rfl
  · rw [Bool.eq_false_iff.mpr fun hc => hd ((isDdr_iff bs).mp hc)]
    rfl

/-- A byte of the fold: the even bytes of the operand, then the filler (R262). -/
theorem foldDdr_get (filler : Byte) (bs : List Byte) {j : Nat} (h : j < bs.length) :
    (foldDdr filler bs)[j]? = if j < (bs.length + 1) / 2 then bs[2 * j]? else some filler := by
  have hlen := evenBytes_length bs
  rw [foldDdr]
  split
  · rw [List.getElem?_append_left (by omega), evenBytes_get]
  · rw [List.getElem?_append_right (by omega), List.getElem?_replicate, if_pos (by omega)]

/-- A byte of the operand once it is replaced. -/
theorem storeOperand_get {s : State} {bs : List Byte} {j : Nat} (h : j < bs.length) :
    (storeOperand bs s).mem.read (s.operandAt + j) = bs[j]? := by
  rw [storeOperand, Memory.read_store_inside _ _ _ _ h, List.getElem?_eq_getElem h]

theorem storeOperand_outside {s : State} {bs : List Byte} {n : Nat} (h : bs.length = n) :
    memoryKeptOutside s.operandAt n s (storeOperand bs s) :=
  fun _ ha => Memory.read_store_outside _ _ _ _ (h ▸ ha)

/-- Settles O46: the operand becomes `foldDdr` of it. -/
theorem ddrfoldResult : Obligations.DdrfoldResult := by
  rintro filler s n rfl h hw
  obtain ⟨bs, hb, he⟩ := withBytes_ok
    (fun bs => completeOp 2 (BitVec.ofNat 32 (evenBytes bs).length) (storeOperand (foldDdr filler bs) s)) hw
  obtain ⟨hlen, hget⟩ := (Memory.bytes_eq_ok _ _ _ _).mp hb
  have hfold : (foldDdr filler bs).length = s.dec.len.toNat := (foldDdr_length filler bs).trans hlen
  refine ⟨_, (exec_ddrfold_performed h).trans he, Clk.pass_quiet _, storeOperand_outside hfold, fun j hj => ?_, ?_⟩
  · refine (storeOperand_get (hfold ▸ hj)).trans ?_
    rw [foldDdr_get filler bs (hlen ▸ hj), hlen]
    split
    · rw [hget (2 * j) (by omega)]
    · rfl
  · rw [← hlen, ← evenBytes_length]
    rfl

/-- Settles O47: the answer is `patlen` of the operand. -/
theorem patlenResult : Obligations.PatlenResult := by
  intro m s h hw
  obtain ⟨bs, hb, he⟩ := withBytes_ok (fun bs => completeOp 3 (BitVec.ofNat 32 (patlen bs m.toNat)) s) hw
  exact ⟨_, bs, patlen bs m.toNat, (exec_patlen_performed h).trans he, hb, Clk.pass_quiet _, fun _ => rfl,
    patlen_spec bs m.toNat, rfl⟩

/-- A byte of what IDEXT leaves, as the ID registers take it (R264). -/
theorem idBytes_getD (bs : List Byte) (j : Nat) :
    (idBytes bs).getD j 0 = idByteAt (idCandidate bs) (idLength bs) j := by
  have hcand := idCandidate_length_le bs
  have hlen := idLength_le bs
  rw [List.getD_eq_getElem?_getD, idByteAt]
  by_cases hj : j < bs.length
  · rw [idBytes_get bs hj]
    split
    · rw [List.getD_eq_getElem?_getD]
    · rfl
  · rw [List.getElem?_eq_none (by rw [idBytes_length]; omega), if_neg (by omega)]
    rfl

theorem wordAt_idBytes (bs : List Byte) (i : Nat) :
    wordAt (idBytes bs) i = idWordAt (idCandidate bs) (idLength bs) i := by
  simp only [wordAt, idWordAt, idBytes_getD]

/-- Settles O48: the operand becomes `idBytes` of it, and the registers take the first eight bytes. -/
theorem idextResult : Obligations.IdextResult := by
  rintro dest s n rfl h hw
  obtain ⟨bs, hb, he⟩ := withBytes_ok (fun bs => completeOp 4 (BitVec.ofNat 32 (idLength bs))
      (storeId dest (idLength bs) (idBytes bs) (storeOperand (idBytes bs) s))) hw
  have hlen := Memory.bytes_length hb
  have hid : (idBytes bs).length = s.dec.len.toNat := (idBytes_length bs).trans hlen
  refine ⟨_, bs, idCandidate bs, idLength bs, (exec_idext_performed h).trans he, hb, Clk.pass_quiet _, fun hd => ?_,
    fun hd => ?_, patlen_spec _ _, storeOperand_outside hid, fun j hj => ?_, ?_⟩
  · rw [idCandidate, if_pos ((isDdr_iff bs).mpr hd)]
    exact evenBytes_fold bs
  · rw [idCandidate, if_neg fun hc => hd ((isDdr_iff bs).mp hc)]
  · exact (storeOperand_get (hid ▸ hj)).trans (idBytes_get bs (hlen ▸ hj))
  · simp only [← wordAt_idBytes]
    rfl

/-! ### ONFIDEC and VIDDEC (R290 to R302) -/

theorem crcBits_eq_iterate (n : Nat) (c : Half) : crcBits n c = crcBit^[n] c := by
  induction n generalizing c with
  | zero => rfl
  | succ n ih => rw [crcBits, ih, Function.iterate_succ_apply]

/-- The CRC with one byte more (R293). -/
theorem crc16_concat (bs : List Byte) (b : Byte) :
    crc16 (bs ++ [b]) = crcBit^[8] (crc16 bs ^^^ (b.setWidth 16 <<< 8)) := by
  rw [crc16, List.foldl_append, List.foldl_cons, List.foldl_nil, crcByte, crcBits_eq_iterate, crc16]

/-- Two halves of a register word. -/
theorem fieldAt_halves (lo hi : Half) : fieldAt 0 lo ||| fieldAt 16 hi = hi ++ lo := by
  apply BitVec.eq_of_getLsbD_eq
  intro i hi
  simp only [BitVec.getLsbD_or, getLsbD_fieldAt, BitVec.getLsbD_append]
  grind

end Sys2Proof.Machine

namespace Sys2Proof.Machine

/-! ### ONFIDEC and VIDDEC by the registers they fill (R290 to R302) -/

/-- Three bytes of a register word. -/
theorem fieldAt_bytes (a b c : Byte) : fieldAt 0 a ||| fieldAt 8 b ||| fieldAt 16 c = wordOfBytes a b c 0 := by
  apply BitVec.eq_of_getLsbD_eq
  intro i hi
  simp only [BitVec.getLsbD_or, getLsbD_fieldAt, wordOfBytes, BitVec.getLsbD_append]
  grind

theorem fieldAt_zero {n : Nat} (v : BitVec n) : fieldAt 0 v = v.setWidth 32 := BitVec.shiftLeft_zero _

/-- A byte is its two nibbles. -/
theorem fieldAt_nibbles (b : Byte) :
    fieldAt 0 (b.extractLsb' 0 4) ||| fieldAt 4 (b.extractLsb' 4 4) = b.setWidth 32 := by
  apply BitVec.eq_of_getLsbD_eq
  intro i hi
  have hb : 8 ≤ i → b.getLsbD i = false := BitVec.getLsbD_of_ge b i
  simp only [BitVec.getLsbD_or, getLsbD_fieldAt, BitVec.getLsbD_extractLsb', BitVec.getLsbD_setWidth]
  grind

/-- ONFI_CHECK holds the result's two bits and the CRC (R290). -/
theorem onfiCheckWord (a b : Bool) (crc : Half) : bitAt 0 a ||| bitAt 1 b ||| fieldAt 16 crc =
    crc ++ (ofBit 32 a ||| ofBit 32 b <<< 1).setWidth 16 := by
  rw [← fieldAt_halves]
  cases a <;> cases b <;> rfl

theorem pageSigOk_eq (page : List Byte) : pageSigOk page = decide (page.take 4 = [0x4F, 0x4E, 0x46, 0x49]) := by
  rw [pageSigOk, beq_eq_decide]

/-- The registers ONFIDEC writes are its GEO registers and read-only ones (R290, R291). -/
theorem readReg_onfidec_frame (page : List Byte) (s : State) (r : Reg) (hc : r.code ≠ .ro)
    (hr : r ∉ [Reg.geoPageBytes, .geoSpareBytes, .geoPagesPerBlock, .geoBlocksPerLun, .geoCycles,
      .geoMisc, .geoBadBlocks]) :
    readReg (completeOp 5 (pageResult page) { s with dev := pageDevice page s.dev, onfi := pageOnfi page }) r =
      readReg s r := by
  cases r <;> simp [Reg.code] at hc hr <;> rfl

/-- Settles O49: `pageDevice` and `pageOnfi`, register by register. -/
theorem onfidecResult : Obligations.OnfidecResult := by
  refine ⟨⟨rfl, crc16_concat⟩, fun s h hw => ?_⟩
  obtain ⟨page, hb, he⟩ := withBytes_ok (fun page =>
    completeOp 5 (pageResult page) { s with dev := pageDevice page s.dev, onfi := pageOnfi page }) hw
  refine ⟨_, page, (exec_onfidec_performed h).trans he, hb, Clk.pass_quiet _, fun _ => rfl, rfl, fieldAt_zero _, rfl,
    rfl, fieldAt_bytes _ _ _, fieldAt_nibbles _, fieldAt_zero _, fieldAt_halves _ _, fieldAt_halves _ _,
    onfiCheckWord _ _ _, ?_, fun r => readReg_onfidec_frame page s r, rfl⟩
  rw [← pageSigOk_eq]
  rfl

theorem idField_eq (b : Byte) (lo n : Nat) : idField b lo n = b.toNat / 2 ^ lo % 2 ^ n := by
  rw [idField, BitVec.extractLsb'_toNat, Nat.shiftRight_eq_div_pow]

/-- VID0 as a number, for every value of its five fields (R300, R302). -/
theorem vid0Word : ∀ (a b c : Fin 4) (i p : Bool),
    fieldAt 0 (BitVec.ofNat 8 (1 <<< a.val)) ||| fieldAt 8 (BitVec.ofNat 8 (2 <<< b.val)) |||
      fieldAt 16 (BitVec.ofNat 8 (1 <<< c.val)) ||| bitAt 24 i ||| bitAt 25 p =
    BitVec.ofNat 32 (2 ^ a.val + 2 * 2 ^ b.val * 2 ^ 8 + 2 ^ c.val * 2 ^ 16 + (i.toNat + 2 * p.toNat) * 2 ^ 24) := by
  decide

/-- VID3 as a number, for every value of its fields (R300, R302). -/
theorem vid3Word : ∀ (w : Bool) (a c : Fin 4) (b : Fin 8),
    fieldAt 0 (if w then 16#8 else 8#8) ||| fieldAt 8 (BitVec.ofNat 8 (1 <<< a.val)) |||
      fieldAt 16 (BitVec.ofNat 16 ((8388608 <<< b.val) / (65536 <<< c.val))) =
    BitVec.ofNat 32 ((if w then 16 else 8) + 2 ^ a.val * 2 ^ 8 +
      (8388608 * 2 ^ b.val) / (65536 * 2 ^ c.val) * 2 ^ 16) := by
  decide

/-- VID0 from byte 2 (R300). -/
theorem vid0_eq (b : Byte) :
    fieldAt 0 (BitVec.ofNat 8 (1 <<< idField b 0 2)) ||| fieldAt 8 (BitVec.ofNat 8 (2 <<< idField b 2 2)) |||
      fieldAt 16 (BitVec.ofNat 8 (1 <<< idField b 4 2)) ||| bitAt 24 (b.getLsbD 6) ||| bitAt 25 (b.getLsbD 7) =
    BitVec.ofNat 32 (2 ^ (b.toNat % 4) + 2 * 2 ^ (b.toNat / 4 % 4) * 2 ^ 8 + 2 ^ (b.toNat / 16 % 4) * 2 ^ 16 +
      (b.toNat / 64) * 2 ^ 24) := by
  have hflags : (b.getLsbD 6).toNat + 2 * (b.getLsbD 7).toNat = b.toNat / 64 := by
    have := b.isLt
    simp only [BitVec.getLsbD, Nat.toNat_testBit]
    omega
  have hword := vid0Word ⟨b.toNat % 4, Nat.mod_lt _ (by decide)⟩ ⟨b.toNat / 4 % 4, Nat.mod_lt _ (by decide)⟩
    ⟨b.toNat / 16 % 4, Nat.mod_lt _ (by decide)⟩ (b.getLsbD 6) (b.getLsbD 7)
  rw [hflags] at hword
  simpa only [idField_eq, Nat.pow_zero, Nat.div_one, Nat.reducePow] using hword

/-- VID3 from bytes 3 and 4 (R300, R302). -/
theorem vid3_eq (b c : Byte) :
    fieldAt 0 (if b.getLsbD 6 then 16#8 else 8#8) ||| fieldAt 8 (BitVec.ofNat 8 (1 <<< idField c 2 2)) |||
      fieldAt 16 (BitVec.ofNat 16 (vidPlaneBytes c / vidBlockBytes b)) =
    BitVec.ofNat 32 ((if b.toNat / 64 % 2 = 1 then 16 else 8) + 2 ^ (c.toNat / 4 % 4) * 2 ^ 8 +
      (8388608 * 2 ^ (c.toNat / 16 % 8)) / (65536 * 2 ^ (b.toNat / 16 % 4)) * 2 ^ 16) := by
  have hbus : b.getLsbD 6 = true ↔ b.toNat / 64 % 2 = 1 := by
    rw [BitVec.getLsbD, Nat.testBit_eq_decide_div_mod_eq, decide_eq_true_eq]
  have hword := vid3Word (b.getLsbD 6) ⟨c.toNat / 4 % 4, Nat.mod_lt _ (by decide)⟩
    ⟨b.toNat / 16 % 4, Nat.mod_lt _ (by decide)⟩ ⟨c.toNat / 16 % 8, Nat.mod_lt _ (by decide)⟩
  simpa only [vidPlaneBytes, vidBlockBytes, idField_eq, Nat.reducePow, hbus] using hword

/-- The three bytes VIDDEC reads (R300). -/
theorem bytes_three {m : Memory} {a : Nat} {bs : List Byte} {b0 b1 b2 : Byte} (h : m.bytes a 3 = .ok bs)
    (h0 : m.read a = some b0) (h1 : m.read (a + 1) = some b1) (h2 : m.read (a + 2) = some b2) :
    bs.getD 0 0 = b0 ∧ bs.getD 1 0 = b1 ∧ bs.getD 2 0 = b2 := by
  obtain ⟨-, hget⟩ := (m.bytes_eq_ok _ _ _).mp h
  have g0 := (hget 0 (by omega)).symm.trans h0
  have g1 := (hget 1 (by omega)).symm.trans h1
  have g2 := (hget 2 (by omega)).symm.trans h2
  simp only [List.getD_eq_getElem?_getD, g0, g1, g2, Option.getD_some, and_self]

/-- Settles O50: VID0 to VID3 by the fields of the three bytes. -/
theorem viddecResult : Obligations.ViddecResult := by
  intro s b2 b3 b4 h h2 h3 h4
  have hw : written s.mem (s.operandAt + 2) 3 := by
    intro i hi
    interval_cases i
    · exact Option.isSome_of_mem h2
    · exact Option.isSome_of_mem h3
    · exact Option.isSome_of_mem h4
  obtain ⟨bs, hb, he⟩ := withBytes_ok (fun bs =>
    completeOp 6 1 { s with vid := vidRegs (bs.getD 0 0) (bs.getD 1 0) (bs.getD 2 0) }) hw
  obtain ⟨e2, e3, e4⟩ := bytes_three hb h2 h3 h4
  rw [e2, e3, e4] at he
  refine ⟨_, (exec_viddec_performed h).trans he, Clk.pass_quiet _, fun _ => rfl, vid0_eq b2, ?_, ?_, vid3_eq b3 b4, rfl⟩
  · show BitVec.ofNat 32 (1024 <<< idField b3 0 2) = _
    simp only [idField_eq, Nat.shiftLeft_eq, Nat.reducePow, Nat.div_one]
  · show BitVec.ofNat 32 (65536 <<< idField b3 4 2) = _
    simp only [idField_eq, Nat.shiftLeft_eq, Nat.reducePow]

end Sys2Proof.Machine

namespace Sys2Proof.Machine

/-! ### What a model stops on (R88, R80, R76, R363) -/

/-- An access of a wrong shape (R88). -/
theorem guardAccess_misshapen {n off : Nat} (o : Host.Outcome State Fault Refusal) (h : n ≠ 4 ∨ off % 4 ≠ 0) :
    guardAccess n off o = .refused .unalignedHostAccess := by
  refine if_pos ?_
  rcases h with h | h <;> simp [alignedWord, h]

/-- An access past the window (R80). -/
theorem guardAccess_outside {off : Nat} (o : Host.Outcome State Fault Refusal) (ha : off % 4 = 0)
    (h : Config.windowBytes ≤ off) : guardAccess 4 off o = .fault (.outsideWindow off) := by
  rw [guardAccess, if_neg (by simp [alignedWord, ha]), if_pos h]

/-- An access to buffer RAM during a run (R76). -/
theorem hostAccess_buffer_busy {a : HostAccess} {off : Nat} {s : State} (h4 : off % 4 = 0) (hb : inBuffer off)
    (hr : s.fsm = .running) (ha : a = .read 4 off ∨ ∃ v, a = .write 4 off v) :
    hostAccess a s = .refused .bufferAccessDuringRun := by
  have hplace := placeAt_buffer hb
  have hbusy : bufferBusy s = true := decide_eq_true hr
  rcases ha with rfl | ⟨v, rfl⟩
  · change guardAccess 4 off (hostRead off s) = _
    rw [guardAccess_ok _ h4 (placeAt_ram (.inr hplace)), hostRead, hplace]
    exact if_pos hbusy
  · change guardAccess 4 off (hostWrite off v s) = _
    rw [guardAccess_ok _ h4 (placeAt_ram (.inr hplace)), hostWrite, hplace]
    exact if_pos hbusy

/-- A step word that was never written stops the merge at a byte never written (R363). -/
theorem mergeAndCheck_unread {p : RunPlan} {s : State} {slot i w j : Nat} (h : p.length ≤ Config.maxSteps)
    (hl : s.runCfg.lun.toNat < s.dev.luns)
    (hs : (slot = p.template ∧ i < headerLength p.th) ∨
      (slot = p.override ∧ p.overrideEn = true ∧ i < headerLength p.oh))
    (hw : w < 15) (h3 : w ≠ 3) (hj : j < 4) (hr : s.mem.read (descOffset slot (16 * (i + 1) + w) + j) = none) :
    ∃ a, s.mem.read a = none ∧ mergeAndCheck p s = .error (.unwrittenRam a) := by
  rw [mergeAndCheck_merge h hl]
  cases hm : mergeFrom s.mem p 0 p.length with
  | ok chain =>
    have hread := mergeFrom_written hm hs hw h3 j hj
    rw [hr] at hread
    cases hread
  | error f =>
    obtain ⟨a, ha, rfl⟩ := mergeFrom_reads s.mem p p.length 0 f hm
    exact ⟨a, ha, rfl⟩

/-- Where a RAWW step's next chunk begins in its buffer, with what it has still to move (R237, R363). -/
theorem raww_unwritten {i : Instr} {k : Fin Config.numXfer} {t : Timing} {s : State} {n m : Nat}
    (hf : rawForm i = some (.write, k, t)) (hfit : bufferFits s.dev s.xfer[k] = true)
    (hcase : (s.phase = .begin ∧ pageOn16Bit s.dev s.xfer[k] = false ∧ rawReadyWait k t s ∧ s.eff.pre = false ∧
        n = min s.xfer[k].bufCap.toNat (resolveSize s.dev s.xfer[k]).toNat) ∨
      ((s.phase = .afterPre ∨ (s.phase = .afterPost ∧ s.eff.pre = false)) ∧
        n = min s.xfer[k].bufCap.toNat (s.xfer[k].intended.toNat - s.xfer[k].offset.toNat)))
    (hm : m < s.dev.dataWidth.bytes * n) (hw : written s.mem s.xfer[k].bufferAt m)
    (hr : s.mem.read (s.xfer[k].bufferAt + m) = none) :
    exec i s = .fault (.unwrittenRam (s.xfer[k].bufferAt + m)) := by
  rcases hcase with ⟨hp, hpg, hready, hpre, hn⟩ | ⟨hp | ⟨hp, hpre⟩, hn⟩
  · have hsize : resolveSize s.dev s.xfer[k] ≠ 0 := by
      intro h0
      rw [hn, h0] at hm
      simp at hm
    obtain ⟨z, -, hz, hx, hs⟩ := rawStep_loop (d := .write) hp hpg hsize hready
    have hdev : z.dev = s.dev := by rw [hz]
    have hmem : z.mem = s.mem := by rw [hz]
    have hat : z.xfer[k].bufferAt = s.xfer[k].bufferAt := by rw [hx]; rfl
    have hchunk : z.xfer[k].chunk = n := by rw [hx, hn]; rfl
    obtain ⟨y, hy⟩ := streamFrom_unwritten (s := z) (k := k) (t := t) (m := m) (by rw [hz, hpre])
      (by rw [hdev, hx]; exact hfit) (by rw [hdev, hchunk]; exact hm) (by rw [hat, hmem]; exact hw)
      (by rw [hat, hmem]; exact hr)
    rw [exec_raw hf, hs, hy, hat]
    rfl
  · obtain ⟨y, hy⟩ := chunkBody_unwritten (again := streamFrom .write k t) (t := t) hfit (by rwa [hn] at hm) hw hr
    rw [exec_raw hf, rawStep_afterPre hp, hy]
    rfl
  · have hx : (bumpSeq k s).xfer[k] = { s.xfer[k] with chunkSeq := s.xfer[k].chunkSeq + 1 } := by
      simp [bumpSeq]
    have hat : (bumpSeq k s).xfer[k].bufferAt = s.xfer[k].bufferAt := by rw [hx]; rfl
    have hchunk : (bumpSeq k s).xfer[k].chunk = n := by rw [hx, hn]; rfl
    obtain ⟨y, hy⟩ := streamFrom_unwritten (s := bumpSeq k s) (k := k) (t := t) (m := m) hpre
      (by rw [hx]; exact hfit) (by rw [hchunk]; exact hm) (by rw [hat]; exact hw) (by rw [hat]; exact hr)
    rw [exec_raw hf, rawStep_afterPost hp, hy, hat]
    rfl

/-- A decoder operation that is not refused goes on with the bytes it reads (R260). -/
theorem exec_performed {i : Instr} {op : BitVec 3} {s : State} {lo hi : Nat} (hi' : decoderOp i = some op)
    (h : ¬ refusedOp op s)
    (hb : (lo, hi) = if op = 5 then (0, 256) else if op = 6 then (2, 5) else (0, s.dec.len.toNat)) :
    ∃ k, exec i s = withBytes s (s.operandAt + lo) (hi - lo) k := by
  cases i <;> cases hi'
  case decRsvd0 => exact absurd (.inl rfl) h
  case decRsvd7 => exact absurd (.inr (.inl rfl)) h
  all_goals
    cases hb
  case ddrchk => exact ⟨_, exec_ddrchk_performed h⟩
  case ddrfold => exact ⟨_, exec_ddrfold_performed h⟩
  case patlen => exact ⟨_, exec_patlen_performed h⟩
  case idext => exact ⟨_, exec_idext_performed h⟩
  case onfidec => exact ⟨_, exec_onfidec_performed h⟩
  case viddec => exact ⟨_, exec_viddec_performed h⟩

/-- Settles O15: each access and each read of RAM by the lemma on it. -/
theorem accessesThatStop : Obligations.AccessesThatStop := by
  refine ⟨fun a n off s h ha => ?_, fun a off s h4 hout ha => ?_, fun a off s h4 hb hr ha => ?_,
    fun off j s h4 hopen hj hw hr => ?_, fun s j hb ht hj hw hr => ?_,
    fun s j th hb ht hth hv hen ho hj hw hr => ?_, fun s p slot i w j hb hp hlen hlun hs hw h3 hj hr => ?_,
    fun i k t s n m hf hfit hcase hm hw hr => raww_unwritten hf hfit hcase hm hw hr,
    fun i op s lo hi j hop h hb hlo hhi hw hr => ?_⟩
  · rcases ha with rfl | ⟨v, rfl⟩ <;> exact guardAccess_misshapen _ h
  · rcases ha with rfl | ⟨v, rfl⟩ <;> exact guardAccess_outside _ h4 hout
  · exact hostAccess_buffer_busy h4 hb hr ha
  · rw [hostAccess_read_ram h4 hopen, readRam, Memory.word_unwritten hj hw hr]
  · exact execStart_fault hb (validateAndMerge_error
      (findPlan_beginRun (findPlan_unread ht (header_unwritten hj hw hr))))
  · exact execStart_fault hb (validateAndMerge_error
      (findPlan_beginRun (findPlan_override_unread ht hth hv hen ho (header_unwritten hj hw hr))))
  · obtain ⟨a, ha, hm⟩ := mergeAndCheck_unread (s := beginRun s) hlen hlun hs hw h3 hj hr
    exact ⟨a, ha, execStart_fault hb ((validateAndMerge_plan (findPlan_beginRun hp)).trans hm)⟩
  · obtain ⟨k, hk⟩ := exec_performed hop h hb
    have hat : s.operandAt + lo + (j - lo) = s.operandAt + j := by omega
    rw [hk, withBytes_unwritten k (by omega) hw (hat.symm ▸ hr), hat]

end Sys2Proof.Machine

namespace Sys2Proof.Machine

/-! ### No element outside the buffer (R171, R244) -/

/-- A raw step's run that does not stop at an element outside buffer RAM. -/
def HaltsInside (r : Except Halt State) : Prop := ∀ h, r = .error h → h.why ≠ .inl .elementOutsideBuffer

/-- An outcome that is no such stop. -/
def StaysInside (o : Host.Outcome State Fault Refusal) : Prop := o ≠ .fault .elementOutsideBuffer

theorem HaltsInside.ok (s : State) : HaltsInside (.ok s) := fun _ h => by cases h

theorem StaysInside.next (s : State) : StaysInside (.next s) := fun h => by cases h

theorem StaysInside.refused (r : Refusal) : StaysInside (.refused r) := fun h => by cases h

theorem HaltsInside.outcome {r : Except Halt State} (h : HaltsInside r) : StaysInside (outcomeOf r) := by
  intro he
  unfold outcomeOf at he
  split at he
  · cases he
  · cases he
    exact h _ rfl rfl
  · cases he

/-- A step keeps where each record's buffer lies (R244). -/
theorem Frame.bufferFits {s u : State} (h : Frame s u) (k : Fin Config.numXfer) :
    bufferFits u.dev u.xfer[k] = bufferFits s.dev s.xfer[k] := by
  obtain ⟨-, hbase, hcap⟩ := h.xfer k
  rw [Machine.bufferFits, Machine.bufferFits, hbase, hcap, h.dev]

theorem readElems_error {m : Memory} {base : BitVec 16} {w : Width} {n : Nat} {f : Fault}
    (h : readElems m base w n = .error f) : ∃ a, f = .unwrittenRam a := by
  unfold readElems at h
  split at h
  · cases h
  · next hb =>
    cases h
    obtain ⟨i, -, -, hf⟩ := Memory.bytes_error hb
    exact ⟨_, hf⟩

theorem moveChunk_inside {d : Dir} {k : Fin Config.numXfer} {t : Timing} {s : State}
    (hf : bufferFits s.dev s.xfer[k] = true) : HaltsInside (moveChunk d k t s) := by
  cases d with
  | read =>
    rw [moveChunk_read (bufferFits_inside hf)]
    exact HaltsInside.ok _
  | write =>
    rw [moveChunk_write (bufferFits_inside hf), writeChunk]
    split
    · exact HaltsInside.ok _
    · next hr =>
      obtain ⟨a, rfl⟩ := readElems_error hr
      rintro _ ⟨⟩ hw
      cases hw

theorem chunkBody_inside {again : State → Except Halt State} {d : Dir} {k : Fin Config.numXfer} {t : Timing} {s : State}
    (hag : ∀ z, bufferFits z.dev z.xfer[k] = true → HaltsInside (again z))
    (hf : bufferFits s.dev s.xfer[k] = true) : HaltsInside (chunkBody again d k t s) := by
  unfold chunkBody
  split
  · exact HaltsInside.ok _
  · split
    · next hm => exact hm ▸ moveChunk_inside hf
    · next y hm =>
      split
      · exact HaltsInside.ok _
      · exact hag _ ((((moveChunk_during hm).trans (bumpSeq_during k y)).bufferFits k).trans hf)

theorem stream_inside {d : Dir} {k : Fin Config.numXfer} {t : Timing} : ∀ (fuel : Nat) (s : State),
    bufferFits s.dev s.xfer[k] = true → HaltsInside (stream d k t fuel s) := by
  intro fuel
  induction fuel with
  | zero => exact fun s _ => HaltsInside.ok _
  | succ fuel ih =>
    intro s hf
    rw [stream]
    split
    · exact HaltsInside.ok _
    · split
      · exact HaltsInside.ok _
      · exact chunkBody_inside ih hf

theorem rawRun_inside {d : Dir} {k : Fin Config.numXfer} {t : Timing} {s : State}
    (hf : bufferFits s.dev s.xfer[k] = true) : HaltsInside (rawRun d k t s) := by
  rcases hp : s.phase with _ | _ | _
  · rw [rawRun_begin hp]
    split
    · rintro _ ⟨⟩ hw
      cases hw
    · split
      · exact HaltsInside.ok _
      · split
        · next hr =>
          obtain ⟨c, e, -⟩ := rawReady_spec (k := k) (t := t) (s := s) hr
          rw [e]
          refine stream_inside _ _ ?_
          simpa [bufferFits] using hf
        · exact HaltsInside.ok _
  · unfold rawRun
    rw [hp]
    exact chunkBody_inside (fun z hz => stream_inside _ z hz) hf
  · unfold rawRun
    rw [hp]
    exact stream_inside _ _ (((bumpSeq_during k s).bufferFits k).trans hf)

theorem withBytes_inside (s : State) (at_ n : Nat) (k : List Byte → State) : StaysInside (withBytes s at_ n k) := by
  unfold withBytes
  split
  · exact StaysInside.next _
  · next hb =>
    obtain ⟨i, -, -, rfl⟩ := Memory.bytes_error hb
    intro h
    cases h

theorem exec_decoder_inside {i : Instr} {op : BitVec 3} (s : State) (hi : decoderOp i = some op) :
    StaysInside (exec i s) := by
  by_cases hr : refusedOp op s
  · rw [exec_refusedOp hi hr]
    exact StaysInside.next _
  · obtain ⟨lo, hi', hb⟩ : ∃ lo hi', (lo, hi') =
        if op = 5 then (0, 256) else if op = 6 then (2, 5) else (0, s.dec.len.toNat) := ⟨_, _, rfl⟩
    obtain ⟨k, hk⟩ := exec_performed hi hr hb
    rw [hk]
    exact withBytes_inside _ _ _ _

/-- What START reads is RAM (R363). -/
theorem validateAndMerge_reads (s : State) : ReadsOf s.mem (validateAndMerge s) := by
  have hplan : ReadsOf s.mem (findPlan s.mem s.runCfg) := by
    unfold findPlan
    split
    · exact .ok _
    · refine (Memory.word_reads s.mem _).bind fun th => ?_
      split
      · exact .ok _
      · split
        · exact .ok _
        · split
          · exact .ok _
          · refine (Memory.word_reads s.mem _).bind fun oh => ?_
            split <;> exact .ok _
  refine hplan.bind fun p => ?_
  cases p with
  | none => exact .ok _
  | some p =>
    dsimp only
    unfold mergeAndCheck
    dsimp only
    split
    · exact .ok _
    · split
      · exact .ok _
      · exact (mergeFrom_reads s.mem p _ _).bind fun _ => .ok _

theorem exec_start_inside (s : State) : StaysInside (exec .start s) := by
  change StaysInside (execStart s)
  unfold execStart
  split
  · exact StaysInside.next _
  · split
    · next hv =>
      obtain ⟨a, -, rfl⟩ := validateAndMerge_reads _ _ hv
      intro h
      cases h
    · exact StaysInside.next _
    · exact StaysInside.next _

theorem exec_command_inside {i : Instr} (hi : i = .start ∨ i = .hookAck ∨ i = .doneClr) (s : State) :
    StaysInside (exec i s) := by
  rcases hi with rfl | hi
  · exact exec_start_inside s
  · obtain ⟨u, hu⟩ := command_answers hi.symm s
    rw [hu]
    exact StaysInside.next _

theorem execAll_inside {is : List Instr} (hi : ∀ i ∈ is, i = .start ∨ i = .hookAck ∨ i = .doneClr) :
    ∀ s, StaysInside (execAll is s) := by
  induction is with
  | nil => exact fun s => StaysInside.next s
  | cons i is ih =>
    intro s
    have hone := exec_command_inside (hi i (by simp)) s
    rw [execAll]
    split
    · exact ih (fun j hj => hi j (List.mem_cons_of_mem _ hj)) _
    · next hx =>
      rw [hx] at hone
      exact fun h => hone h
    · exact StaysInside.refused _

theorem readRam_inside (off : Nat) (s : State) : StaysInside (readRam off s) := by
  unfold readRam
  split
  · exact StaysInside.next _
  · next hw =>
    obtain ⟨a, -, rfl⟩ := Memory.word_reads _ _ _ hw
    intro h
    cases h

theorem writeReg_inside (r : Reg) (v : Word) (s : State) : StaysInside (writeReg r v s) := by
  cases r
  case ctrl => exact execAll_inside (decodeCtrl_commands v) s
  case decCtrl =>
    obtain ⟨op, hop⟩ := decodeDec_op v
    exact exec_decoder_inside s hop
  all_goals exact StaysInside.next _

theorem guardAccess_inside {n off : Nat} {o : Host.Outcome State Fault Refusal} (h : StaysInside o) :
    StaysInside (guardAccess n off o) := by
  unfold guardAccess
  split
  · exact StaysInside.refused _
  · split
    · intro hc
      cases hc
    · exact h

/-- A host access stops at no element of a buffer: it moves none (R91). -/
theorem hostAccess_inside (a : HostAccess) (s : State) : StaysInside (hostAccess a s) := by
  cases a with
  | read n off =>
    refine guardAccess_inside ?_
    unfold hostRead
    split
    · exact StaysInside.next _
    · exact readRam_inside off s
    · split
      · exact StaysInside.refused _
      · exact readRam_inside off s
    · exact StaysInside.next _
  | write n off v =>
    refine guardAccess_inside ?_
    unfold hostWrite
    split
    · exact writeReg_inside _ v s
    · exact StaysInside.next _
    · split
      · exact StaysInside.refused _
      · exact StaysInside.next _
    · exact StaysInside.next _

/-- A raw step that validation accepts has a buffer that fits (R171 checks 5b and 5c). -/
theorem fits_of_acceptable {dev : Device} {xs : Vector XferRec Config.numXfer} {e : StepEntry} {d : Dir}
    {k : Fin Config.numXfer} {t : Timing} (h : stepAcceptable dev xs e = true) (hf : rawForm e.instr = some (d, k, t)) :
    bufferFits dev xs[k] = true := by
  unfold stepAcceptable at h
  cases hi : e.instr <;> rw [hi] at hf h <;> simp only [rawForm, Option.map_eq_some_iff, reduceCtorEq] at hf
  all_goals
    obtain ⟨j, hj, heq⟩ := hf
    cases heq
    simpa only [recordFits, hj] using h

/-- A step that validation accepts stays inside its record's buffer (R171, R244). -/
theorem exec_accepted_inside {e : StepEntry} {s : State} (h : stepAcceptable s.dev s.xfer e = true) :
    StaysInside (exec e.instr s) := by
  rcases e.instr_kinds s.dev with (hctl | hraw | hhole) | hill
  · obtain ⟨⟨m, vs, t⟩, hf⟩ := Option.isSome_iff_exists.mp hctl
    rw [exec_control hf]
    exact StaysInside.next _
  · obtain ⟨⟨d, k, t⟩, hf⟩ := Option.isSome_iff_exists.mp hraw
    rw [exec_raw hf]
    exact (rawRun_inside (fits_of_acceptable h hf)).outcome
  · rw [hhole]
    exact StaysInside.next _
  · rw [exec_illegal hill]
    exact StaysInside.next _

/-- So does the sequencer in a validated run, and RESET and the clock move no element (R3, R361). -/
theorem agentStep_inside {s : State} (h : chainValidated s) : StaysInside (agentStep s) := by
  unfold agentStep
  split
  · next hf =>
    unfold sequencerStep
    split
    · next hl => exact exec_accepted_inside (h (busy_of_running hf) _ hl)
    · exact StaysInside.next _
  · exact StaysInside.next _
  · exact StaysInside.next _

theorem nextAction_inside {s : State} (h : chainValidated s) : StaysInside (nextAction s) := by
  unfold nextAction
  split
  · exact hostAccess_inside _ _
  · exact agentStep_inside h

theorem takeReset_inside {s : State} (n : Nat) (h : chainValidated s) : StaysInside (takeReset n s) := by
  cases n with
  | zero => exact StaysInside.next _
  | succ n =>
    unfold takeReset
    dsimp only
    split
    · exact StaysInside.next _
    · split
      · exact StaysInside.next _
      · exact nextAction_inside h

/-- Settles O55: State.Inv keeps the chain validated, and a validated step stays inside its buffer. -/
theorem noElementOutsideBuffer : Obligations.NoElementOutsideBuffer := by
  intro s hs
  change StaysInside (machineStep s)
  unfold machineStep
  split
  · exact StaysInside.next _
  · split
    · exact agentStep_inside hs.chain
    · exact hostAccess_inside _ _
    · exact takeReset_inside _ hs.chain
    · exact agentStep_inside hs.chain
    · exact agentStep_inside hs.chain

end Sys2Proof.Machine

namespace Sys2Proof.Machine

/-! ### RESET (R360, R361) -/

/-- RESET in the middle of an action leaves a reset state and the first events of what the action brings about, up
to its end or, where it stops, up to its stop (R361). -/
theorem takeReset_cut {n : Nat} {s z : State} {new : List Event}
    (h : nextAction s = .next z ∨ ((∀ x, nextAction s ≠ .next x) ∧ stoppedAt s = z ∧ n + 1 ≤ new.length))
    (ht : z.trace = new ++ s.trace) (hp : z.port = s.port) :
    ∃ u, takeReset (n + 1) s = .next u ∧ inReset u ∧ u.resetIn = true ∧ u.port = s.port ∧
      u.trace = new.drop (new.length - (n + 1)) ++ s.trace := by
  refine ⟨resetEdge (cutAfter (n + 1) s z), ?_, resetEdge_inReset _, rfl, hp, cutAfter_trace ht⟩
  rw [takeReset]
  rcases h with h | ⟨hstop, rfl, hlen⟩
  · rw [h]
  · split
    · next x hx => exact absurd hx (hstop x)
    · refine if_pos ?_
      rw [ht, List.length_append]
      omega

/-- What a raw step has brought about, where it ends or where it stops (R230). -/
theorem takeReset_raw {n : Nat} {d : Dir} {k : Fin Config.numXfer} {t : Timing} {s : State} {events : List Event}
    (hf : s.fsm = .running) (hl : s.status.step.toNat < s.effLen.toNat)
    (ha : ∀ a others, s.port ≠ (0, .access a) :: others) (hraw : rawForm s.fetched.instr = some (d, k, t))
    (hok : ∀ u, rawRun d k t s = .ok u → u.port = s.port ∧ ∃ new, u.trace = new ++ (events.reverse ++ s.trace))
    (herr : ∀ h, rawRun d k t s = .error h →
      h.reached.port = s.port ∧ ∃ new, h.reached.trace = new ++ (events.reverse ++ s.trace))
    (hn : n + 1 ≤ events.length) :
    ∃ u, takeReset (n + 1) s = .next u ∧ inReset u ∧ u.resetIn = true ∧ u.port = s.port ∧
      u.trace = (events.take (n + 1)).reverse ++ s.trace := by
  obtain ⟨hnext, hstop⟩ := nextAction_exec hf hl ha
  rw [exec_raw hraw, rawStep] at hnext
  rw [haltedAt_raw hraw, rawHaltedAt] at hstop
  have hdrop : ∀ new : List Event, (new ++ events.reverse).drop ((new ++ events.reverse).length - (n + 1)) =
      (events.take (n + 1)).reverse := by
    intro new
    rw [List.reverse_take, List.length_append, List.length_reverse, Nat.add_sub_assoc hn, List.drop_append,
      List.drop_eq_nil_of_le (by omega), List.nil_append]
    congr 1
    omega
  cases hrun : rawRun d k t s with
  | ok z =>
    obtain ⟨hport, new, ht⟩ := hok z hrun
    rw [hrun] at hnext
    obtain ⟨u, hu, hin, hr, hp, htr⟩ := takeReset_cut (n := n) (.inl hnext) (ht.trans (List.append_assoc ..).symm) hport
    exact ⟨u, hu, hin, hr, hp, htr.trans (by rw [hdrop])⟩
  | error h =>
    obtain ⟨hport, new, ht⟩ := herr h hrun
    rw [hrun] at hnext hstop
    have hnot : ∀ x, nextAction s ≠ .next x := by
      intro x hx
      cases outcomeOf_next (hnext.symm.trans hx)
    obtain ⟨u, hu, hin, hr, hp, htr⟩ := takeReset_cut (n := n) (new := new ++ events.reverse)
      (.inr ⟨hnot, hstop, by rw [List.length_append, List.length_reverse]; omega⟩)
      (ht.trans (List.append_assoc ..).symm) hport
    exact ⟨u, hu, hin, hr, hp, htr.trans (by rw [hdrop])⟩

/-- RESET no later than the end of a raw step's ready wait and READY_POST (R361). -/
theorem takeReset_raw_ready {n : Nat} {d : Dir} {k : Fin Config.numXfer} {t : Timing} {s : State}
    (hf : s.fsm = .running) (hl : s.status.step.toNat < s.effLen.toNat)
    (ha : ∀ a others, s.port ≠ (0, .access a) :: others) (hraw : rawForm s.fetched.instr = some (d, k, t))
    (hp : s.phase = .begin) (hpg : pageOn16Bit s.dev s.xfer[k] = false) (hz : resolveSize s.dev s.xfer[k] ≠ 0)
    (hr : rawReadyWait k t s)
    (hn : n + 1 ≤ (headEvents .neutral t ++ readyEvents s t ++ delayEvents t.rdyPost).length) :
    ∃ u, takeReset (n + 1) s = .next u ∧ inReset u ∧ u.resetIn = true ∧ u.port = s.port ∧
      u.trace = ((headEvents .neutral t ++ readyEvents s t ++ delayEvents t.rdyPost).take (n + 1)).reverse ++
        s.trace := by
  obtain ⟨hok, herr⟩ := rawRun_ready (d := d) hp hpg hz hr
  obtain ⟨c, e, -⟩ := rawReady_spec hr
  rw [e] at hok herr
  refine takeReset_raw hf hl ha hraw (fun u hu => ?_) (fun h hh => ?_) hn
  · obtain ⟨new, ht, -⟩ := (hok u hu).count
    exact ⟨(hok u hu).port, new, ht⟩
  · obtain ⟨new, ht, -⟩ := (herr h hh).count
    exact ⟨(herr h hh).port, new, ht⟩

/-- RESET after the PRE_DELAY of a raw step that PAGE on a 16-bit bus refuses (R247, R361). -/
theorem takeReset_raw_page {d : Dir} {k : Fin Config.numXfer} {t : Timing} {s : State}
    (hf : s.fsm = .running) (hl : s.status.step.toNat < s.effLen.toNat)
    (ha : ∀ a others, s.port ≠ (0, .access a) :: others) (hraw : rawForm s.fetched.instr = some (d, k, t))
    (hp : s.phase = .begin) (hpg : pageOn16Bit s.dev s.xfer[k] = true) (hpre : t.pre ≠ 0) :
    ∃ u, takeReset 1 s = .next u ∧ inReset u ∧ u.resetIn = true ∧ u.port = s.port ∧
      u.trace = .delay t.pre :: s.trace := by
  have hrun : rawRun d k t s = .error ⟨.inr .pageSizeOn16BitBus, rawEntered k t s⟩ :=
    (rawRun_begin hp).trans (if_pos hpg)
  refine takeReset_raw (n := 0) (events := [.delay t.pre]) hf hl ha hraw (fun u hu => ?_) (fun h hh => ?_)
    (Nat.le_refl 1)
  · rw [hrun] at hu
    cases hu
  · rw [hrun] at hh
    cases hh
    refine ⟨rfl, [], ?_⟩
    rw [rawEntered, delay_eq, delayEvents, if_neg hpre]
    rfl

theorem readReg_reset (r : Reg) : readReg State.reset r = match r with
    | .ncsId => 0x4E435301
    | .ncsParam => 0x0404080A
    | .pinCtrl => 0x00010000
    | .geoMisc => 0x00000001
    | _ => 0 := by
  cases r with
  | xfer k f => fin_cases k <;> cases f <;> rfl
  | _ => rfl

theorem step_held {s : State} (h : s.resetIn = true) : step s = .next (heldStep s) := by
  rw [step, machineStep, if_pos h]

/-- While RESET stays asserted (R361). -/
theorem heldStep_stays {s : State} (h : ∀ rest, s.port ≠ (0, .release) :: rest) :
    inReset (heldStep s) ∧ (heldStep s).resetIn = true ∧ (heldStep s).trace = s.trace ∧
      ∀ a rest, s.port = (0, .access a) :: rest → (heldStep s).port = rest := by
  unfold heldStep
  split
  · next hp => exact ⟨resetEdge_inReset _, rfl, rfl, fun a rest hc => by rw [hp] at hc; cases hc⟩
  · next rest hp => exact absurd hp (h rest)
  · next rest hp =>
    refine ⟨resetEdge_inReset _, rfl, rfl, fun a rest' hc => ?_⟩
    rw [hp] at hc
    cases hc
    rfl
  · next hp => exact ⟨resetEdge_inReset _, rfl, rfl, fun a rest hc => by rw [hp] at hc; cases hc⟩

/-- Settles O52: each way RESET comes, stays and goes by the lemma on it. -/
theorem resetState : Obligations.ResetState := by
  refine ⟨readReg_reset, rfl, rfl, rfl, rfl, rfl, rfl, fun _ => rfl, fun s after rest hr hp => ⟨fun h0 => ?_,
    fun x new h0 hf hl ha hx ht => ?_, fun d k t events hev h0 hf hl ha hraw hph => ⟨fun hpg hz hw hn => ?_,
    fun hpg hpre h1 => ?_⟩⟩, fun s hr hnot => ?_, fun s rest hr hp => ?_⟩
  · subst h0
    exact ⟨_, step_reset hr hp, resetEdge_inReset _, rfl, rfl, rfl⟩
  · obtain ⟨n, rfl⟩ := Nat.exists_eq_succ_of_ne_zero h0
    rw [step_reset hr hp]
    obtain ⟨hnext, -⟩ := nextAction_exec (s := { s with port := rest }) hf hl ha
    exact takeReset_cut (.inl (hnext.trans hx)) ht (exec_entry_port hx)
  · obtain ⟨n, rfl⟩ := Nat.exists_eq_succ_of_ne_zero h0
    subst hev
    rw [step_reset hr hp]
    exact takeReset_raw_ready (s := { s with port := rest }) hf hl ha hraw hph hpg hz hw hn
  · subst h1
    rw [step_reset hr hp]
    exact takeReset_raw_page (s := { s with port := rest }) hf hl ha hraw hph hpg hpre
  · exact ⟨_, step_held hr, heldStep_stays hnot⟩
  · refine ⟨{ tickOnce (resetEdge { s with port := rest }) with resetIn := false }, ?_, rfl, rfl, rfl, rfl, rfl, ?_,
      fun r hne => ?_, fun _ => rfl⟩
    · rw [step_held hr, heldStep, hp]
    · exact BitVec.zero_add _
    · cases r
      case timeLo => exact absurd rfl hne
      all_goals rfl

end Sys2Proof.Machine
